-- ==== Sys2Proof/Word.lean ====
section
/-! DEFINITION. The word types of the LXESP32DMX break-signal block. Every value of the block is an
unsigned number of a stated width (spec 00_scope.md R10). Where the spec fixes the width the value is a
bit vector; where the width is an open parameter (R6) the value is a natural number that the writing
operation truncates (Machine/Operands.lean). -/

namespace Sys2Proof

/-- One byte of host memory (30_encoding.md R100, 20_memory.md R75). -/
abbrev Byte := BitVec 8

/-- The 64-bit command word (30_encoding.md R100). -/
abbrev Command := BitVec 64

/-- A microsecond value, `US_W = 64` bits (00_scope.md R6). -/
abbrev Micros := BitVec 64

/-- The port index a command carries, `W[55:48]` (30_encoding.md R101). -/
abbrev PortIndex := BitVec 8

end Sys2Proof
end

