-- ==== Sys2Proof/Syntax.lean ====
section
/-! DEFINITION. The twenty operations of the block (spec 00_scope.md R9), one constructor for each row of
spec/opcode_table.json, with the operands of 30_encoding.md R103; and the assembler's names (R109, R110). -/

namespace Sys2Proof

/-- The operations of 00_scope.md R9. Operands are the fields of the command word after R103: `p` eight
bits, durations and values 32 bits, break lengths 16 bits, flags one bit. -/
inductive Instr where
  /-- `NOW_MICROS` (40_timer.md R131). -/
  | nowMicros
  /-- `DELAY_MICROS d` (40_timer.md R135). -/
  | delayMicros (d : BitVec 32)
  /-- `WAIT_TXFIFO_EMPTY p` (41_spinwait.md R153). -/
  | waitTxfifoEmpty (p : PortIndex)
  /-- `WAIT_RXFIFO_EMPTY p` (41_spinwait.md R154). -/
  | waitRxfifoEmpty (p : PortIndex)
  /-- `WAIT_TX_DONE p` (41_spinwait.md R155). -/
  | waitTxDone (p : PortIndex)
  /-- `WAIT_TX_BRK_DONE p` (41_spinwait.md R156). -/
  | waitTxBrkDone (p : PortIndex)
  /-- `SET_RS485_MODE p` (42_guarded_regops.md R174). -/
  | setRs485Mode (p : PortIndex)
  /-- `CFG_BREAK_GEN p, en, blen, ilen` (42_guarded_regops.md R175). -/
  | cfgBreakGen (p : PortIndex) (en : Bool) (blen ilen : BitVec 16)
  /-- `FORCE_TWO_STOP_BITS p` (42_guarded_regops.md R176). -/
  | forceTwoStopBits (p : PortIndex)
  /-- `ENABLE_BRK_DET p` (42_guarded_regops.md R177). -/
  | enableBrkDet (p : PortIndex)
  /-- `DISABLE_BRK_DET p` (42_guarded_regops.md R178). -/
  | disableBrkDet (p : PortIndex)
  /-- `DISABLE_ALL_INTS p` (42_guarded_regops.md R179). -/
  | disableAllInts (p : PortIndex)
  /-- `SET_INT_MASK p, v` (42_guarded_regops.md R180). -/
  | setIntMask (p : PortIndex) (v : BitVec 32)
  /-- `CLEAR_ALL_INTS p` (42_guarded_regops.md R181). -/
  | clearAllInts (p : PortIndex)
  /-- `SEND_BREAK p, d` (43_break.md R201). -/
  | sendBreak (p : PortIndex) (d : BitVec 32)
  /-- `OPEN p` (44_facade.md R221). -/
  | openPort (p : PortIndex)
  /-- `SET_BAUD p, v` (44_facade.md R222). -/
  | setBaud (p : PortIndex) (v : BitVec 32)
  /-- `END p` (44_facade.md R223). -/
  | endPort (p : PortIndex)
  /-- `GET_DBG_PORT` (44_facade.md R224). -/
  | getDbgPort
  /-- `SET_DBG_PORT p, valid` (44_facade.md R225). -/
  | setDbgPort (p : PortIndex) (valid : Bool)
deriving DecidableEq, Repr

/-- `CLR_DBG_PORT` (30_encoding.md R110). -/
def Instr.clrDbgPort : Instr := .setDbgPort 0 false

/-- `DISABLE_BREAK_GEN p` (30_encoding.md R110). -/
def Instr.disableBreakGen (p : PortIndex) : Instr := .cfgBreakGen p false 0 0

/-- `CLOSE p` (30_encoding.md R110): the source's other name for `end()`. -/
def Instr.close (p : PortIndex) : Instr := .endPort p

/-- The mnemonic of 00_scope.md R9, as spec/opcode_table.json spells it. -/
def Instr.mnemonic : Instr → String
  | .nowMicros => "NOW_MICROS"
  | .delayMicros _ => "DELAY_MICROS"
  | .waitTxfifoEmpty _ => "WAIT_TXFIFO_EMPTY"
  | .waitRxfifoEmpty _ => "WAIT_RXFIFO_EMPTY"
  | .waitTxDone _ => "WAIT_TX_DONE"
  | .waitTxBrkDone _ => "WAIT_TX_BRK_DONE"
  | .setRs485Mode _ => "SET_RS485_MODE"
  | .cfgBreakGen _ _ _ _ => "CFG_BREAK_GEN"
  | .forceTwoStopBits _ => "FORCE_TWO_STOP_BITS"
  | .enableBrkDet _ => "ENABLE_BRK_DET"
  | .disableBrkDet _ => "DISABLE_BRK_DET"
  | .disableAllInts _ => "DISABLE_ALL_INTS"
  | .setIntMask _ _ => "SET_INT_MASK"
  | .clearAllInts _ => "CLEAR_ALL_INTS"
  | .sendBreak _ _ => "SEND_BREAK"
  | .openPort _ => "OPEN"
  | .setBaud _ _ => "SET_BAUD"
  | .endPort _ => "END"
  | .getDbgPort => "GET_DBG_PORT"
  | .setDbgPort _ _ => "SET_DBG_PORT"

/-- A one-bit operand as the number the assembler writes. -/
def Instr.flagNat (b : Bool) : Nat := if b then 1 else 0

/-- The operands in the assembler's order, the port first (30_encoding.md R109). -/
def Instr.operands : Instr → List Nat
  | .nowMicros => []
  | .getDbgPort => []
  | .delayMicros d => [d.toNat]
  | .waitTxfifoEmpty p => [p.toNat]
  | .waitRxfifoEmpty p => [p.toNat]
  | .waitTxDone p => [p.toNat]
  | .waitTxBrkDone p => [p.toNat]
  | .setRs485Mode p => [p.toNat]
  | .cfgBreakGen p en blen ilen => [p.toNat, Instr.flagNat en, blen.toNat, ilen.toNat]
  | .forceTwoStopBits p => [p.toNat]
  | .enableBrkDet p => [p.toNat]
  | .disableBrkDet p => [p.toNat]
  | .disableAllInts p => [p.toNat]
  | .setIntMask p v => [p.toNat, v.toNat]
  | .clearAllInts p => [p.toNat]
  | .sendBreak p d => [p.toNat, d.toNat]
  | .openPort p => [p.toNat]
  | .setBaud p v => [p.toNat, v.toNat]
  | .endPort p => [p.toNat]
  | .setDbgPort p valid => [p.toNat, Instr.flagNat valid]

/-- One line of assembler text, numbers in decimal (30_encoding.md R109). -/
def Instr.assembler (i : Instr) : String :=
  match i.operands with
  | [] => i.mnemonic
  | os => i.mnemonic ++ " " ++ String.intercalate ", " (os.map toString)

end Sys2Proof
end

