-- ==== Sys2Proof/WellFormed.lean ====
section
/-! DEFINITION. Which terms of `Instr` stand for a command of the block. The operand types already hold
every operand to its width (30_encoding.md R103); the one further check is R105 step 4. -/

namespace Sys2Proof

/-- 30_encoding.md R105 step 4: `SET_DBG_PORT` with `valid = 0` has `PORT = 0`. Every other operand takes
every value of its width (R103, R106). -/
def Instr.wellFormed : Instr → Bool
  | .setDbgPort p valid => valid || p == 0
  | .nowMicros => true
  | .delayMicros _ => true
  | .waitTxfifoEmpty _ => true
  | .waitRxfifoEmpty _ => true
  | .waitTxDone _ => true
  | .waitTxBrkDone _ => true
  | .setRs485Mode _ => true
  | .cfgBreakGen _ _ _ _ => true
  | .forceTwoStopBits _ => true
  | .enableBrkDet _ => true
  | .disableBrkDet _ => true
  | .disableAllInts _ => true
  | .setIntMask _ _ => true
  | .clearAllInts _ => true
  | .sendBreak _ _ => true
  | .openPort _ => true
  | .setBaud _ _ => true
  | .endPort _ => true
  | .getDbgPort => true

end Sys2Proof
end

