-- ==== Sys2Proof/Decode.lean ====
section
/-! DEFINITION. The decoder of the 64-bit command word, total and rejecting by name, and after it the
encoder (spec 30_encoding.md R100 to R108). -/

namespace Sys2Proof

/-! ## The command word -/

/-- `OPC = W[63:56]` (R101). -/
def Command.opc (w : Command) : BitVec 8 := w.extractLsb' 56 8

/-- `PORT = W[55:48]` (R101). -/
def Command.port (w : Command) : PortIndex := w.extractLsb' 48 8

/-- `ARGH = W[47:32]` (R101). -/
def Command.argh (w : Command) : BitVec 16 := w.extractLsb' 32 16

/-- `ARGL = W[31:0]` (R101). -/
def Command.argl (w : Command) : BitVec 32 := w.extractLsb' 0 32

/-- The word with the four fields of R101. -/
def Command.ofFields (opc : BitVec 8) (port : PortIndex) (argh : BitVec 16) (argl : BitVec 32) : Command :=
  opc ++ port ++ argh ++ argl

/-- Why a word is no command (R107, R102, R105 step 4). -/
inductive DecodeError where
  /-- `OPC` is reserved (R107). -/
  | reservedOpcode
  /-- A must-be-zero field is not zero (R102). -/
  | nonZeroField
  /-- `SET_DBG_PORT` with `valid = 0` and `PORT` not 0 (R105 step 4). -/
  | portWithoutValid
deriving DecidableEq, Repr

/-- The six formats of R102. -/
inductive Format where
  | formatN | formatD | formatP | formatPV | formatB | formatG
deriving DecidableEq, Repr

/-- Column `mask` of R102. -/
def Format.mask : Format → Command
  | .formatN => 0xFFFFFFFFFFFFFFFF
  | .formatD => 0xFFFFFFFF00000000
  | .formatP => 0xFF00FFFFFFFFFFFF
  | .formatPV => 0xFF00FFFF00000000
  | .formatB => 0xFF00FFFE00000000
  | .formatG => 0xFF00FFFEFFFFFFFF

/-- The opcode map of R104: `OPC`, format and the operation that R103's operand assembly gives. -/
def opcodeRow (opc : Nat) (w : Command) : Option (Format × Instr) :=
  let p := w.port
  let v := w.argl
  let flag := w.argh.getLsbD 0
  match opc with
  | 0x01 => some (.formatN, .nowMicros)
  | 0x02 => some (.formatD, .delayMicros v)
  | 0x10 => some (.formatP, .waitTxfifoEmpty p)
  | 0x11 => some (.formatP, .waitRxfifoEmpty p)
  | 0x12 => some (.formatP, .waitTxDone p)
  | 0x13 => some (.formatP, .waitTxBrkDone p)
  | 0x20 => some (.formatP, .setRs485Mode p)
  | 0x21 => some (.formatB, .cfgBreakGen p flag (v.extractLsb' 16 16) (v.extractLsb' 0 16))
  | 0x22 => some (.formatP, .forceTwoStopBits p)
  | 0x23 => some (.formatP, .enableBrkDet p)
  | 0x24 => some (.formatP, .disableBrkDet p)
  | 0x25 => some (.formatP, .disableAllInts p)
  | 0x26 => some (.formatPV, .setIntMask p v)
  | 0x27 => some (.formatP, .clearAllInts p)
  | 0x30 => some (.formatPV, .sendBreak p v)
  | 0x40 => some (.formatP, .openPort p)
  | 0x41 => some (.formatPV, .setBaud p v)
  | 0x42 => some (.formatP, .endPort p)
  | 0x43 => some (.formatN, .getDbgPort)
  | 0x44 => some (.formatG, .setDbgPort p flag)
  | _ => none

/-- The decoding algorithm of R105, steps (1) to (5), with the reason of a rejection. -/
def decodeWord (w : Command) : Except DecodeError Instr :=
  match opcodeRow w.opc.toNat w with
  | none => .error .reservedOpcode
  | some (fmt, i) =>
    if w &&& fmt.mask = Command.ofFields w.opc 0 0 0 then
      if i.wellFormed then .ok i else .error .portWithoutValid
    else .error .nonZeroField

/-- R105: the operation a word stands for, if it is legal. -/
def decode (w : Command) : Option Instr :=
  match decodeWord w with
  | .ok i => some i
  | .error _ => none

/-! ## Byte order (20_memory.md R75, 30_encoding.md R100) -/

/-- The eight bytes of a command word in host memory, little-endian: byte 0 holds bits `[7:0]`. -/
def Command.toBytes (w : Command) : List Byte :=
  [w.extractLsb' 0 8, w.extractLsb' 8 8, w.extractLsb' 16 8, w.extractLsb' 24 8,
   w.extractLsb' 32 8, w.extractLsb' 40 8, w.extractLsb' 48 8, w.extractLsb' 56 8]

/-- The command word that eight bytes of host memory hold (little-endian); every command has one length
(R100), so any other number of bytes holds none. -/
def Command.ofBytes : List Byte → Option Command
  | [b0, b1, b2, b3, b4, b5, b6, b7] => some (b7 ++ b6 ++ b5 ++ b4 ++ b3 ++ b2 ++ b1 ++ b0)
  | _ => none

/-- The operation that the bytes of a command in host memory stand for. -/
def decodeBytes (bs : List Byte) : Option Instr := (Command.ofBytes bs).bind decode

/-- The command word whose bits are those of `w` below `nbits`, every higher bit 0. -/
def Command.ofTable (nbits w : Nat) : Command := BitVec.ofNat 64 (w % 2 ^ nbits)

/-- What the decoder reads from an instruction of spec/opcode_table.json: its one 64-bit word, laid out as
the host's memory stores it. -/
def decodeTableWord (nbits w : Nat) : Option Instr := decodeBytes (Command.ofTable nbits w).toBytes

/-! ## The encoder -/

/-- `OPC` of R104. -/
def Instr.opcode : Instr → BitVec 8
  | .nowMicros => 0x01
  | .delayMicros _ => 0x02
  | .waitTxfifoEmpty _ => 0x10
  | .waitRxfifoEmpty _ => 0x11
  | .waitTxDone _ => 0x12
  | .waitTxBrkDone _ => 0x13
  | .setRs485Mode _ => 0x20
  | .cfgBreakGen _ _ _ _ => 0x21
  | .forceTwoStopBits _ => 0x22
  | .enableBrkDet _ => 0x23
  | .disableBrkDet _ => 0x24
  | .disableAllInts _ => 0x25
  | .setIntMask _ _ => 0x26
  | .clearAllInts _ => 0x27
  | .sendBreak _ _ => 0x30
  | .openPort _ => 0x40
  | .setBaud _ _ => 0x41
  | .endPort _ => 0x42
  | .getDbgPort => 0x43
  | .setDbgPort _ _ => 0x44

/-- The format column of R104. -/
def Instr.format : Instr → Format
  | .nowMicros => .formatN
  | .getDbgPort => .formatN
  | .delayMicros _ => .formatD
  | .cfgBreakGen _ _ _ _ => .formatB
  | .setIntMask _ _ => .formatPV
  | .sendBreak _ _ => .formatPV
  | .setBaud _ _ => .formatPV
  | .setDbgPort _ _ => .formatG
  | .waitTxfifoEmpty _ => .formatP
  | .waitRxfifoEmpty _ => .formatP
  | .waitTxDone _ => .formatP
  | .waitTxBrkDone _ => .formatP
  | .setRs485Mode _ => .formatP
  | .forceTwoStopBits _ => .formatP
  | .enableBrkDet _ => .formatP
  | .disableBrkDet _ => .formatP
  | .disableAllInts _ => .formatP
  | .clearAllInts _ => .formatP
  | .openPort _ => .formatP
  | .endPort _ => .formatP

/-- A one-bit operand as `ARGH` (R102: `ARGH[15:1] = 0`). -/
def flagArgh (b : Bool) : BitVec 16 := if b then 1 else 0

/-- The command word of an operation, from R101, R102 and R104. -/
def encode : Instr → Command
  | .nowMicros => Command.ofFields 0x01 0 0 0
  | .delayMicros d => Command.ofFields 0x02 0 0 d
  | .waitTxfifoEmpty p => Command.ofFields 0x10 p 0 0
  | .waitRxfifoEmpty p => Command.ofFields 0x11 p 0 0
  | .waitTxDone p => Command.ofFields 0x12 p 0 0
  | .waitTxBrkDone p => Command.ofFields 0x13 p 0 0
  | .setRs485Mode p => Command.ofFields 0x20 p 0 0
  | .cfgBreakGen p en blen ilen => Command.ofFields 0x21 p (flagArgh en) (blen ++ ilen)
  | .forceTwoStopBits p => Command.ofFields 0x22 p 0 0
  | .enableBrkDet p => Command.ofFields 0x23 p 0 0
  | .disableBrkDet p => Command.ofFields 0x24 p 0 0
  | .disableAllInts p => Command.ofFields 0x25 p 0 0
  | .setIntMask p v => Command.ofFields 0x26 p 0 v
  | .clearAllInts p => Command.ofFields 0x27 p 0 0
  | .sendBreak p d => Command.ofFields 0x30 p 0 d
  | .openPort p => Command.ofFields 0x40 p 0 0
  | .setBaud p v => Command.ofFields 0x41 p 0 v
  | .endPort p => Command.ofFields 0x42 p 0 0
  | .getDbgPort => Command.ofFields 0x43 0 0 0
  | .setDbgPort p valid => Command.ofFields 0x44 p (flagArgh valid) 0

end Sys2Proof
end

