-- ==== Sys2Proof/Machine/Hardware.lean ====
section
/-! DEFINITION. The types of the hardware agent's state: the register fields of one port (spec
10_state.md R38), and the pin's multiplexer, direction, level and configuration (R47 to R49). -/

namespace Sys2Proof.Machine

/-- The storage fields of one port's register block (R38), as unsigned numbers (00_scope.md R10). Their
widths are the parameters of 00_scope.md R6 (`Machine/Operands.lean`). `INT_CLR` is not a storage element
(R42). -/
structure Regs where
  /-- `TXFIFO_CNT[p]` (R39). -/
  txfifoCnt : Nat
  /-- `RXFIFO_CNT[p]` (R39). -/
  rxfifoCnt : Nat
  /-- `INT_RAW[p]`: the pending, latched interrupt flags (R40). -/
  intRaw : Nat
  /-- `INT_ENA[p]`: the interrupt-enable mask (R41). -/
  intEna : Nat
  /-- `RS485_EN[p]` (R43). -/
  rs485En : Nat
  /-- `TXD_BRK_EN[p]` (R44). -/
  txdBrkEn : Nat
  /-- `BRK_LEN[p]` (R44). -/
  brkLen : Nat
  /-- `IDLE_LEN[p]` (R44). -/
  idleLen : Nat
  /-- `STOP_BITS[p]` (R45). -/
  stopBits : Nat
  /-- `BRK_DET_EN[p]` (R46): a storage element only when `BRKDET_ALIAS = separate`. -/
  brkDetEn : Nat
  /-- `AUTOBAUD[p]` (R46). -/
  autobaud : Nat
  /-- `RXFIFO_THRHD[p]` (R46). -/
  rxfifoThrhd : Nat
deriving DecidableEq, Repr, Inhabited

/-- Identifiers of the signal matrix (20_memory.md R70). `SIG_TX(p)` is `uartTx p`, so it is injective in
`p` (00_scope.md R6). -/
inductive Sig where
  /-- `SIG_TX(p)`, port `p`'s transmit signal. -/
  | uartTx (p : Nat)
  /-- Any other signal of the platform. -/
  | other (k : Nat)
deriving DecidableEq, Repr, Inhabited

/-- `PIN_MUX[pin]` (R47). -/
inductive PinMux where
  | detached
  | attached (sig : Sig)
deriving DecidableEq, Repr, Inhabited

/-- `PIN_DIR[pin]` (R48). -/
inductive PinDir where
  | input
  | output
deriving DecidableEq, Repr, Inhabited

/-- One pin: multiplexer, direction, output latch (`true` is logic-high), and the opaque pull and
inversion configuration (R47 to R49). -/
structure Pin where
  mux : PinMux
  dir : PinDir
  level : Bool
  cfg : Nat
deriving DecidableEq, Repr, Inhabited

end Sys2Proof.Machine
end

