-- ==== Sys2Proof/Config.lean ====
section
/-! DEFINITION. The implementation parameters of spec 00_scope.md R6 with their constraints (R7), and the
free values: opaque constants that nothing in Lean can evaluate. -/

namespace Sys2Proof

/-- `BRKDET_ALIAS` (00_scope.md R6, 10_state.md R46). -/
inductive BrkDetAlias where
  /-- The break-detect enable is bit `BRK_DET_BIT` of `INT_ENA`. -/
  | inMask
  /-- The break-detect enable is a field of its own. -/
  | separate
deriving DecidableEq, Repr, Inhabited

/-- `NPORTS` (00_scope.md R6): the spec's decision D2. -/
abbrev nports : Nat := 3

/-- The named parameters of 00_scope.md R6. -/
structure Params where
  /-- `CYC_W`: width of the raw cycle counter. -/
  cycW : Nat
  /-- `CYCLES_PER_US`. -/
  cyclesPerUs : Nat
  /-- `CNT_W`: width of each FIFO count. -/
  cntW : Nat
  /-- `INT_W`: width of the interrupt masks. -/
  intW : Nat
  /-- `TX_DONE_BIT`. -/
  txDoneBit : Nat
  /-- `TX_BRK_IDLE_DONE_BIT`. -/
  txBrkIdleDoneBit : Nat
  /-- `BRK_DET_BIT`. -/
  brkDetBit : Nat
  /-- `BRK_LEN_W`. -/
  brkLenW : Nat
  /-- `IDLE_LEN_W`. -/
  idleLenW : Nat
  /-- `STOP_W`. -/
  stopW : Nat
  /-- `TWO_STOP_CODE`. -/
  twoStopCode : Nat
  /-- `THR_W`. -/
  thrW : Nat
  /-- `AB_W`. -/
  abW : Nat
  /-- `AUTOBAUD_RST`: 0 by the spec's decision D22, which lets a platform override it. -/
  autobaudRst : Nat
  /-- `BRKDET_ALIAS`. -/
  brkdetAlias : BrkDetAlias
  /-- `CLR_ALL_MASK`: every bit by the spec's decision D24, which lets a platform override it. -/
  clrAllMask : Nat
  /-- `TXPIN_0`. -/
  txPin0 : Nat
  /-- `TXPIN_1`. -/
  txPin1 : Nat
  /-- `TXPIN_2`. -/
  txPin2 : Nat
  /-- `TXPIN_DEFAULT`. -/
  txPinDefault : Nat
  /-- `WDT_TIMEOUT_US`: read by no rule, named by 70_reset_and_hazards.md R294 only. -/
  wdtTimeoutUs : Nat
  /-- The bound a model may put on the depth of `CTXSTACK` (10_state.md R22); `none`: unbounded. -/
  depthBound : Option Nat
deriving DecidableEq, Repr, Inhabited

/-- The constraints of 00_scope.md R7 (and, for the optional depth bound, that `MAIN` fits). -/
abbrev Params.Valid (P : Params) : Prop :=
  (1 ≤ P.cycW ∧ 1 ≤ P.cyclesPerUs ∧ P.cyclesPerUs ≤ 2 ^ P.cycW - 1) ∧
  (1 ≤ P.cntW ∧ 1 ≤ P.intW ∧ P.intW ≤ 32) ∧
  (P.txDoneBit ≠ P.txBrkIdleDoneBit ∧ P.txDoneBit ≠ P.brkDetBit ∧ P.txBrkIdleDoneBit ≠ P.brkDetBit) ∧
  (P.txDoneBit < P.intW ∧ P.txBrkIdleDoneBit < P.intW ∧ P.brkDetBit < P.intW) ∧
  (1 ≤ P.brkLenW ∧ P.brkLenW ≤ 16 ∧ 1 ≤ P.idleLenW ∧ P.idleLenW ≤ 16) ∧
  (1 ≤ P.stopW ∧ P.twoStopCode < 2 ^ P.stopW ∧ 1 ≤ P.thrW) ∧
  (1 ≤ P.abW ∧ P.autobaudRst < 2 ^ P.abW ∧ P.clrAllMask < 2 ^ P.intW) ∧
  (P.txPin0 ≠ P.txPin1 ∧ P.txPin0 ≠ P.txPin2 ∧ P.txPin1 ≠ P.txPin2) ∧
  (∀ b ∈ P.depthBound, 1 ≤ b)

/-- The reference instantiation of 00_scope.md R6 and R8. PRESUMED (unsafe if taken for the platform's):
the spec marks these values as general knowledge; log entry 27. -/
def Params.reference : Params where
  cycW := 32
  cyclesPerUs := 240
  cntW := 8
  intW := 32
  txDoneBit := 14
  txBrkIdleDoneBit := 13
  brkDetBit := 7
  brkLenW := 8
  idleLenW := 10
  stopW := 2
  twoStopCode := 3
  thrW := 7
  abW := 32
  autobaudRst := 0
  brkdetAlias := .inMask
  clrAllMask := 2 ^ 32 - 1
  txPin0 := 1
  txPin1 := 10
  txPin2 := 17
  txPinDefault := 1
  wdtTimeoutUs := 0
  depthBound := none

namespace Config

/-- The open parameters as the platform gives them: no value of it can be proved (R6: a model must not
fix them). DESIGN CHOICE, safe; log entry 1. -/
opaque openParams : Params

/-- The parameters the machine of `State.reset` has: the open ones where they meet R7, which a model must
assume of them. Where they do not, the reference stands in so that R7 holds. Log entry 1. -/
def platform : Params := if openParams.Valid then openParams else Params.reference

/-- The free values of the register fields that `OPEN` havocs, one draw for each `OPEN` (44_facade.md
R221). DESIGN CHOICE, safe; log entry 11. -/
opaque openRegs : Nat → Machine.Regs

/-- The free value of `U_TX[p]` after `OPEN p` (R221). DESIGN CHOICE, safe; log entry 11. -/
opaque openTx : Nat → Bool

/-- The free values of the transmit pin's state after `OPEN p` (R221). DESIGN CHOICE, safe; log
entry 11. -/
opaque openPin : Nat → Machine.Pin

/-- The bits of a 32-bit register read that belong to no readable field (20_memory.md R72, 10_state.md
R42), by draw and byte offset: no port is named and no read takes a new draw. DESIGN CHOICE, unsafe for a claim
that compares two reads or two ports, whose unspecified bits R72 does not make equal; log entry 19. -/
opaque unspecifiedBits : Nat → Nat → BitVec 32

end Config

end Sys2Proof
end

