-- ==== Sys2Proof/Machine/State.lean ====
section
/-! DEFINITION. The architectural state of the block (spec 10_state.md), the reasons a step can stop, and
the state at reset (R60). State is plain data. -/

namespace Sys2Proof.Machine

/-! ## Contexts and phases -/

/-- Execution contexts (10_state.md R22): the main task, and the activations of interrupt contexts. -/
inductive Ctx where
  | main
  | isr (n : Nat)
deriving DecidableEq, Repr

/-- The micro-steps `d0`, `d1`, `d2` of a delay with its locals (40_timer.md R135). -/
inductive DPhase where
  | d0
  | d1 (start target : Micros)
  | d2 (start target : Micros)
deriving DecidableEq, Repr

/-- The micro-steps of a wait (41_spinwait.md R150). -/
inductive WPhase where
  | w0 | w1 | w2 | w3 | w4
deriving DecidableEq, Repr

/-- The micro-steps of a guarded operation (42_guarded_regops.md R170); no body has more than three. -/
inductive GPhase where
  | g0 | g1 | b1 | b2 | b3 | gR
deriving DecidableEq, Repr

/-- The locals of `SEND_BREAK` (43_break.md R201): the transmit pin and the `InterruptMaskSnapshot` of
10_state.md R56. -/
structure BreakLocals where
  pin : Nat
  snap : Nat
deriving DecidableEq, Repr

/-- The phase of a running operation with its locals (10_state.md R23). A micro-step of a sub-operation
(R24) stands inside the phase of the enclosing operation it returns to. -/
inductive Phase where
  /-- `NOW_MICROS` (40_timer.md R131). -/
  | n0
  /-- `DELAY_MICROS` (40_timer.md R135). -/
  | d (x : DPhase)
  /-- The four waits (41_spinwait.md R150). -/
  | w (x : WPhase)
  /-- The eight guarded operations (42_guarded_regops.md R170). -/
  | g (x : GPhase)
  /-- `SEND_BREAK` (43_break.md R201). -/
  | s0
  | s1 (pin : Nat)
  | s2 (l : BreakLocals) (x : GPhase)
  | s3 (l : BreakLocals)
  | s4 (l : BreakLocals)
  | s5 (l : BreakLocals)
  | s6 (l : BreakLocals) (x : DPhase)
  | s7 (l : BreakLocals)
  | s8 (l : BreakLocals)
  | s9 (l : BreakLocals) (x : GPhase)
  /-- `OPEN` (44_facade.md R221). -/
  | o0
  /-- `SET_BAUD` (44_facade.md R222). -/
  | u0
  /-- `END` (44_facade.md R223). -/
  | e0
  | e1 (x : GPhase)
  | e2
  | e3
  | e4
  /-- `GET_DBG_PORT` (44_facade.md R224). -/
  | q0
  /-- `SET_DBG_PORT` (44_facade.md R225). -/
  | t0
deriving DecidableEq, Repr

/-- `OPSTATE[c]` (10_state.md R23). -/
inductive OpState where
  | idle
  | run (i : Instr) (ph : Phase)
deriving DecidableEq, Repr

/-- What a context has of its own: `OPSTATE[c]` and the result latch `RESULT[c]`, which holds no value
until an operation writes it (10_state.md R21, R23). -/
structure CtxState where
  op : OpState
  result : Option Micros
deriving DecidableEq, Repr

/-- A context that has presented nothing (R60). -/
def CtxState.fresh : CtxState := ⟨.idle, none⟩

/-- The per-context state of every context: `MAIN`'s, and `ISR(n)`'s at position `n` for every `ISR(n)`
entered so far. A context not entered yet is `CtxState.fresh`. -/
structure Ctxs where
  main : CtxState
  isrs : List CtxState
deriving DecidableEq, Repr

/-! ## Faults and refusals of the block -/

/-- The closed list of the block's faults (60_exceptions.md R241), with what each records. -/
inductive FaultCause where
  /-- Code 1: a word that decodes to no operation (30_encoding.md R108). -/
  | illegalCommand (w : Command)
  /-- Code 2: the operation would access a port whose handle is null at its start. -/
  | nullPort (p : PortIndex)
  /-- Code 3: the handle became null while the operation was in progress. -/
  | stalePort (p : PortIndex)
  /-- Code 4: `OPEN` of a port that does not exist. -/
  | badPort (p : PortIndex)
  /-- Code 5: `OPEN` of an open port. -/
  | portAlreadyOpen (p : PortIndex)
deriving DecidableEq, Repr

/-- One entry of `FAULTS` (10_state.md R25): the context and the fault with its information. -/
structure FaultRecord where
  ctx : Ctx
  cause : FaultCause
deriving DecidableEq, Repr

/-- The block's own refusals (60_exceptions.md R241). -/
inductive RefusalReason where
  /-- `SEND_BREAK` outside `MAIN` (43_break.md R203). -/
  | breakOutsideMain
  /-- `SET_BAUD` (44_facade.md R222). -/
  | baudNotInBlock
  /-- Interrupt entry beyond the depth bound (60_exceptions.md R257). -/
  | nestingTooDeep
deriving DecidableEq, Repr

/-- A recorded refusal (60_exceptions.md R242): the running context and the reason. -/
structure RefusalRecord where
  ctx : Ctx
  reason : RefusalReason
deriving DecidableEq, Repr

/-! ## Ports -/

/-- `HANDLE[p]` (10_state.md R35). -/
inductive Handle where
  | null
  | valid
deriving DecidableEq, Repr

/-- `LOCK[p]` and `T_CRIT` (10_state.md R36, R33). -/
inductive Lock where
  | free
  | held (c : Ctx)
deriving DecidableEq, Repr

/-- The physical ports `p < NPORTS`. -/
abbrev PortId := Fin nports

/-- The state of one physical port: handle, lock, event queue token, register block and the UART's own
transmit signal `U_TX[p]` (10_state.md R35 to R46, R51). -/
structure Port where
  handle : Handle
  lock : Lock
  evq : Option Nat
  regs : Regs
  uTx : Bool
deriving DecidableEq, Repr

/-- The fields a register read can name (10_state.md R38). -/
inductive Field where
  | txfifoCnt | rxfifoCnt | intRaw | intEna | rs485En | txdBrkEn | brkLen | idleLen | stopBits
  | brkDetEn | autobaud | rxfifoThrhd
deriving DecidableEq, Repr

/-- The fields software may write (10_state.md R38, column "software access"). -/
inductive WField where
  | intEna | intClr | rs485En | txdBrkEn | brkLen | idleLen | stopBits | brkDetEn | autobaud
  | rxfifoThrhd
deriving DecidableEq, Repr

/-! ## Events and moves -/

/-- The cause an interrupt entry names (60_exceptions.md R253, R257). -/
inductive Cause where
  | uart (p : PortId)
  | external
deriving DecidableEq, Repr

/-- The events of the ghost list `TRACE` (00_scope.md R14). -/
inductive Event where
  | line (pin : Nat) (b : Bool)
  | mux (pin : Nat) (m : PinMux)
  | feed (c : Ctx)
  | yield (c : Ctx)
  | regW (p : PortId) (f : WField) (v : Nat)
  | acq (p : PortId) (c : Ctx)
  | rel (p : PortId) (c : Ctx)
  | now (c : Ctx) (raw : Nat) (v : Micros)
  | intEnter (c : Ctx) (k : Cause)
  | intExit (c : Ctx)
deriving DecidableEq, Repr

/-- One step of one agent (10_state.md R20). The list of moves in the state says which agent steps next
(20_memory.md R76); log entry 2. -/
inductive Move where
  /-- The running context takes one micro-step of the operation it has presented. -/
  | micro
  /-- The host presents a command word to the running context (R23, 30_encoding.md R105). -/
  | present (w : Command)
  /-- The host presents a command word and the context takes its first micro-step before any other agent
  moves; log entry 3. -/
  | issue (w : Command)
  /-- The UART hardware of port `p` (R52): new FIFO counts, flags to set, and transmit signal. -/
  | uart (p : PortId) (tx rx set : Nat) (line : Bool)
  /-- The cycle counter advances by `k` cycles (R53). -/
  | advance (k : Nat)
  /-- Interrupt entry with a cause (60_exceptions.md R257). -/
  | interrupt (k : Cause)
  /-- Interrupt exit (60_exceptions.md R259). -/
  | exitInterrupt
deriving DecidableEq, Repr

/-! ## The state -/

/-- The state of the machine. The last four fields are the model's own; every other field is named by a
rule of 10_state.md. -/
structure State where
  /-- `CTXSTACK` above `MAIN` (R22): the indices of the interrupt contexts, the running one first. The
  bottom of the stack is `MAIN` always. -/
  stack : List Nat
  /-- `OPSTATE[c]` and `RESULT[c]` (R21, R23). -/
  ctxs : Ctxs
  /-- `FAULTS` (R25), oldest first. -/
  faults : List FaultRecord
  /-- `REFUSED` (R25). -/
  refused : Bool
  /-- The reasons of the refusals (60_exceptions.md R242), oldest first. -/
  refusals : List RefusalRecord
  /-- `TRACE` (00_scope.md R14), oldest first. -/
  trace : List Event
  /-- `TIME_CYC` (R30); `CCOUNT` is `TIME_CYC mod 2^CYC_W`. -/
  timeCyc : Nat
  /-- `T_LAST` (R31). -/
  tLast : Nat
  /-- `T_ACC` (R32). -/
  tAcc : Micros
  /-- `T_CRIT` (R33). -/
  tCrit : Lock
  /-- The three physical ports (R35 to R46). -/
  ports : Vector Port nports
  /-- `PIN_MUX`, `PIN_DIR`, `PIN_LEVEL`, `PIN_CFG` by pin identifier (R47 to R49), in the canonical form of
  `Pins.wf`. -/
  pins : List (Nat × Pin)
  /-- `DBG_PORT` (R54). -/
  dbgPort : Option PortIndex
  /-- `WDT_FEEDS` (R55). -/
  wdtFeeds : Nat
  /-- MODEL: the platform's parameters (00_scope.md R6), which no step writes; log entry 1. -/
  params : Params
  /-- MODEL: the moves of the agents still to come, next first; log entry 2. -/
  moves : List Move
  /-- MODEL: how many free values have been drawn; log entry 11. -/
  draws : Nat
  /-- MODEL: the next fresh event-queue token; log entry 13. -/
  nextQueue : Nat
deriving DecidableEq, Repr

/-! ## Outcomes -/

/-- Why the machine stops. -/
inductive Fault where
  /-- Raised by `step` when `FAULTS` is not empty: the machine is quiescent and no agent takes a further
  step (60_exceptions.md R242). It names the first recorded fault. Safe: the spec says so. -/
  | quiescent (c : Ctx) (cause : FaultCause)
  /-- Raised by a meaning whose phase is not in its operation's micro-step table. No run reaches it from a
  state in which every phase is of its operation's table. Safe; log entry 18. -/
  | phaseOutsideTable
  /-- Raised by an access to the register block of a port `p >= NPORTS`, which does not exist (10_state.md
  R38). No run reaches it: such a port's handle is null (R35). Safe; log entry 18. -/
  | noRegisterBlock (p : PortIndex)
deriving DecidableEq, Repr

/-- What has no meaning in the model. -/
inductive Refusal where
  /-- An instruction with no meaning yet, by its mnemonic (raised by no arm of this model). Safe. -/
  | notModelled (mnemonic : String)
  /-- A command for a context that is running another one: no such move exists (10_state.md R23,
  60_exceptions.md R271). Safe; log entry 17. -/
  | contextBusy
  /-- The list of moves asks for a move that is not enabled: a micro-step of an idle context, interrupt
  entry without its cause (60_exceptions.md R257), exit of `MAIN` or of a busy context (R259). Safe; log
  entry 17. -/
  | moveUnavailable
  /-- A misaligned access to the register block (20_memory.md R75). Safe. -/
  | notARegisterAccess
deriving DecidableEq, Repr

/-- The outcome of one step. -/
abbrev Result := Host.Outcome State Fault Refusal

/-! ## Reset -/

/-- The values that reset does not set (70_reset_and_hazards.md R281): "unspecified" in the table of
10_state.md R60. -/
structure ResetDraw where
  /-- `CCOUNT`, and with it `TIME_CYC` (R30). -/
  ccount : Nat
  /-- The register fields of each port. -/
  regs : Vector Regs nports
  /-- `U_TX` of each port. -/
  uTx : Vector Bool nports
  /-- The pins whose state is not that of an unlisted pin. -/
  pins : List (Nat × Pin)
  /-- `DBG_PORT`. -/
  dbgPort : Option PortIndex
deriving DecidableEq, Repr

/-- Every register field 0. -/
def Regs.zero : Regs := ⟨0, 0, 0, 0, 0, 0, 0, 0, 0, 0, 0, 0⟩

/-- The values this model names for what reset leaves unspecified. DESIGN CHOICE, unsafe: a proof about
`State.reset` could lean on them; log entries 7 to 10. -/
def ResetDraw.zero : ResetDraw where
  ccount := 0
  regs := #v[Regs.zero, Regs.zero, Regs.zero]
  uTx := #v[false, false, false]
  pins := []
  dbgPort := none

/-- A port that has never been opened (R60). -/
def Port.atReset (regs : Regs) (uTx : Bool) : Port := ⟨.null, .free, none, regs, uTx⟩

/-- The machine right after reset with parameters `P`, for any draw of the unspecified values (10_state.md
R60, 70_reset_and_hazards.md R281). -/
def State.resetWith (P : Params) (draw : ResetDraw) : State where
  stack := []
  ctxs := ⟨.fresh, []⟩
  faults := []
  refused := false
  refusals := []
  trace := []
  timeCyc := draw.ccount
  tLast := 0
  tAcc := 0
  tCrit := .free
  ports := #v[Port.atReset draw.regs[0] draw.uTx[0], Port.atReset draw.regs[1] draw.uTx[1],
    Port.atReset draw.regs[2] draw.uTx[2]]
  pins := draw.pins
  dbgPort := draw.dbgPort
  wdtFeeds := 0
  params := P
  moves := []
  draws := 0
  nextQueue := 0

/-- The machine right after reset. -/
def State.reset : State := State.resetWith Config.platform ResetDraw.zero

end Sys2Proof.Machine
end

