-- ==== Sys2Proof/Machine/Operands.lean ====
section
/-! DEFINITION. Operand forms: truncation and widths (spec 00_scope.md R10, 42_guarded_regops.md R173,
10_state.md R38), the port operand (30_encoding.md R106), the transmit-pin table (10_state.md R50), the
timer's constant (00_scope.md R6), and the first phase of each operation (10_state.md R23). -/

namespace Sys2Proof.Machine

/-- `trunc_N(v) = v mod 2^N` (00_scope.md R10). -/
def trunc (n v : Nat) : Nat := v % 2 ^ n

/-- A one-bit operand as a field value. -/
def bitNat (b : Bool) : Nat := if b then 1 else 0

/-- A duration operand, zero-extended to 64 bits (30_encoding.md R103). -/
def zextDuration (d : BitVec 32) : Micros := d.setWidth 64

/-- The width of each field (10_state.md R38). -/
def Field.width (P : Params) : Field → Nat
  | .txfifoCnt => P.cntW
  | .rxfifoCnt => P.cntW
  | .intRaw => P.intW
  | .intEna => P.intW
  | .rs485En => 1
  | .txdBrkEn => 1
  | .brkLen => P.brkLenW
  | .idleLen => P.idleLenW
  | .stopBits => P.stopW
  | .brkDetEn => 1
  | .autobaud => P.abW
  | .rxfifoThrhd => P.thrW

/-- The width of each field that software writes (10_state.md R38). -/
def WField.width (P : Params) : WField → Nat
  | .intEna => P.intW
  | .intClr => P.intW
  | .rs485En => 1
  | .txdBrkEn => 1
  | .brkLen => P.brkLenW
  | .idleLen => P.idleLenW
  | .stopBits => P.stopW
  | .brkDetEn => 1
  | .autobaud => P.abW
  | .rxfifoThrhd => P.thrW

/-- The physical port that a port operand names; an index `>= NPORTS` names none (30_encoding.md R106,
10_state.md R35). -/
def portId? (p : PortIndex) : Option PortId :=
  if h : p.toNat < nports then some ⟨p.toNat, h⟩ else none

/-- The transmit pin of a port: three rows and a fallback (10_state.md R50). -/
def txPin (P : Params) : Nat → Nat
  | 0 => P.txPin0
  | 1 => P.txPin1
  | 2 => P.txPin2
  | _ => P.txPinDefault

/-- `SIG_TX(p)` (00_scope.md R6). -/
def sigTx (p : Nat) : Sig := .uartTx p

/-- `WRAP_US = floor((2^CYC_W - 1) / CYCLES_PER_US)` (00_scope.md R6, 40_timer.md R132). -/
def wrapUs (P : Params) : Nat := (2 ^ P.cycW - 1) / P.cyclesPerUs

/-- A count of microseconds as the timer adds it: modulo `2^64` (00_scope.md R11). -/
def microsOf (n : Nat) : Micros := BitVec.ofNat 64 n

/-- The first phase of an operation (10_state.md R23). -/
def firstPhase : Instr → Phase
  | .nowMicros => .n0
  | .delayMicros _ => .d .d0
  | .waitTxfifoEmpty _ => .w .w0
  | .waitRxfifoEmpty _ => .w .w0
  | .waitTxDone _ => .w .w0
  | .waitTxBrkDone _ => .w .w0
  | .setRs485Mode _ => .g .g0
  | .cfgBreakGen _ _ _ _ => .g .g0
  | .forceTwoStopBits _ => .g .g0
  | .enableBrkDet _ => .g .g0
  | .disableBrkDet _ => .g .g0
  | .disableAllInts _ => .g .g0
  | .setIntMask _ _ => .g .g0
  | .clearAllInts _ => .g .g0
  | .sendBreak _ _ => .s0
  | .openPort _ => .o0
  | .setBaud _ _ => .u0
  | .endPort _ => .e0
  | .getDbgPort => .q0
  | .setDbgPort _ _ => .t0

/-- What `GET_DBG_PORT` delivers: bit 8 the valid flag, bits `[7:0]` the port index (44_facade.md R224). -/
def dbgResult : Option PortIndex → Micros
  | some p => 0x100 ||| p.setWidth 64
  | none => 0

/-- The designation that `SET_DBG_PORT p, valid` writes (44_facade.md R225). -/
def dbgOperand (p : PortIndex) (valid : Bool) : Option PortIndex := if valid then some p else none

end Sys2Proof.Machine
end

