-- ==== Sys2Proof/Machine/Flags.lean ====
section
/-! DEFINITION. Flag computations over a port's masks (spec 10_state.md R40 to R42, 60_exceptions.md
R252), the break-detect enable and its alias (10_state.md R46), and the reading and writing of register
fields (20_memory.md R73, R74). -/

namespace Sys2Proof.Machine

/-- `~_N v` within `n` bits (00_scope.md R10). -/
def complement (n v : Nat) : Nat := 2 ^ n - 1 - trunc n v

/-- The mask with only bit `b` set (00_scope.md R10). -/
def bitMask (b : Nat) : Nat := 1 <<< b

/-- The mask of every bit of an `n`-bit value. -/
def allOnes (n : Nat) : Nat := 2 ^ n - 1

/-- Write 1 to clear: `INT_RAW & ~_{INT_W} v` (10_state.md R42). -/
def clearFlags (n raw v : Nat) : Nat := raw &&& complement n v

/-- The hardware sets flags and clears none (10_state.md R40, R52). -/
def setFlags (n raw m : Nat) : Nat := raw ||| trunc n m

/-- A bit of a mask. -/
def flagSet (raw b : Nat) : Bool := raw.testBit b

/-- Replace one bit of an `n`-bit mask. -/
def replaceBit (n mask b : Nat) (on : Bool) : Nat :=
  if on then mask ||| bitMask b else clearFlags n mask (bitMask b)

/-- `INT_RAW[p] & INT_ENA[p]`: the sources pending for delivery (60_exceptions.md R252). -/
def Regs.pending (r : Regs) : Nat := r.intRaw &&& r.intEna

/-- Port `p` requests an interrupt (60_exceptions.md R252). -/
def Regs.requests (r : Regs) : Bool := r.pending != 0

/-- `brkdet(p)` (10_state.md R46). -/
def Regs.brkdet (P : Params) (r : Regs) : Bool :=
  match P.brkdetAlias with
  | .inMask => flagSet r.intEna P.brkDetBit
  | .separate => r.brkDetEn != 0

/-- `brkdet(p) <- b` (10_state.md R46). -/
def Regs.setBrkdet (P : Params) (r : Regs) (b : Bool) : Regs :=
  match P.brkdetAlias with
  | .inMask => { r with intEna := replaceBit P.intW r.intEna P.brkDetBit b }
  | .separate => { r with brkDetEn := bitNat b }

/-- The value of a field (20_memory.md R73). -/
def Regs.read (P : Params) (r : Regs) : Field → Nat
  | .txfifoCnt => r.txfifoCnt
  | .rxfifoCnt => r.rxfifoCnt
  | .intRaw => r.intRaw
  | .intEna => r.intEna
  | .rs485En => r.rs485En
  | .txdBrkEn => r.txdBrkEn
  | .brkLen => r.brkLen
  | .idleLen => r.idleLen
  | .stopBits => r.stopBits
  | .brkDetEn => bitNat (r.brkdet P)
  | .autobaud => r.autobaud
  | .rxfifoThrhd => r.rxfifoThrhd

/-- The value a field write stores and records: the operand truncated to the field's width (20_memory.md
R74, 42_guarded_regops.md R173). -/
def storedValue (P : Params) (f : WField) (v : Nat) : Nat := trunc (f.width P) v

/-- The effect of a field write on the register block: one field takes the truncated value, and a write of
`INT_CLR` clears flags (20_memory.md R74, 10_state.md R42, R46). -/
def Regs.write (P : Params) (r : Regs) (f : WField) (v : Nat) : Regs :=
  match f with
  | .intEna => { r with intEna := storedValue P .intEna v }
  | .intClr => { r with intRaw := clearFlags P.intW r.intRaw (storedValue P .intClr v) }
  | .rs485En => { r with rs485En := storedValue P .rs485En v }
  | .txdBrkEn => { r with txdBrkEn := storedValue P .txdBrkEn v }
  | .brkLen => { r with brkLen := storedValue P .brkLen v }
  | .idleLen => { r with idleLen := storedValue P .idleLen v }
  | .stopBits => { r with stopBits := storedValue P .stopBits v }
  | .brkDetEn => r.setBrkdet P (storedValue P .brkDetEn v != 0)
  | .autobaud => { r with autobaud := storedValue P .autobaud v }
  | .rxfifoThrhd => { r with rxfifoThrhd := storedValue P .rxfifoThrhd v }

/-- Any register values, each brought into its field's width. Under `in_mask` the break-detect enable is
no storage element of its own (10_state.md R46) and the model keeps 0 in its place; log entry 12. -/
def Regs.fit (P : Params) (r : Regs) : Regs where
  txfifoCnt := trunc P.cntW r.txfifoCnt
  rxfifoCnt := trunc P.cntW r.rxfifoCnt
  intRaw := trunc P.intW r.intRaw
  intEna := trunc P.intW r.intEna
  rs485En := trunc 1 r.rs485En
  txdBrkEn := trunc 1 r.txdBrkEn
  brkLen := trunc P.brkLenW r.brkLen
  idleLen := trunc P.idleLenW r.idleLen
  stopBits := trunc P.stopW r.stopBits
  brkDetEn := match P.brkdetAlias with
    | .inMask => 0
    | .separate => trunc 1 r.brkDetEn
  autobaud := trunc P.abW r.autobaud
  rxfifoThrhd := trunc P.thrW r.rxfifoThrhd

/-- The cause code of a fault (60_exceptions.md R241). -/
def FaultCause.code : FaultCause → Nat
  | .illegalCommand _ => 1
  | .nullPort _ => 2
  | .stalePort _ => 3
  | .badPort _ => 4
  | .portAlreadyOpen _ => 5

/-- The information a fault records (60_exceptions.md R241). -/
def FaultCause.info : FaultCause → Nat
  | .illegalCommand w => w.toNat
  | .nullPort p => p.toNat
  | .stalePort p => p.toNat
  | .badPort p => p.toNat
  | .portAlreadyOpen p => p.toNat

end Sys2Proof.Machine
end

