-- ==== Sys2Proof/Machine/Pins.lean ====
section
/-! DEFINITION. The pin space (spec 20_memory.md R70): `PIN_MUX`, `PIN_DIR`, `PIN_LEVEL`, `PIN_CFG` of
every pin identifier (10_state.md R47 to R49), held as a sparse list in one canonical form: identifiers
strictly rising, and no entry equal to what an unlisted pin reads as. -/

namespace Sys2Proof.Machine

/-- What a pin that no entry lists reads as. DESIGN CHOICE, unsafe: the spec leaves every pin's reset
state unspecified (R60); log entry 9. -/
def Pin.unlisted : Pin := ⟨.detached, .input, false, 0⟩

/-- The state of a pin. -/
def Pins.get : List (Nat × Pin) → Nat → Pin
  | [], _ => Pin.unlisted
  | (k, x) :: ps, n => if k = n then x else Pins.get ps n

/-- Put an entry in front, unless it says what an unlisted pin reads as. -/
def Pins.cons (n : Nat) (x : Pin) (ps : List (Nat × Pin)) : List (Nat × Pin) :=
  if x = Pin.unlisted then ps else (n, x) :: ps

/-- Change the state of one pin, keeping the canonical form. -/
def Pins.set : List (Nat × Pin) → Nat → Pin → List (Nat × Pin)
  | [], n, x => Pins.cons n x []
  | (k, y) :: ps, n, x =>
    if n < k then Pins.cons n x ((k, y) :: ps)
    else if n = k then Pins.cons n x ps
    else (k, y) :: Pins.set ps n x

/-- Every identifier of the list is above `n`. -/
def Pins.above (n : Nat) (ps : List (Nat × Pin)) : Bool := ps.all fun e => decide (n < e.1)

/-- The canonical form. -/
def Pins.wf : List (Nat × Pin) → Bool
  | [] => true
  | (k, x) :: ps => decide (x ≠ Pin.unlisted) && Pins.above k ps && Pins.wf ps

end Sys2Proof.Machine
end

