-- ==== Sys2Proof/Machine/Ops.lean ====
section
/-! DEFINITION. The named operations over the state: contexts, faults and refusals, the timer step, port
handles and locks, register fields, pins, the watchdog and yield, opening a port, interrupt entry and
exit (this block's only form of taking an exception and returning from one), the hardware's steps, and
the presentation of a command. -/

namespace Sys2Proof.Machine

/-! ## Contexts (spec 10_state.md R21 to R24, 60_exceptions.md R255) -/

/-- The state of one context. -/
def Ctxs.get (x : Ctxs) : Ctx → CtxState
  | .main => x.main
  | .isr n => (x.isrs[n]?).getD .fresh

/-- Change the state of one context. -/
def Ctxs.set (x : Ctxs) (c : Ctx) (y : CtxState) : Ctxs :=
  match c with
  | .main => { x with main := y }
  | .isr n => { x with isrs := x.isrs.set n y }

/-- The running context: the top of `CTXSTACK` (R22). -/
def State.running (s : State) : Ctx :=
  match s.stack with
  | [] => .main
  | n :: _ => .isr n

/-- `CTXSTACK`, `MAIN` first, the running context last (R22). -/
def State.ctxStack (s : State) : List Ctx := .main :: s.stack.reverse.map .isr

/-- `OPSTATE[c]`. -/
def State.opOf (s : State) (c : Ctx) : OpState := (s.ctxs.get c).op

/-- `RESULT[c]`, if anything has written it. -/
def State.resultOf (s : State) (c : Ctx) : Option Micros := (s.ctxs.get c).result

/-- `OPSTATE` of the running context. -/
def State.op (s : State) : OpState := s.opOf s.running

/-- `OPSTATE[c] <- o` for the running context `c`. -/
def State.setOp (s : State) (o : OpState) : State :=
  { s with ctxs := s.ctxs.set s.running { s.ctxs.get s.running with op := o } }

/-- `RESULT[c] <- v` for the running context `c`. -/
def State.setResult (s : State) (v : Micros) : State :=
  { s with ctxs := s.ctxs.set s.running { s.ctxs.get s.running with result := some v } }

/-- `phase <- k` (00_scope.md R12). -/
def State.goto (s : State) (i : Instr) (ph : Phase) : State := s.setOp (.run i ph)

/-- `return` (00_scope.md R12). -/
def State.finish (s : State) : State := s.setOp .idle

/-- "records event" (00_scope.md R14). -/
def State.record (s : State) (e : Event) : State := { s with trace := s.trace ++ [e] }

/-! ## Faults and refusals (60_exceptions.md R242) -/

/-- `raise F(info)` in the running context: `FAULTS` grows by one entry and nothing else changes. -/
def State.raise (s : State) (cause : FaultCause) : State :=
  { s with faults := s.faults ++ [⟨s.running, cause⟩] }

/-- Mark the run refused with a reason. -/
def State.markRefused (s : State) (reason : RefusalReason) : State :=
  { s with refused := true, refusals := s.refusals ++ [⟨s.running, reason⟩] }

/-- `refuse(reason)`: the run is marked refused with its reason, and the operation ends. -/
def State.refuse (s : State) (reason : RefusalReason) : State := (s.markRefused reason).finish

/-! ## The timer (40_timer.md R130) -/

/-- `ReadCycle()`: `CCOUNT = TIME_CYC mod 2^CYC_W` (10_state.md R30). -/
def State.ccount (s : State) : Nat := trunc s.params.cycW s.timeCyc

/-- Enter the timer's critical section (10_state.md R33). -/
def State.enterCritical (s : State) : State := { s with tCrit := .held s.running }

/-- Leave the timer's critical section. -/
def State.leaveCritical (s : State) : State := { s with tCrit := .free }

/-- Count a wraparound if the raw value is below the previous one, and store it. -/
def State.observe (s : State) (raw : Nat) : State :=
  { s with
    tAcc := if raw < s.tLast then s.tAcc + microsOf (wrapUs s.params) else s.tAcc
    tLast := raw }

/-- The microsecond value of a raw count over the accumulator. -/
def State.microsAt (s : State) (raw : Nat) : Micros := s.tAcc + microsOf (raw / s.params.cyclesPerUs)

/-- The value the next timer step yields. -/
def State.nowValue (s : State) : Micros := (s.observe s.ccount).microsAt s.ccount

/-- The timer step `now()`: one atomic micro-step of the running context (R130). -/
def State.now (s : State) : Micros × State :=
  let s1 := s.enterCritical
  let raw := s1.ccount
  let s2 := s1.observe raw
  let v := s2.microsAt raw
  (v, s2.leaveCritical.record (.now s.running raw v))

/-! ## Ports: handles, locks, register fields -/

/-- The state of a physical port. -/
def State.port (s : State) (q : PortId) : Port := s.ports[q]

/-- Change a physical port. -/
def State.setPort (s : State) (q : PortId) (x : Port) : State := { s with ports := s.ports.set q x }

/-- `HANDLE[p]` for every port index, `null` for `p >= NPORTS` (10_state.md R35). -/
def State.handle (s : State) (p : PortIndex) : Handle :=
  match portId? p with
  | none => .null
  | some q => (s.port q).handle

/-- The physical port behind a port operand whose handle is valid (60_exceptions.md R243). -/
def State.livePort? (s : State) (p : PortIndex) : Option PortId :=
  match portId? p with
  | none => none
  | some q => if (s.port q).handle = .valid then some q else none

/-- An access to the register block of port `p`, which exists for `p < NPORTS` only (10_state.md R38). -/
def withPort (p : PortIndex) (k : PortId → Result) : Result :=
  match portId? p with
  | none => .fault (.noRegisterBlock p)
  | some q => k q

/-- `LockTry(p)`: one attempt to acquire the port's lock, failing if anyone holds it (20_memory.md R80). -/
def State.lockTry (s : State) (q : PortId) : Option State :=
  if (s.port q).lock = .free then
    some ((s.setPort q { s.port q with lock := .held s.running }).record (.acq q s.running))
  else none

/-- `Unlock(p)` (20_memory.md R81). -/
def State.unlock (s : State) (q : PortId) : State :=
  (s.setPort q { s.port q with lock := .free }).record (.rel q s.running)

/-- `RegRead(p, F)` (20_memory.md R73). -/
def State.regRead (s : State) (q : PortId) (f : Field) : Nat := (s.port q).regs.read s.params f

/-- `RegWrite(p, F, v)` (20_memory.md R74). -/
def State.regWrite (s : State) (q : PortId) (f : WField) (v : Nat) : State :=
  (s.setPort q { s.port q with regs := (s.port q).regs.write s.params f v }).record
    (.regW q f (storedValue s.params f v))

/-! ## Pins (00_scope.md R13, 10_state.md R47, R48) -/

/-- The state of a pin. -/
def State.pin (s : State) (n : Nat) : Pin := Pins.get s.pins n

/-- Change a pin. -/
def State.setPin (s : State) (n : Nat) (x : Pin) : State := { s with pins := Pins.set s.pins n x }

/-- `PinDetach(pin)`. -/
def State.pinDetach (s : State) (n : Nat) : State :=
  (s.setPin n { s.pin n with mux := .detached }).record (.mux n .detached)

/-- `PinAttach(pin, sig)`. -/
def State.pinAttach (s : State) (n : Nat) (sig : Sig) : State :=
  (s.setPin n { s.pin n with mux := .attached sig }).record (.mux n (.attached sig))

/-- `PinOutput(pin)`. -/
def State.pinOutput (s : State) (n : Nat) : State := s.setPin n { s.pin n with dir := .output }

/-- `PinWrite(pin, b)`. -/
def State.pinWrite (s : State) (n : Nat) (b : Bool) : State :=
  (s.setPin n { s.pin n with level := b }).record (.line n b)

/-- `TXLINE(p)`, the observable transmit line; `none` is undriven (10_state.md R51). -/
def State.txLine (s : State) (q : PortId) : Option Bool :=
  let x := s.pin (txPin s.params q)
  match x.mux with
  | .attached sig => if sig = sigTx q then some (s.port q).uTx else none
  | .detached => if x.dir = .output then some x.level else none

/-! ## Watchdog and yield (60_exceptions.md R262, R263) -/

/-- `WdtFeed()`. -/
def State.wdtFeed (s : State) : State :=
  { s with wdtFeeds := s.wdtFeeds + 1, trace := s.trace ++ [.feed s.running] }

/-- `Yield()`. -/
def State.yield (s : State) : State := s.record (.yield s.running)

/-! ## Opening and ending a port (44_facade.md R221, R223) -/

/-- The port that `OPEN` leaves: free values in every register field and in `U_TX[p]`, lock free, a fresh
event-queue token, handle valid. -/
def State.openedPort (s : State) : Port where
  handle := .valid
  lock := .free
  evq := some s.nextQueue
  regs := (Config.openRegs s.draws).fit s.params
  uTx := Config.openTx s.draws

/-- The effect of `OPEN p` on a closed port: its registers, `U_TX[p]` and the state of `TXPIN(p)` take
free values; log entry 11. -/
def State.openPort (s : State) (q : PortId) : State :=
  { (s.setPort q s.openedPort).setPin (txPin s.params q) (Config.openPin s.draws) with
    draws := s.draws + 1
    nextQueue := s.nextQueue + 1 }

/-- Step `e2` of `END`: clear the debug-port designation if it points at this port. -/
def State.clearDbgPort (s : State) (p : PortIndex) : State :=
  { s with dbgPort := if s.dbgPort = some p then none else s.dbgPort }

/-- Step `e3` of `END`: release the port's event queue and lock. -/
def State.releasePort (s : State) (q : PortId) : State :=
  s.setPort q { s.port q with evq := none, lock := .free }

/-- Step `e4` of `END`: null the handle. -/
def State.nullHandle (s : State) (q : PortId) : State := s.setPort q { s.port q with handle := .null }

/-! ## Interrupt entry and exit (60_exceptions.md R257, R259) -/

/-- A cause is available: a port requests an interrupt, or the cause is external (R253). -/
def State.causeAvailable (s : State) : Cause → Bool
  | .uart q => (s.port q).regs.requests
  | .external => true

/-- One more context would exceed the depth bound (R257). -/
def State.tooDeep (s : State) : Bool :=
  match s.params.depthBound with
  | none => false
  | some b => decide (b < s.stack.length + 2)

/-- Interrupt entry: push a fresh idle context and record it; nothing else is saved or changed (R256). -/
def State.pushIsr (s : State) (k : Cause) : State :=
  { s with
    stack := s.ctxs.isrs.length :: s.stack
    ctxs := { s.ctxs with isrs := s.ctxs.isrs ++ [.fresh] }
    trace := s.trace ++ [.intEnter (.isr s.ctxs.isrs.length) k] }

/-- The interrupt-entry step (R257). A model that bounds the depth refuses entry beyond the bound: R242's
`refuse`, which ends the operation of the running context too; that R242's `c` is the running context here is
DEDUCED; log entry 16. -/
def State.enterInterrupt (s : State) (k : Cause) : Result :=
  if s.causeAvailable k then
    if s.tooDeep then .next (s.refuse .nestingTooDeep) else .next (s.pushIsr k)
  else .refused .moveUnavailable

/-- The interrupt-exit step: pop the running interrupt context when it is idle (R259). -/
def State.exitInterrupt (s : State) : Result :=
  match s.stack with
  | [] => .refused .moveUnavailable
  | n :: rest =>
    if s.op = .idle then .next { s with stack := rest, trace := s.trace ++ [.intExit (.isr n)] }
    else .refused .moveUnavailable

/-! ## The hardware's steps (10_state.md R52, R53) -/

/-- A step of the UART hardware of port `q`. -/
def State.uartStep (s : State) (q : PortId) (tx rx set : Nat) (line : Bool) : State :=
  let r := (s.port q).regs
  s.setPort q
    { s.port q with
      regs :=
        { r with
          txfifoCnt := trunc s.params.cntW tx
          rxfifoCnt := trunc s.params.cntW rx
          intRaw := setFlags s.params.intW r.intRaw set }
      uTx := line }

/-- The cycle counter advances. -/
def State.advance (s : State) (k : Nat) : State := { s with timeCyc := s.timeCyc + k }

/-! ## Presenting a command and running a micro-step (10_state.md R23, 30_encoding.md R105) -/

/-- The host presents a command word to the running context. -/
def State.present (s : State) (w : Command) : Result :=
  if s.op = .idle then
    match decode w with
    | none => .next (s.raise (.illegalCommand w))
    | some i => .next (s.goto i (firstPhase i))
  else .refused .contextBusy

/-- One micro-step of operation `i` in the running context, at the phase `OPSTATE` holds. An idle context
presents `i` first; a context that runs another operation takes no second one (R23). -/
def operate (i : Instr) (s : State) (micro : Phase → State → Result) : Result :=
  match s.op with
  | .idle => micro (firstPhase i) (s.goto i (firstPhase i))
  | .run j ph => if j = i then micro ph s else .refused .contextBusy

end Sys2Proof.Machine
end

