-- ==== Sys2Proof/Machine/Guarded.lean ====
section
/-! DEFINITION. GuardedRegisterOps: the eight lock-guarded register operations (spec
42_guarded_regops.md). -/

namespace Sys2Proof.Machine

/-- The body of a guarded operation: register writes, one for each micro-step, in order (R170). -/
abbrev Body := List (WField × Nat)

/-- The phase of the body's write number `k`, counted from 0. -/
def GPhase.body : Nat → GPhase
  | 0 => .b1
  | 1 => .b2
  | _ => .b3

/-- The phase after the body's write number `k`. -/
def GPhase.afterBody (body : Body) (k : Nat) : GPhase :=
  if k + 1 < body.length then GPhase.body (k + 1) else .gR

/-- The body's write number `k`: one register write (R170). -/
def bodyStep (p : PortIndex) (body : Body) (k : Nat) (goto : GPhase → State → State) (s : State) : Result :=
  match body[k]? with
  | none => .fault .phaseOutsideTable
  | some fv => withPort p fun q => .next (goto (GPhase.afterBody body k) (s.regWrite q fv.1 fv.2))

/-- One micro-step of a guarded operation with a given body, alone or as a sub-operation: `goto` sets the
phase, `done` returns (R170). -/
def guardedStep (p : PortIndex) (body : Body) (ph : GPhase) (goto : GPhase → State → State)
    (done : State → State) (s : State) : Result :=
  match ph with
  | .g0 =>
    match s.livePort? p with
    | none => .next (s.raise (.nullPort p))
    | some _ => .next (goto .g1 s)
  | .g1 =>
    match s.livePort? p with
    | none => .next (s.raise (.stalePort p))
    | some q =>
      match s.lockTry q with
      | none => .next s
      | some s' => .next (goto .b1 s')
  | .b1 => bodyStep p body 0 goto s
  | .b2 => bodyStep p body 1 goto s
  | .b3 => bodyStep p body 2 goto s
  | .gR => withPort p fun q => .next (done (s.unlock q))

/-- One micro-step of a guarded operation presented by a context, at a phase of its table. -/
def guardedOperation (i : Instr) (p : PortIndex) (body : Body) (ph : Phase) (s : State) : Result :=
  match ph with
  | .g x => guardedStep p body x (fun x s => s.goto i (.g x)) State.finish s
  | _ => .fault .phaseOutsideTable

/-- The body of `SET_RS485_MODE` (R174). -/
def setRs485ModeBody : Body := [(.rs485En, 1)]

/-- The body of `CFG_BREAK_GEN` (R175). -/
def cfgBreakGenBody (en : Bool) (blen ilen : BitVec 16) : Body :=
  [(.txdBrkEn, bitNat en), (.brkLen, blen.toNat), (.idleLen, ilen.toNat)]

/-- The body of `FORCE_TWO_STOP_BITS` (R176). -/
def forceTwoStopBitsBody (P : Params) : Body := [(.stopBits, P.twoStopCode)]

/-- The body of `ENABLE_BRK_DET` (R177). -/
def enableBrkDetBody (P : Params) : Body := [(.brkDetEn, 1), (.autobaud, P.autobaudRst), (.rxfifoThrhd, 1)]

/-- The body of `DISABLE_BRK_DET` (R178). -/
def disableBrkDetBody : Body := [(.brkDetEn, 0)]

/-- The body of `DISABLE_ALL_INTS` (R179). -/
def disableAllIntsBody (P : Params) : Body := [(.intEna, 0), (.intClr, allOnes P.intW)]

/-- The body of `SET_INT_MASK` (R180). -/
def setIntMaskBody (v : Nat) : Body := [(.intEna, v)]

/-- The body of `CLEAR_ALL_INTS` (R181). -/
def clearAllIntsBody (P : Params) : Body := [(.intClr, P.clrAllMask)]

/-- `SET_RS485_MODE p` (R174). -/
def execSetRs485Mode (p : PortIndex) (s : State) : Result :=
  operate (.setRs485Mode p) s (guardedOperation (.setRs485Mode p) p setRs485ModeBody)

/-- `CFG_BREAK_GEN p, en, blen, ilen` (R175). -/
def execCfgBreakGen (p : PortIndex) (en : Bool) (blen ilen : BitVec 16) (s : State) : Result :=
  operate (.cfgBreakGen p en blen ilen) s
    (guardedOperation (.cfgBreakGen p en blen ilen) p (cfgBreakGenBody en blen ilen))

/-- `FORCE_TWO_STOP_BITS p` (R176). -/
def execForceTwoStopBits (p : PortIndex) (s : State) : Result :=
  operate (.forceTwoStopBits p) s
    (guardedOperation (.forceTwoStopBits p) p (forceTwoStopBitsBody s.params))

/-- `ENABLE_BRK_DET p` (R177). -/
def execEnableBrkDet (p : PortIndex) (s : State) : Result :=
  operate (.enableBrkDet p) s (guardedOperation (.enableBrkDet p) p (enableBrkDetBody s.params))

/-- `DISABLE_BRK_DET p` (R178). -/
def execDisableBrkDet (p : PortIndex) (s : State) : Result :=
  operate (.disableBrkDet p) s (guardedOperation (.disableBrkDet p) p disableBrkDetBody)

/-- `DISABLE_ALL_INTS p` (R179). -/
def execDisableAllInts (p : PortIndex) (s : State) : Result :=
  operate (.disableAllInts p) s (guardedOperation (.disableAllInts p) p (disableAllIntsBody s.params))

/-- `SET_INT_MASK p, v` (R180). -/
def execSetIntMask (p : PortIndex) (v : BitVec 32) (s : State) : Result :=
  operate (.setIntMask p v) s (guardedOperation (.setIntMask p v) p (setIntMaskBody v.toNat))

/-- `CLEAR_ALL_INTS p` (R181). -/
def execClearAllInts (p : PortIndex) (s : State) : Result :=
  operate (.clearAllInts p) s (guardedOperation (.clearAllInts p) p (clearAllIntsBody s.params))

end Sys2Proof.Machine
end

