-- ==== Sys2Proof/Machine/Timer.lean ====
section
/-! DEFINITION. MonotonicMicroTimer and BusyWaitDelay: `NOW_MICROS` and `DELAY_MICROS` (spec
40_timer.md). -/

namespace Sys2Proof.Machine

/-- The first poll phase of a delay: the wrapped case waits for the clock to wrap too (R135 `d0`). -/
def delayEntry (start target : Micros) : DPhase :=
  if target < start then .d1 start target else .d2 start target

/-- One micro-step of a delay of `d` microseconds, alone or inside `SEND_BREAK`: `goto` sets the phase,
`done` returns (R135). Each contains exactly one timer step. -/
def delayStep (d : Micros) (ph : DPhase) (goto : DPhase → State → State) (done : State → State)
    (s : State) : Result :=
  let v := s.now.1
  let s' := s.now.2
  match ph with
  | .d0 => .next (goto (delayEntry v (v + d)) s')
  | .d1 start target => .next (goto (if v > target then .d1 start target else .d2 start target) s')
  | .d2 start target => .next (if v ≥ target then done s' else goto (.d2 start target) s')

/-- One micro-step of `NOW_MICROS` (R131). -/
def nowStep (ph : Phase) (s : State) : Result :=
  match ph with
  | .n0 => .next (s.now.2.setResult s.now.1).finish
  | _ => .fault .phaseOutsideTable

/-- One micro-step of `DELAY_MICROS`, presented by a context (R135). -/
def delayOperation (i : Instr) (d : Micros) (ph : Phase) (s : State) : Result :=
  match ph with
  | .d x => delayStep d x (fun x s => s.goto i (.d x)) State.finish s
  | _ => .fault .phaseOutsideTable

/-- `NOW_MICROS` (R131). -/
def execNowMicros (s : State) : Result := operate .nowMicros s nowStep

/-- `DELAY_MICROS d` (R135). -/
def execDelayMicros (d : BitVec 32) (s : State) : Result :=
  operate (.delayMicros d) s (delayOperation (.delayMicros d) (zextDuration d))

end Sys2Proof.Machine
end

