-- ==== Sys2Proof/Machine/Break.lean ====
section
/-! DEFINITION. BreakSignalGenerator: `SEND_BREAK` (spec 43_break.md). -/

namespace Sys2Proof.Machine

/-- Step `s0`: the context check, then the handle check (R201, R203, 60_exceptions.md R244). -/
def breakEntry (i : Instr) (p : PortIndex) (s : State) : Result :=
  if s.running = .main then
    match s.livePort? p with
    | none => .next (s.raise (.nullPort p))
    | some _ => .next (s.goto i (.s1 (txPin s.params p.toNat)))
  else .next (s.refuse .breakOutsideMain)

/-- One micro-step of `SEND_BREAK p, d` (R201). -/
def breakStep (i : Instr) (p : PortIndex) (d : Micros) (ph : Phase) (s : State) : Result :=
  match ph with
  | .s0 => breakEntry i p s
  | .s1 pin => withPort p fun q => .next (s.goto i (.s2 ⟨pin, s.regRead q .intEna⟩ .g0))
  | .s2 l x =>
    guardedStep p (disableAllIntsBody s.params) x (fun x s => s.goto i (.s2 l x)) (fun s => s.goto i (.s3 l)) s
  | .s3 l => .next ((s.pinDetach l.pin).goto i (.s4 l))
  | .s4 l => .next ((s.pinOutput l.pin).goto i (.s5 l))
  | .s5 l => .next ((s.pinWrite l.pin false).goto i (.s6 l .d0))
  | .s6 l x => delayStep d x (fun x s => s.goto i (.s6 l x)) (fun s => s.goto i (.s7 l)) s
  | .s7 l => .next ((s.pinWrite l.pin true).goto i (.s8 l))
  | .s8 l => .next ((s.pinAttach l.pin (sigTx p.toNat)).goto i (.s9 l .g0))
  | .s9 l x => guardedStep p (setIntMaskBody l.snap) x (fun x s => s.goto i (.s9 l x)) State.finish s
  | _ => .fault .phaseOutsideTable

/-- `SEND_BREAK p, d` (R201). -/
def execSendBreak (p : PortIndex) (d : BitVec 32) (s : State) : Result :=
  operate (.sendBreak p d) s (breakStep (.sendBreak p d) p (zextDuration d))

end Sys2Proof.Machine
end

