-- ==== Sys2Proof/Machine/Facade.lean ====
section
/-! DEFINITION. SerialPortFacade: `OPEN`, `SET_BAUD`, `END`, `GET_DBG_PORT`, `SET_DBG_PORT` (spec
44_facade.md). -/

namespace Sys2Proof.Machine

/-- One micro-step of `OPEN p` (R221). -/
def openStep (p : PortIndex) (ph : Phase) (s : State) : Result :=
  match ph with
  | .o0 =>
    match portId? p with
    | none => .next (s.raise (.badPort p))
    | some q =>
      if (s.port q).handle = .valid then .next (s.raise (.portAlreadyOpen p))
      else .next (s.openPort q).finish
  | _ => .fault .phaseOutsideTable

/-- One micro-step of `SET_BAUD` (R222): the run is marked refused. -/
def setBaudStep (ph : Phase) (s : State) : Result :=
  match ph with
  | .u0 => .next (s.refuse .baudNotInBlock)
  | _ => .fault .phaseOutsideTable

/-- One micro-step of `END p` (R223). -/
def endStep (i : Instr) (p : PortIndex) (ph : Phase) (s : State) : Result :=
  match ph with
  | .e0 =>
    match s.livePort? p with
    | none => .next (s.raise (.nullPort p))
    | some _ => .next (s.goto i (.e1 .g0))
  | .e1 x =>
    guardedStep p (disableAllIntsBody s.params) x (fun x s => s.goto i (.e1 x)) (fun s => s.goto i .e2) s
  | .e2 => .next ((s.clearDbgPort p).goto i .e3)
  | .e3 => withPort p fun q => .next ((s.releasePort q).goto i .e4)
  | .e4 => withPort p fun q => .next (s.nullHandle q).finish
  | _ => .fault .phaseOutsideTable

/-- One micro-step of `GET_DBG_PORT` (R224). -/
def getDbgPortStep (ph : Phase) (s : State) : Result :=
  match ph with
  | .q0 => .next (s.setResult (dbgResult s.dbgPort)).finish
  | _ => .fault .phaseOutsideTable

/-- One micro-step of `SET_DBG_PORT p, valid` (R225). -/
def setDbgPortStep (p : PortIndex) (valid : Bool) (ph : Phase) (s : State) : Result :=
  match ph with
  | .t0 => .next (State.finish { s with dbgPort := dbgOperand p valid })
  | _ => .fault .phaseOutsideTable

/-- `OPEN p` (R221). -/
def execOpenPort (p : PortIndex) (s : State) : Result := operate (.openPort p) s (openStep p)

/-- `SET_BAUD p, v` (R222). -/
def execSetBaud (p : PortIndex) (v : BitVec 32) (s : State) : Result := operate (.setBaud p v) s setBaudStep

/-- `END p` (R223). -/
def execEndPort (p : PortIndex) (s : State) : Result := operate (.endPort p) s (endStep (.endPort p) p)

/-- `GET_DBG_PORT` (R224). -/
def execGetDbgPort (s : State) : Result := operate .getDbgPort s getDbgPortStep

/-- `SET_DBG_PORT p, valid` (R225). -/
def execSetDbgPort (p : PortIndex) (valid : Bool) (s : State) : Result :=
  operate (.setDbgPort p valid) s (setDbgPortStep p valid)

end Sys2Proof.Machine
end

