-- ==== Sys2Proof/Machine/SpinWait.lean ====
section
/-! DEFINITION. WatchdogSafeSpinWait: the four waits (spec 41_spinwait.md). -/

namespace Sys2Proof.Machine

/-- The parameters of a wait (R150): the field it polls, the predicate that ends it, and the latch bit it
acknowledges, if any. -/
structure WaitForm where
  field : Field
  sat : Nat → Bool
  latch : Option Nat

/-- A wait for a FIFO count to reach zero (R153, R154). -/
def fifoEmptyForm (f : Field) : WaitForm := ⟨f, fun x => x == 0, none⟩

/-- A wait for a latch, which it clears (R155, R156). -/
def latchForm (b : Nat) : WaitForm := ⟨.intRaw, fun x => flagSet x b, some b⟩

/-- One micro-step of a wait (R150). -/
def waitStep (i : Instr) (p : PortIndex) (form : WaitForm) (ph : WPhase) (s : State) : Result :=
  match ph with
  | .w0 =>
    match s.livePort? p with
    | none => .next s.finish
    | some _ => .next (s.goto i (.w .w1))
  | .w1 =>
    match s.livePort? p with
    | none => .next (s.raise (.stalePort p))
    | some q =>
      if form.sat (s.regRead q form.field) then
        match form.latch with
        | some _ => .next (s.goto i (.w .w4))
        | none => .next s.finish
      else .next (s.goto i (.w .w2))
  | .w2 => .next (s.wdtFeed.goto i (.w .w3))
  | .w3 => .next (s.yield.goto i (.w .w1))
  | .w4 =>
    match form.latch with
    | some b => withPort p fun q => .next (s.regWrite q .intClr (bitMask b)).finish
    | none => .fault .phaseOutsideTable

/-- One micro-step of a wait, at a phase of its table. -/
def waitOperation (i : Instr) (p : PortIndex) (form : WaitForm) (ph : Phase) (s : State) : Result :=
  match ph with
  | .w x => waitStep i p form x s
  | _ => .fault .phaseOutsideTable

/-- `WAIT_TXFIFO_EMPTY p` (R153). -/
def execWaitTxfifoEmpty (p : PortIndex) (s : State) : Result :=
  operate (.waitTxfifoEmpty p) s (waitOperation (.waitTxfifoEmpty p) p (fifoEmptyForm .txfifoCnt))

/-- `WAIT_RXFIFO_EMPTY p` (R154). -/
def execWaitRxfifoEmpty (p : PortIndex) (s : State) : Result :=
  operate (.waitRxfifoEmpty p) s (waitOperation (.waitRxfifoEmpty p) p (fifoEmptyForm .rxfifoCnt))

/-- `WAIT_TX_DONE p` (R155). -/
def execWaitTxDone (p : PortIndex) (s : State) : Result :=
  operate (.waitTxDone p) s (waitOperation (.waitTxDone p) p (latchForm s.params.txDoneBit))

/-- `WAIT_TX_BRK_DONE p` (R156). -/
def execWaitTxBrkDone (p : PortIndex) (s : State) : Result :=
  operate (.waitTxBrkDone p) s (waitOperation (.waitTxBrkDone p) p (latchForm s.params.txBrkIdleDoneBit))

end Sys2Proof.Machine
end

