-- ==== Sys2Proof/Machine/Dispatch.lean ====
section
/-! DEFINITION. One arm for each operation: the running context takes one micro-step of it. -/

namespace Sys2Proof.Machine

def exec (i : Instr) (s : State) : Host.Outcome State Fault Refusal :=
  match i with
  | .nowMicros => Sys2Proof.Machine.execNowMicros s
  | .delayMicros d => Sys2Proof.Machine.execDelayMicros d s
  | .waitTxfifoEmpty p => Sys2Proof.Machine.execWaitTxfifoEmpty p s
  | .waitRxfifoEmpty p => Sys2Proof.Machine.execWaitRxfifoEmpty p s
  | .waitTxDone p => Sys2Proof.Machine.execWaitTxDone p s
  | .waitTxBrkDone p => Sys2Proof.Machine.execWaitTxBrkDone p s
  | .setRs485Mode p => Sys2Proof.Machine.execSetRs485Mode p s
  | .cfgBreakGen p en blen ilen => Sys2Proof.Machine.execCfgBreakGen p en blen ilen s
  | .forceTwoStopBits p => Sys2Proof.Machine.execForceTwoStopBits p s
  | .enableBrkDet p => Sys2Proof.Machine.execEnableBrkDet p s
  | .disableBrkDet p => Sys2Proof.Machine.execDisableBrkDet p s
  | .disableAllInts p => Sys2Proof.Machine.execDisableAllInts p s
  | .setIntMask p v => Sys2Proof.Machine.execSetIntMask p v s
  | .clearAllInts p => Sys2Proof.Machine.execClearAllInts p s
  | .sendBreak p d => Sys2Proof.Machine.execSendBreak p d s
  | .openPort p => Sys2Proof.Machine.execOpenPort p s
  | .setBaud p v => Sys2Proof.Machine.execSetBaud p v s
  | .endPort p => Sys2Proof.Machine.execEndPort p s
  | .getDbgPort => Sys2Proof.Machine.execGetDbgPort s
  | .setDbgPort p valid => Sys2Proof.Machine.execSetDbgPort p valid s

end Sys2Proof.Machine
end

