-- ==== Sys2Proof/Machine/Step.lean ====
section
/-! DEFINITION. One step of the machine: one atomic step of one agent in the step order (spec
20_memory.md R76), the agent being the one the list of moves names next. -/

namespace Sys2Proof.Machine

/-- The running context takes one micro-step of the operation it has presented (10_state.md R23). -/
def State.micro (s : State) : Result :=
  match s.op with
  | .idle => .refused .moveUnavailable
  | .run i _ => exec i s

/-- The host presents a word to the idle running context, which takes the operation's first micro-step at
once; log entry 3. -/
def State.issue (s : State) (w : Command) : Result :=
  if s.op = .idle then
    match decode w with
    | none => .next (s.raise (.illegalCommand w))
    | some i => exec i s
  else .refused .contextBusy

/-- One move of one agent. -/
def State.take (s : State) : Move → Result
  | .micro => s.micro
  | .present w => s.present w
  | .issue w => s.issue w
  | .uart q tx rx set line => .next (s.uartStep q tx rx set line)
  | .advance k => .next (s.advance k)
  | .interrupt k => s.enterInterrupt k
  | .exitInterrupt => s.exitInterrupt

/-- With no move listed the running context goes on with its operation, and an idle one waits for the host
(70_reset_and_hazards.md R282); log entry 22. -/
def State.undriven (s : State) : Result :=
  match s.op with
  | .idle => .next s
  | .run i _ => exec i s

/-- One step. A machine with a recorded fault is quiescent (60_exceptions.md R242); log entry 5. -/
def step (s : State) : Host.Outcome State Fault Refusal :=
  match s.faults with
  | f :: _ => .fault (.quiescent f.ctx f.cause)
  | [] =>
    match s.moves with
    | [] => s.undriven
    | m :: ms => State.take { s with moves := ms } m

/-- The state in which the host presents the word `w` of spec/opcode_table.json to the running context at
the very next step: the word is the next move, the context is idle and no fault is recorded. -/
def State.withFetchWord (s : State) (nbits w : Nat) : State :=
  { s.finish with faults := [], moves := .issue (Command.ofTable nbits w) :: s.moves }

end Sys2Proof.Machine
end

