-- ==== Sys2Proof/Machine/RegMap.lean ====
section
/-! DEFINITION. The register map and the 32-bit accesses to a port's register block (spec 20_memory.md R71,
R72, R75). No operation of the block uses them: the rules name fields (R71). -/

namespace Sys2Proof.Machine

/-- One row of the register map: the field a read sees, the field a write sets, the byte offset of its
register, and its bits `[lo + bits - 1 : lo]` (R71). -/
structure MapRow where
  read : Option Field
  write : Option WField
  off : Nat
  lo : Nat
  bits : Nat
deriving DecidableEq, Repr

/-- The row of the break-detect enable, by `BRKDET_ALIAS` (R71). -/
def brkDetRow (P : Params) : MapRow :=
  match P.brkdetAlias with
  | .inMask => ⟨some .brkDetEn, some .brkDetEn, 0x0C, P.brkDetBit, 1⟩
  | .separate => ⟨some .brkDetEn, some .brkDetEn, 0x80, 0, 1⟩

/-- The register map of R71, its bit ranges as the table writes them; log entry 19. -/
def regMap (P : Params) : List MapRow :=
  [⟨some .intRaw, none, 0x04, 0, P.intW⟩,
   ⟨some .intEna, some .intEna, 0x0C, 0, P.intW⟩,
   ⟨none, some .intClr, 0x10, 0, P.intW⟩,
   ⟨some .autobaud, some .autobaud, 0x18, 0, P.abW⟩,
   ⟨some .rxfifoCnt, none, 0x1C, 0, 8⟩,
   ⟨some .txfifoCnt, none, 0x1C, 16, 8⟩,
   ⟨some .stopBits, some .stopBits, 0x20, 4, 2⟩,
   ⟨some .txdBrkEn, some .txdBrkEn, 0x20, 8, 1⟩,
   ⟨some .rxfifoThrhd, some .rxfifoThrhd, 0x24, 0, 7⟩,
   ⟨some .idleLen, some .idleLen, 0x40, 10, 10⟩,
   ⟨some .brkLen, some .brkLen, 0x40, 20, 8⟩,
   ⟨some .rs485En, some .rs485En, 0x44, 0, 1⟩,
   brkDetRow P]

/-- The rows of one register. -/
def rowsAt (P : Params) (off : Nat) : List MapRow := (regMap P).filter fun r => r.off == off

/-- Put a field's value at its bits of a word. -/
def insertBits (w : BitVec 32) (lo bits v : Nat) : BitVec 32 :=
  let m : BitVec 32 := BitVec.ofNat 32 (allOnes bits <<< lo)
  (w &&& ~~~m) ||| (BitVec.ofNat 32 (v <<< lo) &&& m)

/-- The field at its bits of a word. -/
def fieldBits (w : BitVec 32) (lo bits : Nat) : Nat := trunc bits (w.toNat >>> lo)

/-- A whole 32-bit word at an offset that is a multiple of 4 (R75). -/
def isRegisterAccess (off size : Nat) : Bool := off % 4 == 0 && size == 4

/-- Put the field of one row into a word being read. -/
def readRow (P : Params) (r : Regs) (w : BitVec 32) (row : MapRow) : BitVec 32 :=
  match row.read with
  | none => w
  | some f => insertBits w row.lo row.bits (r.read P f)

/-- Set the field of one row from a word being written. -/
def writeRow (P : Params) (w : BitVec 32) (r : Regs) (row : MapRow) : Regs :=
  match row.write with
  | none => r
  | some f => r.write P f (fieldBits w row.lo row.bits)

/-- `MemRead(base_p + off, size)` (R72): the fields of the register at their bits, unspecified values in every
other bit; an access that is not one whole aligned word is refused (R75). DESIGN CHOICE, log entry 19: R72 says
of the other bits only that they are unspecified, and the model takes them from one free value for each
(`State.draws`, offset), which names no port and which no read draws anew. Unsafe for a claim that compares two
reads, or two ports: their unspecified bits agree here until the next `OPEN`, and on the hardware they need
not. -/
def State.memRead (s : State) (q : PortId) (off size : Nat) : Except Refusal (BitVec 32) :=
  if isRegisterAccess off size then
    .ok ((rowsAt s.params off).foldl (readRow s.params (s.port q).regs) (Config.unspecifiedBits s.draws off))
  else .error .notARegisterAccess

/-- `MemWrite(base_p + off, size, w)` (R72): the fields that software may write take their bits. -/
def State.memWrite (s : State) (q : PortId) (off size : Nat) (w : BitVec 32) : Result :=
  if isRegisterAccess off size then
    .next (s.setPort q
      { s.port q with regs := (rowsAt s.params off).foldl (writeRow s.params w) (s.port q).regs })
  else .refused .notARegisterAccess

/-- The fields that the hardware writes (10_state.md R38). -/
def Field.hardware : Field → Bool
  | .txfifoCnt => true
  | .rxfifoCnt => true
  | .intRaw => true
  | _ => false

end Sys2Proof.Machine
end

