-- ==== Sys2Proof/Safety.lean ====
section
/-! DEFINITION. The terms in which claims speak of the machine: repeated micro-steps of one operation, the
invariant of every step, final and quiescent states, hangs, and the premises the spec asks a claim to
carry. -/

namespace Sys2Proof.Machine

/-! ## Repeated micro-steps -/

/-- Go on with the next state of an outcome. -/
def andThen (r : Result) (k : State → Result) : Result :=
  match r with
  | .next s => k s
  | .fault f => .fault f
  | .refused f => .refused f

/-- `n` micro-steps of operation `i` in the running context with no step of any other agent between
them. -/
def execTimes : Nat → Instr → State → Result
  | 0, _, s => .next s
  | n + 1, i, s => andThen (exec i s) (execTimes n i)

/-! ## Tables of phases (10_state.md R23, R24) -/

/-- The port operand of an operation that has one. -/
def portOperand : Instr → Option PortIndex
  | .nowMicros => none
  | .delayMicros _ => none
  | .getDbgPort => none
  | .setDbgPort _ _ => none
  | .waitTxfifoEmpty p => some p
  | .waitRxfifoEmpty p => some p
  | .waitTxDone p => some p
  | .waitTxBrkDone p => some p
  | .setRs485Mode p => some p
  | .cfgBreakGen p _ _ _ => some p
  | .forceTwoStopBits p => some p
  | .enableBrkDet p => some p
  | .disableBrkDet p => some p
  | .disableAllInts p => some p
  | .setIntMask p _ => some p
  | .clearAllInts p => some p
  | .sendBreak p _ => some p
  | .openPort p => some p
  | .setBaud p _ => some p
  | .endPort p => some p

/-- The number of writes in the body of a guarded operation (42_guarded_regops.md R174 to R181). -/
def bodyLength : Instr → Nat
  | .setRs485Mode _ => 1
  | .cfgBreakGen _ _ _ _ => 3
  | .forceTwoStopBits _ => 1
  | .enableBrkDet _ => 3
  | .disableBrkDet _ => 1
  | .disableAllInts _ => 2
  | .setIntMask _ _ => 1
  | .clearAllInts _ => 1
  | _ => 0

/-- The phase is one of a guarded operation whose body has `n` writes. -/
def GPhase.fits (n : Nat) : GPhase → Bool
  | .g0 => decide (1 ≤ n)
  | .g1 => decide (1 ≤ n)
  | .b1 => decide (1 ≤ n)
  | .b2 => decide (2 ≤ n)
  | .b3 => decide (3 ≤ n)
  | .gR => decide (1 ≤ n)

/-- The delay's locals are those of a delay of `d` microseconds (40_timer.md R135): its target is its start
plus `d`, and phase `d1` is the wrapped case. -/
def DPhase.fits (d : Micros) : DPhase → Bool
  | .d0 => true
  | .d1 start target => decide (target = start + d ∧ target < start)
  | .d2 start target => decide (target = start + d)

/-- The locals of `SEND_BREAK p, d` (43_break.md R201): the port's transmit pin and an `INT_W`-bit mask. -/
def BreakLocals.fits (P : Params) (p : PortIndex) (l : BreakLocals) : Bool :=
  decide (l.pin = txPin P p.toNat ∧ l.snap < 2 ^ P.intW)

/-- The port operand names a physical port. -/
def physical (p : PortIndex) : Bool := decide (p.toNat < nports)

/-- The port operand is past the operation's entry check, or the phase is the entry. -/
def WPhase.entered (p : PortIndex) : WPhase → Bool
  | .w0 => true
  | _ => physical p

/-- The port operand is past the guarded operation's entry check, or the phase is the entry. -/
def GPhase.entered (p : PortIndex) : GPhase → Bool
  | .g0 => true
  | _ => physical p

/-- The phase is one of the operation's micro-step table, with locals the operation can have, in a context
that can be there: past `s0`, `SEND_BREAK` runs in `MAIN` only (43_break.md R203). -/
def phaseFits (P : Params) (c : Ctx) (i : Instr) (ph : Phase) : Bool :=
  match i, ph with
  | .nowMicros, .n0 => true
  | .delayMicros d, .d x => x.fits (zextDuration d)
  | .waitTxfifoEmpty p, .w x => x != .w4 && x.entered p
  | .waitRxfifoEmpty p, .w x => x != .w4 && x.entered p
  | .waitTxDone p, .w x => x.entered p
  | .waitTxBrkDone p, .w x => x.entered p
  | .sendBreak _ _, .s0 => true
  | .sendBreak p _, .s1 pin => c == .main && physical p && pin == txPin P p.toNat
  | .sendBreak p _, .s2 l x => c == .main && physical p && l.fits P p && x.fits 2
  | .sendBreak p _, .s3 l => c == .main && physical p && l.fits P p
  | .sendBreak p _, .s4 l => c == .main && physical p && l.fits P p
  | .sendBreak p _, .s5 l => c == .main && physical p && l.fits P p
  | .sendBreak p d, .s6 l x => c == .main && physical p && l.fits P p && x.fits (zextDuration d)
  | .sendBreak p _, .s7 l => c == .main && physical p && l.fits P p
  | .sendBreak p _, .s8 l => c == .main && physical p && l.fits P p
  | .sendBreak p _, .s9 l x => c == .main && physical p && l.fits P p && x.fits 1
  | .openPort _, .o0 => true
  | .setBaud _ _, .u0 => true
  | .endPort _, .e0 => true
  | .endPort p, .e1 x => physical p && x.fits 2
  | .endPort p, .e2 => physical p
  | .endPort p, .e3 => physical p
  | .endPort p, .e4 => physical p
  | .getDbgPort, .q0 => true
  | .setDbgPort _ _, .t0 => true
  | i, .g x => x.fits (bodyLength i) && (portOperand i).any x.entered
  | _, _ => false

/-- The operation state is one its context can have. -/
def OpState.fits (P : Params) (c : Ctx) : OpState → Bool
  | .idle => true
  | .run i ph => phaseFits P c i ph

/-! ## Who holds a port's lock (20_memory.md R80 to R82, 44_facade.md R227) -/

/-- The phases between a successful `LockTry` and the `Unlock` (42_guarded_regops.md R170). -/
def GPhase.holding : GPhase → Bool
  | .g0 => false
  | .g1 => false
  | _ => true

/-- The guarded operation's phase, alone or inside `SEND_BREAK` or `END`. -/
def Phase.guarded : Phase → Option GPhase
  | .g x => some x
  | .s2 _ x => some x
  | .s9 _ x => some x
  | .e1 x => some x
  | _ => none

/-- The operation has a port operand that names port `q`. -/
def namesPort (i : Instr) (q : PortId) : Bool := ((portOperand i).bind portId?) == some q

/-- The operation is between its lock acquisition and its release, on port `q`. -/
def OpState.holds (q : PortId) : OpState → Bool
  | .idle => false
  | .run i ph => namesPort i q && ph.guarded.any GPhase.holding

/-- The operation is an `END` of port `q` past its guarded sub-operation (44_facade.md R223). -/
def OpState.ending (q : PortId) : OpState → Bool
  | .run (.endPort p) .e2 => portId? p == some q
  | .run (.endPort p) .e3 => portId? p == some q
  | .run (.endPort p) .e4 => portId? p == some q
  | _ => false

/-- The contexts of the stack, the running one first. -/
def State.ctxList (s : State) : List Ctx := s.stack.map Ctx.isr ++ [.main]

/-- No context below an `END` of a port that is past its guarded sub-operation holds that port's lock. -/
def endingClear (s : State) : Prop :=
  s.ctxList.Pairwise fun upper lower =>
    ∀ q, (s.opOf upper).ending q = true → (s.opOf lower).holds q = false

/-! ## The invariant of every step -/

/-- What every step keeps. -/
structure Inv (s : State) : Prop where
  /-- The parameters meet 00_scope.md R7. -/
  params_valid : s.params.Valid
  /-- The contexts of the stack are distinct (10_state.md R22). -/
  stack_nodup : s.stack.Nodup
  /-- Every context of the stack has been entered. -/
  stack_entered : ∀ n ∈ s.stack, n < s.ctxs.isrs.length
  /-- A context that is not on the stack is idle (60_exceptions.md R259). -/
  off_stack_idle : ∀ n, n ∉ s.stack → s.opOf (.isr n) = .idle
  /-- Every context is at a phase of its operation's table (10_state.md R23). -/
  phases_fit : ∀ c, (s.opOf c).fits s.params c = true
  /-- `T_CRIT` is free at every step boundary (10_state.md R33). -/
  crit_free : s.tCrit = .free
  /-- `T_LAST` is a `CYC_W`-bit value (10_state.md R31). -/
  last_fits : s.tLast < 2 ^ s.params.cycW
  /-- Every register field is within its width (10_state.md R38). -/
  regs_fit : ∀ q, (s.port q).regs.fit s.params = (s.port q).regs
  /-- The pin list is in its canonical form. -/
  pins_wf : Pins.wf s.pins = true
  /-- In a run that is not refused a lock is held by a context that is inside a guarded operation on the port
  (20_memory.md R80, R81). The premise is the one 60_exceptions.md R242 gives every law: a refused interrupt
  entry can end an operation between its acquisition and its release (log entry 16). -/
  lock_owner : s.refused = false → ∀ q c, (s.port q).lock = .held c → (s.opOf c).holds q = true
  /-- A context inside a guarded operation on a port holds the port's lock (42_guarded_regops.md R171). -/
  holder_locks : ∀ q c, (s.opOf c).holds q = true → (s.port q).lock = .held c
  /-- The handle of a port is valid while a context is inside a guarded operation on it
  (42_guarded_regops.md R171, 44_facade.md R227). -/
  holder_valid : ∀ q c, (s.opOf c).holds q = true → (s.port q).handle = .valid
  /-- Where an `END` is past its guarded sub-operation, no lower context holds the lock (44_facade.md
  R227). -/
  ending_clear : endingClear s
  /-- `REFUSED` is set exactly when a refusal is recorded (60_exceptions.md R242). -/
  refused_iff : s.refused = !s.refusals.isEmpty
  /-- Every event-queue token a port holds has been given already, so the next one is fresh (44_facade.md
  R221; the tokens are the model's numbers, log entry 13). -/
  tokens_given : ∀ q k, (s.port q).evq = some k → k < s.nextQueue
  /-- Every interrupt entry on record is one of a context entered so far (60_exceptions.md R257; the
  contexts' numbers are the model's, log entry 14). -/
  entries_known : ∀ n k, Event.intEnter (.isr n) k ∈ s.trace → n < s.ctxs.isrs.length

/-- The timer never runs ahead of the ghost time (40_timer.md R134 (a)): the accumulator holds `n`
wraparounds, and `n` whole periods and the last raw value have passed. -/
def ClockBehind (s : State) : Prop :=
  ∃ n, s.tAcc = microsOf (n * wrapUs s.params) ∧ n * 2 ^ s.params.cycW + s.tLast ≤ s.timeCyc

/-- A reset draw that is a value of each type (10_state.md R60). -/
structure ResetDraw.Fits (P : Params) (draw : ResetDraw) : Prop where
  ccount_fits : draw.ccount < 2 ^ P.cycW
  regs_fit : ∀ q : PortId, draw.regs[q].fit P = draw.regs[q]
  pins_wf : Pins.wf draw.pins = true

/-! ## Final, quiescent and hung states (70_reset_and_hazards.md R283, 60_exceptions.md R242, R245) -/

/-- A move by which the host presents a command. -/
def Move.isCommand : Move → Bool
  | .present _ => true
  | .issue _ => true
  | _ => false

/-- A final state (R283). -/
structure Final (s : State) : Prop where
  no_fault : s.faults = []
  not_refused : s.refused = false
  only_main : s.ctxStack = [.main]
  main_idle : s.opOf .main = .idle
  locks_free : ∀ q, (s.port q).lock = .free
  crit_free : s.tCrit = .free
  no_command : ∀ m ∈ s.moves, m.isCommand = false

/-- A quiescent state: a fault is recorded (R242). -/
def Quiescent (s : State) : Prop := s.faults ≠ []

/-- The running context spins on the lock of port `q` (R245 (2)): it is at the acquire phase of a guarded
operation on `q`, the handle is valid, and the lock is held. -/
def SpinsOnLock (s : State) (q : PortId) : Prop :=
  ∃ i ph c, s.op = .run i ph ∧ ph.guarded = some .g1 ∧ namesPort i q = true ∧
    phaseFits s.params s.running i ph = true ∧ (s.port q).handle = .valid ∧ (s.port q).lock = .held c

/-! ## What the next step runs, and the hold of a break -/

/-- The operation whose micro-step the next step takes, if it takes one. -/
def State.nextInstr (s : State) : Option Instr :=
  let current : Option Instr := match s.op with
    | .idle => none
    | .run i _ => some i
  match s.moves with
  | [] => current
  | .micro :: _ => current
  | .issue w :: _ => if s.op = .idle then decode w else none
  | _ => none

/-- The operation is a `SEND_BREAK` of port `p` after step `s3` and before `s8`: the pin is detached. -/
def OpState.pinDetached (p : PortIndex) : OpState → Bool
  | .run (.sendBreak p' _) (.s4 _) => p' == p
  | .run (.sendBreak p' _) (.s5 _) => p' == p
  | .run (.sendBreak p' _) (.s6 _ _) => p' == p
  | .run (.sendBreak p' _) (.s7 _) => p' == p
  | .run (.sendBreak p' _) (.s8 _) => p' == p
  | _ => false

/-- The operation is a `SEND_BREAK` of port `p` after step `s4` and before `s8`: the pin is an output too. -/
def OpState.pinDriven (p : PortIndex) : OpState → Bool
  | .run (.sendBreak p' _) (.s5 _) => p' == p
  | .run (.sendBreak p' _) (.s6 _ _) => p' == p
  | .run (.sendBreak p' _) (.s7 _) => p' == p
  | .run (.sendBreak p' _) (.s8 _) => p' == p
  | _ => false

/-- The operation is a `SEND_BREAK` of port `p` after step `s5` and before `s7`: the hold (43_break.md
R205). -/
def OpState.inHold (p : PortIndex) : OpState → Bool
  | .run (.sendBreak p' _) (.s6 _ _) => p' == p
  | .run (.sendBreak p' _) (.s7 _) => p' == p
  | _ => false

/-- What `SEND_BREAK` in `MAIN` has made of the port's transmit pin: detached, then an output, then low
until the end of the hold (43_break.md R201 `s3` to `s7`, R205). -/
def LowInHold (s : State) : Prop :=
  ∀ p q, portId? p = some q →
    ((s.opOf .main).pinDetached p = true → (s.pin (txPin s.params q)).mux = .detached) ∧
    ((s.opOf .main).pinDriven p = true → (s.pin (txPin s.params q)).dir = .output) ∧
    ((s.opOf .main).inHold p = true → (s.pin (txPin s.params q)).level = false)

/-! ## Premises -/

/-- The running context is one that has been entered, so that its operation state can change. -/
def State.runningKnown (s : State) : Prop := ∀ n ∈ s.stack.head?, n < s.ctxs.isrs.length

/-- Port `p` is physical port `q` and its handle is valid (70_reset_and_hazards.md R284 (1)). -/
def State.isOpen (s : State) (p : PortIndex) (q : PortId) : Prop :=
  portId? p = some q ∧ (s.port q).handle = .valid

/-- The running context is idle: the host may present a command to it (10_state.md R23). -/
def State.ready (s : State) : Prop := s.runningKnown ∧ s.op = .idle

/-- A delay of `d` microseconds is shorter than the platform's watchdog timeout (70_reset_and_hazards.md
R294). DESIGN CHOICE, unsafe: R294 asks for shorter "by the margin the platform needs" and leaves the margin
open; this premise takes no margin (`d < WDT_TIMEOUT_US`), so it can hold of a delay that is too long on a
platform that needs one; log entry 20. No step and no statement uses it. -/
def withinWatchdog (P : Params) (d : BitVec 32) : Prop := d.toNat < P.wdtTimeoutUs

end Sys2Proof.Machine
end

