-- ==== Sys2Proof/Certificates/Slice0/Obligations.lean ====
section
/-! DEFINITION. The statements for the provers. The tables below are written from the rules of the spec,
apart from the model's own definitions of the operations. -/

namespace Sys2Proof.Statements

open Sys2Proof.Machine

/-- One wait: the operation, its condition on the port's fields, and the latch it acknowledges
(41_spinwait.md R153 to R156). -/
structure WaitRow where
  instr : Instr
  sat : Regs → Bool
  latch : Option Nat

/-- The four waits on port `p` (41_spinwait.md R153 to R156). -/
def waitTable (P : Params) (p : PortIndex) : List WaitRow :=
  [⟨.waitTxfifoEmpty p, fun r => r.txfifoCnt == 0, none⟩,
   ⟨.waitRxfifoEmpty p, fun r => r.rxfifoCnt == 0, none⟩,
   ⟨.waitTxDone p, fun r => r.intRaw.testBit P.txDoneBit, some P.txDoneBit⟩,
   ⟨.waitTxBrkDone p, fun r => r.intRaw.testBit P.txBrkIdleDoneBit, some P.txBrkIdleDoneBit⟩]

/-- The eight guarded operations on port `p` with the writes of their bodies in order (42_guarded_regops.md
R174 to R181). -/
def guardedTable (P : Params) (p : PortIndex) (en : Bool) (blen ilen : BitVec 16) (v : BitVec 32) :
    List (Instr × List (WField × Nat)) :=
  [(.setRs485Mode p, [(.rs485En, 1)]),
   (.cfgBreakGen p en blen ilen,
     [(.txdBrkEn, if en then 1 else 0), (.brkLen, blen.toNat), (.idleLen, ilen.toNat)]),
   (.forceTwoStopBits p, [(.stopBits, P.twoStopCode)]),
   (.enableBrkDet p, [(.brkDetEn, 1), (.autobaud, P.autobaudRst), (.rxfifoThrhd, 1)]),
   (.disableBrkDet p, [(.brkDetEn, 0)]),
   (.disableAllInts p, [(.intEna, 0), (.intClr, 2 ^ P.intW - 1)]),
   (.setIntMask p v, [(.intEna, v.toNat)]),
   (.clearAllInts p, [(.intClr, P.clrAllMask)])]

/-- The phase of a body's write number `k`, and the one after it (42_guarded_regops.md R170). -/
def bodyPhase : Nat → GPhase
  | 0 => .b1
  | 1 => .b2
  | 2 => .b3
  | _ => .gR

/-- A guarded operation run in place by an enclosing operation (10_state.md R24): the enclosing operation,
its phases, where it goes on, and the writes of the body. -/
structure SubRow where
  instr : Instr
  phase : GPhase → Phase
  after : OpState
  body : List (WField × Nat)

/-- The three sub-operations: `s2` and `s9` of `SEND_BREAK` (43_break.md R201) and `e1` of `END`
(44_facade.md R223). -/
def subTable (P : Params) (p : PortIndex) (d : BitVec 32) (l : BreakLocals) : List SubRow :=
  [⟨.sendBreak p d, .s2 l, .run (.sendBreak p d) (.s3 l), [(.intEna, 0), (.intClr, 2 ^ P.intW - 1)]⟩,
   ⟨.sendBreak p d, .s9 l, .idle, [(.intEna, l.snap)]⟩,
   ⟨.endPort p, .e1, .run (.endPort p) .e2, [(.intEna, 0), (.intClr, 2 ^ P.intW - 1)]⟩]

/-- The rows of spec/opcode_table.json: `match` and `mask` (30_encoding.md R102, R104). -/
def opcodeRows : List (Command × Command) :=
  [(0x0100000000000000, 0xFFFFFFFFFFFFFFFF), (0x0200000000000000, 0xFFFFFFFF00000000),
   (0x1000000000000000, 0xFF00FFFFFFFFFFFF), (0x1100000000000000, 0xFF00FFFFFFFFFFFF),
   (0x1200000000000000, 0xFF00FFFFFFFFFFFF), (0x1300000000000000, 0xFF00FFFFFFFFFFFF),
   (0x2000000000000000, 0xFF00FFFFFFFFFFFF), (0x2100000000000000, 0xFF00FFFE00000000),
   (0x2200000000000000, 0xFF00FFFFFFFFFFFF), (0x2300000000000000, 0xFF00FFFFFFFFFFFF),
   (0x2400000000000000, 0xFF00FFFFFFFFFFFF), (0x2500000000000000, 0xFF00FFFFFFFFFFFF),
   (0x2600000000000000, 0xFF00FFFF00000000), (0x2700000000000000, 0xFF00FFFFFFFFFFFF),
   (0x3000000000000000, 0xFF00FFFF00000000), (0x4000000000000000, 0xFF00FFFFFFFFFFFF),
   (0x4100000000000000, 0xFF00FFFF00000000), (0x4200000000000000, 0xFF00FFFFFFFFFFFF),
   (0x4300000000000000, 0xFFFFFFFFFFFFFFFF), (0x4400000000000000, 0xFF00FFFEFFFFFFFF)]

/-- The field that software reads where it writes a configuration field; `INT_CLR` stores nothing
(10_state.md R38, R42). -/
def stored : WField → Option Field
  | .intEna => some .intEna
  | .intClr => none
  | .rs485En => some .rs485En
  | .txdBrkEn => some .txdBrkEn
  | .brkLen => some .brkLen
  | .idleLen => some .idleLen
  | .stopBits => some .stopBits
  | .brkDetEn => some .brkDetEn
  | .autobaud => some .autobaud
  | .rxfifoThrhd => some .rxfifoThrhd

/-- Whether a field is part of what a write of another changes: the flags under `INT_CLR`, and the two
names of the break-detect enable where they share a bit (10_state.md R42, R46). -/
def touches (P : Params) (f : WField) (g : Field) : Bool :=
  stored f == some g || (f == .intClr && g == .intRaw) ||
    (P.brkdetAlias == .inMask && ((f == .intEna && g == .brkDetEn) || (f == .brkDetEn && g == .intEna)))

/-- A field in a register of the map: the byte offset, the lowest bit, the number of bits, and the field's
value (20_memory.md R71). -/
structure MapField where
  off : Nat
  lo : Nat
  bits : Nat
  value : Nat

/-- The readable fields of the register map, row by row (20_memory.md R71); the break-detect enable is a bit
of the enable mask or stands alone (10_state.md R46). -/
def readMap (P : Params) (r : Regs) : List MapField :=
  [⟨0x04, 0, P.intW, r.intRaw⟩, ⟨0x0C, 0, P.intW, r.intEna⟩, ⟨0x18, 0, P.abW, r.autobaud⟩,
   ⟨0x1C, 0, 8, r.rxfifoCnt⟩, ⟨0x1C, 16, 8, r.txfifoCnt⟩, ⟨0x20, 4, 2, r.stopBits⟩,
   ⟨0x20, 8, 1, r.txdBrkEn⟩, ⟨0x24, 0, 7, r.rxfifoThrhd⟩, ⟨0x40, 10, 10, r.idleLen⟩,
   ⟨0x40, 20, 8, r.brkLen⟩, ⟨0x44, 0, 1, r.rs485En⟩,
   match P.brkdetAlias with
   | .inMask => ⟨0x0C, P.brkDetBit, 1, r.intEna / 2 ^ P.brkDetBit % 2⟩
   | .separate => ⟨0x80, 0, 1, r.brkDetEn⟩]

/-- The field shows at its bits of the word, as far as a word has them. -/
def MapField.showsIn (x : MapField) (w : BitVec 32) : Prop :=
  ∀ k, k < x.bits → x.lo + k < 32 → w.getLsbD (x.lo + k) = x.value.testBit k

/-- What a 32-bit write leaves in the register block, register by register (20_memory.md R71, R72): a field
takes its row's bits brought into its width (log entry 19), `INT_CLR` clears flags (10_state.md R42), the
read-only registers and every offset outside the map take nothing. -/
def regsWritten (P : Params) (r : Regs) (off : Nat) (w : BitVec 32) : Regs :=
  let v := w.toNat
  match off with
  | 0x0C => { r with intEna := v % 2 ^ P.intW }
  | 0x10 => { r with intRaw := r.intRaw &&& (2 ^ P.intW - 1 - v % 2 ^ P.intW) }
  | 0x18 => { r with autobaud := v % 2 ^ P.abW }
  | 0x20 => { r with stopBits := v / 2 ^ 4 % 2 ^ 2 % 2 ^ P.stopW, txdBrkEn := v / 2 ^ 8 % 2 }
  | 0x24 => { r with rxfifoThrhd := v % 2 ^ 7 % 2 ^ P.thrW }
  | 0x40 => { r with
      idleLen := v / 2 ^ 10 % 2 ^ 10 % 2 ^ P.idleLenW
      brkLen := v / 2 ^ 20 % 2 ^ 8 % 2 ^ P.brkLenW }
  | 0x44 => { r with rs485En := v % 2 }
  | 0x80 =>
    match P.brkdetAlias with
    | .inMask => r
    | .separate => { r with brkDetEn := v % 2 }
  | _ => r

end Sys2Proof.Statements

open Sys2Proof Sys2Proof.Machine Sys2Proof.Statements

/-! ## Encoding -/

/-- Decode and encode agree for every well-formed operation with every operand (30_encoding.md R101 to
R105). -/
def Obligations.DecodeOfEncode : Prop :=
  ∀ i : Instr, i.wellFormed = true → decode (encode i) = some i

/-- Every legal word is the encoding of the operation it decodes to, which is well-formed (30_encoding.md
R101 to R105). -/
def Obligations.EncodeOfDecode : Prop :=
  ∀ (w : Command) (i : Instr), decode w = some i → encode i = w ∧ i.wellFormed = true

/-- A word is legal exactly when it matches a row of the opcode table and, for `SET_DBG_PORT` with
`valid = 0`, its port is 0 (30_encoding.md R102, R105). -/
def Obligations.DecodeMatchesOpcodeTable : Prop :=
  ∀ w : Command, (decode w).isSome = true ↔
    (∃ r ∈ opcodeRows, w &&& r.2 = r.1) ∧
      ¬ (w.extractLsb' 56 8 = 0x44 ∧ w.getLsbD 32 = false ∧ w.extractLsb' 48 8 ≠ 0)

/-- Words of 30_encoding.md R109 and R104, written out, decode to their operations. -/
def Obligations.SpecWordsDecode : Prop :=
  decode 0x30020000000000B0 = some (.sendBreak 2 176) ∧
  decode 0x2602000000004080 = some (.setIntMask 2 0x4080) ∧
  decode 0x2101000100160003 = some (.cfgBreakGen 1 true 22 3) ∧
  decode 0x020000000000000C = some (.delayMicros 12) ∧
  decode 0x4401000100000000 = some (.setDbgPort 1 true) ∧
  decode 0x4400000000000000 = some (.setDbgPort 0 false)

/-- The reserved opcodes are illegal (30_encoding.md R107). -/
def Obligations.ReservedOpcodesRejected : Prop :=
  ∀ w : Command,
    ((w.extractLsb' 56 8).toNat = 0 ∨ (0x03 ≤ (w.extractLsb' 56 8).toNat ∧ (w.extractLsb' 56 8).toNat ≤ 0x0F) ∨
      (0x14 ≤ (w.extractLsb' 56 8).toNat ∧ (w.extractLsb' 56 8).toNat ≤ 0x1F) ∨
      (0x28 ≤ (w.extractLsb' 56 8).toNat ∧ (w.extractLsb' 56 8).toNat ≤ 0x2F) ∨
      (0x31 ≤ (w.extractLsb' 56 8).toNat ∧ (w.extractLsb' 56 8).toNat ≤ 0x3F) ∨
      0x45 ≤ (w.extractLsb' 56 8).toNat) →
    decode w = none

/-- An illegal word starts nothing and changes nothing but the fault record (30_encoding.md R108), whether
the host presents it alone or with the first micro-step; the two moves are the model's (log entries 2 and
3). -/
def Obligations.IllegalCommandRaises : Prop :=
  ∀ (s : State) (w : Command) (ms : List Move), s.faults = [] → s.op = .idle → decode w = none →
    step { s with moves := .present w :: ms } =
      .next { s with moves := ms, faults := [⟨s.running, .illegalCommand w⟩] } ∧
    step { s with moves := .issue w :: ms } =
      .next { s with moves := ms, faults := [⟨s.running, .illegalCommand w⟩] }

/-- A step runs the decoded operation: a word presented to the idle running context is decoded and `exec`
of its operation is the step; a running context's micro-step is `exec` of its operation; presentation
alone sets `OPSTATE` to the first phase (10_state.md R23, 30_encoding.md R105; model's moves, log entries 2
and 3). -/
def Obligations.StepRunsTheOperation : Prop :=
  ∀ (s : State) (i : Instr) (w : Command) (ph : Phase) (ms : List Move), s.faults = [] →
    (s.op = .idle → decode w = some i →
      step { s with moves := .issue w :: ms } = exec i { s with moves := ms } ∧
      step { s with moves := .present w :: ms } =
        .next (State.setOp { s with moves := ms } (.run i (firstPhase i)))) ∧
    (s.op = .run i ph →
      step { s with moves := .micro :: ms } = exec i { s with moves := ms } ∧
      step { s with moves := [] } = exec i { s with moves := [] })

/-! ## The timer and the delay -/

/-- The timer step (40_timer.md R130): the raw value is the counter, a value below the previous one adds
`WRAP_US`, the raw value is stored, the result is the accumulator plus the whole microseconds, the sample
is recorded, and nothing else changes. -/
def Obligations.TimerStepEffect : Prop :=
  ∀ s : State,
    let raw := s.timeCyc % 2 ^ s.params.cycW
    let wrap := BitVec.ofNat 64 ((2 ^ s.params.cycW - 1) / s.params.cyclesPerUs)
    let acc := if raw < s.tLast then s.tAcc + wrap else s.tAcc
    let v := acc + BitVec.ofNat 64 (raw / s.params.cyclesPerUs)
    s.now = (v, { s with tAcc := acc, tLast := raw, tCrit := .free, trace := s.trace ++ [.now s.running raw v] })

/-- `NOW_MICROS` is one timer step whose value goes to the context's result latch (40_timer.md R131). -/
def Obligations.NowMicrosDeliversTimer : Prop :=
  decode 0x0100000000000000 = some .nowMicros ∧
  ∀ s : State, s.ready →
    exec .nowMicros s =
      .next { s.now.2 with ctxs := s.ctxs.set s.running ⟨.idle, some s.now.1⟩ }

/-- The arithmetic of `WRAP_US` (40_timer.md R132). -/
def Obligations.WrapConstantFacts : Prop :=
  ∀ P : Params, P.Valid →
    (∀ raw, raw < 2 ^ P.cycW → raw / P.cyclesPerUs ≤ wrapUs P) ∧
    (2 ^ P.cycW - 1) / P.cyclesPerUs = wrapUs P ∧
    1 ≤ 2 ^ P.cycW - wrapUs P * P.cyclesPerUs ∧ 2 ^ P.cycW - wrapUs P * P.cyclesPerUs ≤ P.cyclesPerUs ∧
    wrapUs P * P.cyclesPerUs ≤ 2 ^ P.cycW - 1

/-- Monotonicity (40_timer.md R133): of two successive timer steps the second yields no smaller value,
however far apart they are, while the 64-bit sum of the second does not overflow (log entry 25). -/
def Obligations.TimerMonotone : Prop :=
  ∀ s s' : State, s.params.Valid → s'.params = s.params →
    s'.tLast = s.now.2.tLast → s'.tAcc = s.now.2.tAcc →
    s'.tAcc.toNat + wrapUs s.params + s'.ccount / s.params.cyclesPerUs < 2 ^ 64 →
    s.now.1.toNat ≤ s'.now.1.toNat

/-- Accuracy of two consecutive timer steps less than one counter period apart (40_timer.md R134 (c)):
`e` cycles between them, with and without a wrap of the counter. -/
def Obligations.TimerStepAccuracy : Prop :=
  ∀ (s : State) (e : Nat), s.params.Valid → e < 2 ^ s.params.cycW →
    s.now.2.tAcc.toNat + wrapUs s.params + wrapUs s.params < 2 ^ 64 →
    let v := s.now.1.toNat
    let v' := (s.now.2.advance e).now.1.toNat
    let C := s.params.cyclesPerUs
    ((s.now.2.advance e).ccount < s.ccount →
      e + 1 + v * C ≤ v' * C + 2 * C ∧ v' * C + 2 ≤ v * C + e + C) ∧
    (¬ (s.now.2.advance e).ccount < s.ccount →
      e + 1 + v * C ≤ v' * C + C ∧ v' * C + 1 ≤ v * C + e + C)

/-- The clock never runs ahead of the ghost time: every step keeps `ClockBehind`, and it holds at reset
(40_timer.md R134 (a)). -/
def Obligations.ClockNeverAheadKept : Prop :=
  (∀ s t : State, Inv s → ClockBehind s → step s = .next t → ClockBehind t) ∧
  (∀ (P : Params) (draw : ResetDraw), ClockBehind (State.resetWith P draw))

/-- The micro-steps of `DELAY_MICROS` (40_timer.md R135): one timer step each; `d0` forms the target, `d1`
spins while the clock is above a wrapped target, `d2` returns at the target. -/
def Obligations.DelayMicroSteps : Prop :=
  ∀ (s : State) (d : BitVec 32) (start target : Micros),
    let v := s.now.1
    let i := Instr.delayMicros d
    (s.ready → exec i s = .next (s.now.2.setOp (.run i (.d
        (if v + d.setWidth 64 < v then .d1 v (v + d.setWidth 64) else .d2 v (v + d.setWidth 64)))))) ∧
    (s.op = .run i (.d (.d1 start target)) → exec i s = .next (s.now.2.setOp (.run i (.d
        (if v > target then .d1 start target else .d2 start target))))) ∧
    (s.op = .run i (.d (.d2 start target)) → v ≥ target → exec i s = .next (s.now.2.setOp .idle)) ∧
    (s.op = .run i (.d (.d2 start target)) → v < target → exec i s = .next s.now.2)

/-- `DELAY_MICROS 0` with no other agent stepping returns after two timer steps (40_timer.md R135 (a)). -/
def Obligations.DelayZeroTwoSteps : Prop :=
  ∀ s : State, s.ready →
    ∃ u, execTimes 1 (.delayMicros 0) s = .next u ∧
      exec (.delayMicros 0) u = .next { s with
        tAcc := s.now.2.tAcc
        tLast := s.ccount
        tCrit := .free
        trace := s.trace ++ [.now s.running s.ccount s.now.1, .now s.running s.ccount s.now.1] }

/-- Minimum duration (40_timer.md R136): a delay returns only when the timer has reached its start plus
`d`. -/
def Obligations.DelayMinimumDuration : Prop :=
  ∀ (s t : State) (d : BitVec 32) (start target : Micros), Inv s →
    s.op = .run (.delayMicros d) (.d (.d2 start target)) → exec (.delayMicros d) s = .next t → t.op = .idle →
    start + d.setWidth 64 ≤ s.now.1 ∧
      (start.toNat + d.toNat < 2 ^ 64 → d.toNat ≤ s.now.1.toNat - start.toNat)

/-! ## The waits -/

/-- The null-port guard (41_spinwait.md R151): on a port whose handle is null, every index `>= NPORTS`
included, each wait returns after one micro-step, the context is idle again, and nothing is changed. -/
def Obligations.WaitNullPortReturns : Prop :=
  ∀ (s : State) (p : PortIndex), s.ready → (s.handle p = .null ∨ nports ≤ p.toNat) →
    ∀ row ∈ waitTable s.params p, exec row.instr s = .next s

/-- The micro-step table of the waits (41_spinwait.md R150) for each of the four. -/
def Obligations.WaitMicroSteps : Prop :=
  ∀ (s : State) (p : PortIndex) (q : PortId), ∀ row ∈ waitTable s.params p,
    let i := row.instr
    (s.ready → s.isOpen p q → exec i s = .next (s.setOp (.run i (.w .w1)))) ∧
    (s.op = .run i (.w .w1) → s.handle p = .null →
      exec i s = .next { s with faults := s.faults ++ [⟨s.running, .stalePort p⟩] }) ∧
    (s.op = .run i (.w .w1) → s.isOpen p q → row.sat (s.port q).regs = true →
      exec i s = .next (s.setOp (if row.latch.isSome then .run i (.w .w4) else .idle))) ∧
    (s.op = .run i (.w .w1) → s.isOpen p q → row.sat (s.port q).regs = false →
      exec i s = .next (s.setOp (.run i (.w .w2)))) ∧
    (s.op = .run i (.w .w2) → exec i s =
      .next (State.setOp { s with wdtFeeds := s.wdtFeeds + 1, trace := s.trace ++ [.feed s.running] }
        (.run i (.w .w3)))) ∧
    (s.op = .run i (.w .w3) → exec i s =
      .next (State.setOp { s with trace := s.trace ++ [.yield s.running] } (.run i (.w .w1)))) ∧
    (∀ b, row.latch = some b → s.op = .run i (.w .w4) → portId? p = some q →
      exec i s = .next ((s.regWrite q .intClr (1 <<< b)).setOp .idle))

/-- The FIFO waits on an open port whose count is zero return at the first poll and change nothing
(41_spinwait.md R153, R154). -/
def Obligations.WaitFifoEmptyCompletes : Prop :=
  ∀ (s : State) (p : PortIndex) (q : PortId), s.ready → s.isOpen p q →
    ((s.port q).regs.txfifoCnt = 0 →
      ∃ u, execTimes 1 (.waitTxfifoEmpty p) s = .next u ∧ exec (.waitTxfifoEmpty p) u = .next s) ∧
    ((s.port q).regs.rxfifoCnt = 0 →
      ∃ u, execTimes 1 (.waitRxfifoEmpty p) s = .next u ∧ exec (.waitRxfifoEmpty p) u = .next s)

/-- The latch waits on an open port whose latch is set clear that one latch through `INT_CLR` and return
(41_spinwait.md R155, R156). -/
def Obligations.WaitLatchClears : Prop :=
  ∀ (s : State) (p : PortIndex) (q : PortId), Inv s → s.ready → s.isOpen p q →
    ∀ row ∈ waitTable s.params p, ∀ b, row.latch = some b → (s.port q).regs.intRaw.testBit b = true →
    ∃ u, execTimes 2 row.instr s = .next u ∧
      exec row.instr u = .next { s with
        ports := s.ports.set q { s.port q with
          regs := { (s.port q).regs with intRaw := (s.port q).regs.intRaw - 2 ^ b } }
        trace := s.trace ++ [.regW q .intClr (2 ^ b)] }

/-- One unsatisfied turn of a wait: poll, feed, yield, and back at the poll (41_spinwait.md R150, R159). -/
def Obligations.WaitUnsatisfiedTurn : Prop :=
  ∀ (s : State) (p : PortIndex) (q : PortId), s.isOpen p q →
    ∀ row ∈ waitTable s.params p, row.sat (s.port q).regs = false → s.op = .run row.instr (.w .w1) →
    execTimes 3 row.instr s = .next { s with
      wdtFeeds := s.wdtFeeds + 1
      trace := s.trace ++ [.feed s.running, .yield s.running] }

/-! ## The guarded operations -/

/-- The micro-steps of every guarded operation (42_guarded_regops.md R170): handle checks, lock attempt,
one write of the body at a time, release. -/
def Obligations.GuardedMicroSteps : Prop :=
  ∀ (s : State) (p : PortIndex) (q : PortId) (en : Bool) (blen ilen : BitVec 16) (v : BitVec 32),
    ∀ row ∈ guardedTable s.params p en blen ilen v,
    let i := row.1
    (s.ready → s.handle p = .null →
      exec i s = .next (State.setOp { s with faults := s.faults ++ [⟨s.running, .nullPort p⟩] }
        (.run i (.g .g0)))) ∧
    (s.ready → s.isOpen p q → exec i s = .next (s.setOp (.run i (.g .g1)))) ∧
    (s.op = .run i (.g .g1) → s.handle p = .null →
      exec i s = .next { s with faults := s.faults ++ [⟨s.running, .stalePort p⟩] }) ∧
    (s.op = .run i (.g .g1) → s.isOpen p q → (s.port q).lock = .free →
      exec i s = .next (State.setOp { s with
        ports := s.ports.set q { s.port q with lock := .held s.running }
        trace := s.trace ++ [.acq q s.running] } (.run i (.g .b1)))) ∧
    (∀ c, s.op = .run i (.g .g1) → s.isOpen p q → (s.port q).lock = .held c → exec i s = .next s) ∧
    (∀ k f x, row.2[k]? = some (f, x) → s.op = .run i (.g (bodyPhase k)) → portId? p = some q →
      exec i s = .next ((s.regWrite q f x).setOp
        (.run i (.g (if k + 1 < row.2.length then bodyPhase (k + 1) else .gR))))) ∧
    (s.op = .run i (.g .gR) → portId? p = some q →
      exec i s = .next (State.setOp { s with
        ports := s.ports.set q { s.port q with lock := .free }
        trace := s.trace ++ [.rel q s.running] } .idle))

/-- `SET_RS485_MODE` completes in four micro-steps, sets the one bit and changes nothing else but the trace
(42_guarded_regops.md R174, R182). -/
def Obligations.SetRs485ModeCompletes : Prop :=
  ∀ (s : State) (p : PortIndex) (q : PortId), s.ready → s.isOpen p q → (s.port q).lock = .free →
    ∃ u, execTimes 3 (.setRs485Mode p) s = .next u ∧ exec (.setRs485Mode p) u = .next { s with
      ports := s.ports.set q { s.port q with regs := { (s.port q).regs with rs485En := 1 } }
      trace := s.trace ++ [.acq q s.running, .regW q .rs485En 1, .rel q s.running] }

/-- `CFG_BREAK_GEN` completes in six micro-steps: the enable and the two lengths, each truncated to its
field, and no other field (42_guarded_regops.md R175, R173). -/
def Obligations.CfgBreakGenCompletes : Prop :=
  ∀ (s : State) (p : PortIndex) (q : PortId) (en : Bool) (blen ilen : BitVec 16),
    s.ready → s.isOpen p q → (s.port q).lock = .free →
    let e : Nat := if en then 1 else 0
    let b := blen.toNat % 2 ^ s.params.brkLenW
    let l := ilen.toNat % 2 ^ s.params.idleLenW
    ∃ u, execTimes 5 (.cfgBreakGen p en blen ilen) s = .next u ∧
      exec (.cfgBreakGen p en blen ilen) u = .next { s with
        ports := s.ports.set q { s.port q with
          regs := { (s.port q).regs with txdBrkEn := e, brkLen := b, idleLen := l } }
        trace := s.trace ++ [.acq q s.running, .regW q .txdBrkEn e, .regW q .brkLen b, .regW q .idleLen l,
          .rel q s.running] }

/-- `FORCE_TWO_STOP_BITS` completes in four micro-steps: the stop-bit field takes `TWO_STOP_CODE`
(42_guarded_regops.md R176). -/
def Obligations.ForceTwoStopBitsCompletes : Prop :=
  ∀ (s : State) (p : PortIndex) (q : PortId), s.params.Valid → s.ready → s.isOpen p q →
    (s.port q).lock = .free →
    ∃ u, execTimes 3 (.forceTwoStopBits p) s = .next u ∧ exec (.forceTwoStopBits p) u = .next { s with
      ports := s.ports.set q { s.port q with
        regs := { (s.port q).regs with stopBits := s.params.twoStopCode } }
      trace := s.trace ++ [.acq q s.running, .regW q .stopBits s.params.twoStopCode, .rel q s.running] }

/-- `ENABLE_BRK_DET` completes in six micro-steps: the break-detect enable is set through its alias, the
auto-baud state takes its reset value, the threshold becomes 1 (42_guarded_regops.md R177, 10_state.md
R46). -/
def Obligations.EnableBrkDetCompletes : Prop :=
  ∀ (s : State) (p : PortIndex) (q : PortId), s.params.Valid → s.ready → s.isOpen p q →
    (s.port q).lock = .free →
    let r := (s.port q).regs
    let r' : Regs := { r with autobaud := s.params.autobaudRst, rxfifoThrhd := 1 }
    let r'' : Regs := match s.params.brkdetAlias with
      | .inMask => { r' with intEna := r.intEna ||| 2 ^ s.params.brkDetBit }
      | .separate => { r' with brkDetEn := 1 }
    ∃ u, execTimes 5 (.enableBrkDet p) s = .next u ∧ exec (.enableBrkDet p) u = .next { s with
      ports := s.ports.set q { s.port q with regs := r'' }
      trace := s.trace ++ [.acq q s.running, .regW q .brkDetEn 1, .regW q .autobaud s.params.autobaudRst,
        .regW q .rxfifoThrhd 1, .rel q s.running] }

/-- `DISABLE_BRK_DET` completes in four micro-steps: the break-detect enable reads 0 afterwards, every
other bit of the enable mask and every other field is unchanged (42_guarded_regops.md R178). -/
def Obligations.DisableBrkDetCompletes : Prop :=
  ∀ (s : State) (p : PortIndex) (q : PortId), Inv s → s.ready → s.isOpen p q → (s.port q).lock = .free →
    ∃ u t, execTimes 3 (.disableBrkDet p) s = .next u ∧ exec (.disableBrkDet p) u = .next t ∧
      (t.port q).regs.brkdet s.params = false ∧
      (∀ k, k ≠ s.params.brkDetBit → (t.port q).regs.intEna.testBit k = (s.port q).regs.intEna.testBit k) ∧
      t = { s with
        ports := s.ports.set q { s.port q with regs := { (s.port q).regs with
          intEna := (t.port q).regs.intEna
          brkDetEn := (t.port q).regs.brkDetEn } }
        trace := s.trace ++ [.acq q s.running, .regW q .brkDetEn 0, .rel q s.running] } ∧
      (s.params.brkdetAlias = .separate → (t.port q).regs.intEna = (s.port q).regs.intEna)

/-- `DISABLE_ALL_INTS` completes in five micro-steps: the enable mask and every latched flag are zero
(42_guarded_regops.md R179). -/
def Obligations.DisableAllIntsCompletes : Prop :=
  ∀ (s : State) (p : PortIndex) (q : PortId), s.ready → s.isOpen p q → (s.port q).lock = .free →
    ∃ u, execTimes 4 (.disableAllInts p) s = .next u ∧ exec (.disableAllInts p) u = .next { s with
      ports := s.ports.set q { s.port q with regs := { (s.port q).regs with intEna := 0, intRaw := 0 } }
      trace := s.trace ++ [.acq q s.running, .regW q .intEna 0, .regW q .intClr (2 ^ s.params.intW - 1),
        .rel q s.running] }

/-- `SET_INT_MASK` completes in four micro-steps: the enable mask takes the truncated operand and the
latched flags are untouched (42_guarded_regops.md R180). -/
def Obligations.SetIntMaskCompletes : Prop :=
  ∀ (s : State) (p : PortIndex) (q : PortId) (v : BitVec 32), s.ready → s.isOpen p q →
    (s.port q).lock = .free →
    let x := v.toNat % 2 ^ s.params.intW
    ∃ u, execTimes 3 (.setIntMask p v) s = .next u ∧ exec (.setIntMask p v) u = .next { s with
      ports := s.ports.set q { s.port q with regs := { (s.port q).regs with intEna := x } }
      trace := s.trace ++ [.acq q s.running, .regW q .intEna x, .rel q s.running] }

/-- `CLEAR_ALL_INTS` completes in four micro-steps: the flags of `CLR_ALL_MASK` are cleared, the others
and the enable mask are unchanged (42_guarded_regops.md R181). -/
def Obligations.ClearAllIntsCompletes : Prop :=
  ∀ (s : State) (p : PortIndex) (q : PortId), Inv s → s.ready → s.isOpen p q → (s.port q).lock = .free →
    ∃ u t, execTimes 3 (.clearAllInts p) s = .next u ∧ exec (.clearAllInts p) u = .next t ∧
      (∀ k, (t.port q).regs.intRaw.testBit k =
        ((s.port q).regs.intRaw.testBit k && !s.params.clrAllMask.testBit k)) ∧
      t = { s with
        ports := s.ports.set q { s.port q with regs := { (s.port q).regs with
          intRaw := (t.port q).regs.intRaw } }
        trace := s.trace ++ [.acq q s.running, .regW q .intClr s.params.clrAllMask, .rel q s.running] }

/-- A lock attempt (20_memory.md R80): it succeeds exactly on a free lock, which is then held by the
running context, with its event; otherwise, whoever holds the lock, the operation stays in its acquire
phase and the state is unchanged, for any number of attempts. -/
def Obligations.LockSpinUnchanged : Prop :=
  ∀ (s : State) (q : PortId),
    ((s.port q).lock = .free → s.lockTry q = some { s with
      ports := s.ports.set q { s.port q with lock := .held s.running }
      trace := s.trace ++ [.acq q s.running] }) ∧
    (∀ c, (s.port q).lock = .held c → s.lockTry q = none) ∧
    (SpinsOnLock s q → ∀ i ph, s.op = .run i ph → ∀ n, execTimes n i s = .next s)

/-- A spin on a lock does not end while no interrupt context is entered: no step of the hardware, of the
counter, of the host or of the context changes that, and the lock keeps its holder (70_reset_and_hazards.md
R291). -/
def Obligations.LockSpinPersists : Prop :=
  ∀ (s t : State) (q : PortId), SpinsOnLock s q → (∀ k ms, s.moves ≠ .interrupt k :: ms) →
    step s = .next t →
      SpinsOnLock t q ∧ t.op = s.op ∧ t.stack = s.stack ∧ (t.port q).lock = (s.port q).lock

/-- A field write changes the one field to the truncated value and records it; every other field of the
port, and the rest of the state, is unchanged (20_memory.md R74, 10_state.md R46). -/
def Obligations.RegWriteChangesOneField : Prop :=
  ∀ (s : State) (q : PortId) (f : WField) (v : Nat), Inv s →
    (∀ g, stored f = some g → (s.regWrite q f v).regRead q g = v % 2 ^ f.width s.params) ∧
    (∀ g, touches s.params f g = false → (s.regWrite q f v).regRead q g = s.regRead q g) ∧
    (∀ k, k ≠ s.params.brkDetBit → f = .brkDetEn →
      ((s.regWrite q f v).regRead q .intEna).testBit k = (s.regRead q .intEna).testBit k) ∧
    s.regWrite q f v = { s with
      ports := s.ports.set q { s.port q with regs := ((s.regWrite q f v).port q).regs }
      trace := s.trace ++ [.regW q f (v % 2 ^ f.width s.params)] }

/-- Write 1 to clear (10_state.md R42): a write of `INT_CLR` clears exactly the flags whose bits are 1. -/
def Obligations.IntClrClearsWrittenOnes : Prop :=
  ∀ (s : State) (q : PortId) (v : Nat), Inv s → v < 2 ^ s.params.intW →
    (∀ k, ((s.regWrite q .intClr v).port q).regs.intRaw.testBit k =
      ((s.port q).regs.intRaw.testBit k && !v.testBit k)) ∧
    (s.regWrite q .intClr v).port q = { s.port q with
      regs := { (s.port q).regs with intRaw := ((s.regWrite q .intClr v).port q).regs.intRaw } }

/-- While a context is inside a guarded operation on a port, between its `LockTry` and its `Unlock`, it holds
the port's lock and no step of another context writes a configuration field of that port (20_memory.md R77 (b),
42_guarded_regops.md R183): only the status fields can change. So it is for a context that holds the lock of a
run that is not refused, R242's premise. -/
def Obligations.LockedConfigStable : Prop :=
  ∀ (s t : State) (q : PortId) (c : Ctx), Inv s →
    ((s.opOf c).holds q = true ∨ (s.refused = false ∧ (s.port q).lock = .held c)) → c ≠ s.running →
    step s = .next t →
    (s.port q).lock = .held c ∧ (t.port q).lock = .held c ∧ (t.port q).handle = .valid ∧
      (t.port q).regs = { (s.port q).regs with
        txfifoCnt := (t.port q).regs.txfifoCnt
        rxfifoCnt := (t.port q).regs.rxfifoCnt
        intRaw := (t.port q).regs.intRaw }

/-! ## The break -/

/-- The micro-steps of a guarded operation in place, inside `SEND_BREAK` (`s2`, `s9`) and `END` (`e1`)
(43_break.md R201, 44_facade.md R223, 10_state.md R24): the table of 42_guarded_regops.md R170, with the
enclosing operation's next phase at the release; a fault of it is a fault of the enclosing operation
(60_exceptions.md R242). -/
def Obligations.SubOperationMicroSteps : Prop :=
  ∀ (s : State) (p : PortIndex) (q : PortId) (d : BitVec 32) (l : BreakLocals),
    ∀ row ∈ subTable s.params p d l,
    let i := row.instr
    let phaseIs (x : GPhase) : Prop := s.op = .run i (row.phase x)
    (phaseIs .g0 → s.handle p = .null →
      exec i s = .next { s with faults := s.faults ++ [⟨s.running, .nullPort p⟩] }) ∧
    (phaseIs .g0 → s.isOpen p q → exec i s = .next (s.setOp (.run i (row.phase .g1)))) ∧
    (phaseIs .g1 → s.handle p = .null →
      exec i s = .next { s with faults := s.faults ++ [⟨s.running, .stalePort p⟩] }) ∧
    (phaseIs .g1 → s.isOpen p q → (s.port q).lock = .free →
      exec i s = .next (State.setOp { s with
        ports := s.ports.set q { s.port q with lock := .held s.running }
        trace := s.trace ++ [.acq q s.running] } (.run i (row.phase .b1)))) ∧
    (∀ c, phaseIs .g1 → s.isOpen p q → (s.port q).lock = .held c → exec i s = .next s) ∧
    (∀ k f x, row.body[k]? = some (f, x) → phaseIs (bodyPhase k) → portId? p = some q →
      exec i s = .next ((s.regWrite q f x).setOp
        (.run i (row.phase (if k + 1 < row.body.length then bodyPhase (k + 1) else .gR))))) ∧
    (phaseIs .gR → portId? p = some q →
      exec i s = .next (State.setOp { s with
        ports := s.ports.set q { s.port q with lock := .free }
        trace := s.trace ++ [.rel q s.running] } row.after))

/-- The micro-steps of `SEND_BREAK` (43_break.md R201) outside its guarded sub-operations; the hold takes
the delay's (40_timer.md R135). -/
def Obligations.SendBreakMicroSteps : Prop :=
  ∀ (s : State) (p : PortIndex) (q : PortId) (d : BitVec 32) (pin : Nat) (l : BreakLocals),
    let i := Instr.sendBreak p d
    (s.ready → s.running = .main → s.handle p = .null →
      exec i s = .next (State.setOp { s with faults := s.faults ++ [⟨.main, .nullPort p⟩] } (.run i .s0))) ∧
    (s.ready → s.running = .main → s.isOpen p q →
      exec i s = .next (s.setOp (.run i (.s1 (txPin s.params q))))) ∧
    (s.op = .run i (.s1 pin) → portId? p = some q →
      exec i s = .next (s.setOp (.run i (.s2 ⟨pin, (s.port q).regs.intEna⟩ .g0)))) ∧
    (s.op = .run i (.s3 l) → exec i s = .next (State.setOp { s with
      pins := Pins.set s.pins l.pin { Pins.get s.pins l.pin with mux := .detached }
      trace := s.trace ++ [.mux l.pin .detached] } (.run i (.s4 l)))) ∧
    (s.op = .run i (.s4 l) → exec i s = .next (State.setOp { s with
      pins := Pins.set s.pins l.pin { Pins.get s.pins l.pin with dir := .output } } (.run i (.s5 l)))) ∧
    (s.op = .run i (.s5 l) → exec i s = .next (State.setOp { s with
      pins := Pins.set s.pins l.pin { Pins.get s.pins l.pin with level := false }
      trace := s.trace ++ [.line l.pin false] } (.run i (.s6 l .d0)))) ∧
    (s.op = .run i (.s6 l .d0) → exec i s = .next (s.now.2.setOp (.run i (.s6 l
        (if s.now.1 + d.setWidth 64 < s.now.1 then .d1 s.now.1 (s.now.1 + d.setWidth 64)
         else .d2 s.now.1 (s.now.1 + d.setWidth 64)))))) ∧
    (∀ start target, s.op = .run i (.s6 l (.d1 start target)) → exec i s = .next (s.now.2.setOp (.run i (.s6 l
        (if s.now.1 > target then .d1 start target else .d2 start target))))) ∧
    (∀ start target, s.op = .run i (.s6 l (.d2 start target)) →
      (s.now.1 ≥ target → exec i s = .next (s.now.2.setOp (.run i (.s7 l)))) ∧
      (s.now.1 < target → exec i s = .next s.now.2)) ∧
    (s.op = .run i (.s7 l) → exec i s = .next (State.setOp { s with
      pins := Pins.set s.pins l.pin { Pins.get s.pins l.pin with level := true }
      trace := s.trace ++ [.line l.pin true] } (.run i (.s8 l)))) ∧
    (s.op = .run i (.s8 l) → exec i s = .next (State.setOp { s with
      pins := Pins.set s.pins l.pin { Pins.get s.pins l.pin with mux := .attached (.uartTx p.toNat) }
      trace := s.trace ++ [.mux l.pin (.attached (.uartTx p.toNat))] } (.run i (.s9 l .g0))))

/-- `SEND_BREAK` presented by an interrupt context is refused before anything else, and no state changes
but the mark; the timer operations are not restricted (43_break.md R203). -/
def Obligations.SendBreakOutsideMainRefused : Prop :=
  ∀ (s : State) (p : PortIndex) (d : BitVec 32), s.ready → s.running ≠ .main →
    exec (.sendBreak p d) s = .next { s with
      refused := true
      refusals := s.refusals ++ [⟨s.running, .breakOutsideMain⟩] } ∧
    (∃ t, exec .nowMicros s = .next t ∧ t.refused = s.refused) ∧
    (∃ t, exec (.delayMicros d) s = .next t ∧ t.refused = s.refused)

/-- From its presentation to the hold, `SEND_BREAK` with the lock free takes ten micro-steps: the mask is
in the snapshot, mask and flags are zero, and the pin is detached, an output, low (43_break.md R201 `s0`
to `s5`). -/
def Obligations.SendBreakReachesHold : Prop :=
  ∀ (s : State) (p : PortIndex) (q : PortId) (d : BitVec 32), Pins.wf s.pins = true → s.ready →
    s.running = .main → s.isOpen p q → (s.port q).lock = .free →
    let n := txPin s.params q
    ∃ t, execTimes 10 (.sendBreak p d) s = .next t ∧
      t.op = .run (.sendBreak p d) (.s6 ⟨n, (s.port q).regs.intEna⟩ .d0) ∧
      t.pin n = { s.pin n with mux := .detached, dir := .output, level := false } ∧
      (∀ k, k ≠ n → t.pin k = s.pin k) ∧
      (∀ c, c ≠ .main → t.opOf c = s.opOf c) ∧ (∀ c, t.resultOf c = s.resultOf c) ∧
      t = { s with
        ctxs := t.ctxs
        pins := t.pins
        ports := s.ports.set q { s.port q with regs := { (s.port q).regs with intEna := 0, intRaw := 0 } }
        trace := s.trace ++ [.acq q .main, .regW q .intEna 0, .regW q .intClr (2 ^ s.params.intW - 1),
          .rel q .main, .mux n .detached, .line n false] }

/-- From the end of the hold, `SEND_BREAK` with the lock free completes in six micro-steps: the pin is
high and attached to the port's transmit signal, and the enable mask is the snapshot again (43_break.md
R201 `s7` to `s9`, R204). -/
def Obligations.SendBreakRestores : Prop :=
  ∀ (s : State) (p : PortIndex) (q : PortId) (d : BitVec 32) (l : BreakLocals), Pins.wf s.pins = true →
    s.op = .run (.sendBreak p d) (.s7 l) → l.snap < 2 ^ s.params.intW → s.isOpen p q →
    (s.port q).lock = .free →
    ∃ u t, execTimes 5 (.sendBreak p d) s = .next u ∧ exec (.sendBreak p d) u = .next t ∧ t.op = .idle ∧
      t.pin l.pin = { s.pin l.pin with mux := .attached (.uartTx q), level := true } ∧
      (∀ k, k ≠ l.pin → t.pin k = s.pin k) ∧
      (∀ c, c ≠ s.running → t.opOf c = s.opOf c) ∧ (∀ c, t.resultOf c = s.resultOf c) ∧
      t = { s with
        ctxs := t.ctxs
        pins := t.pins
        ports := s.ports.set q { s.port q with regs := { (s.port q).regs with intEna := l.snap } }
        trace := s.trace ++ [.line l.pin true, .mux l.pin (.attached (.uartTx q)), .acq q s.running,
          .regW q .intEna l.snap, .rel q s.running] }

/-- A whole `SEND_BREAK p, 0` with no other agent stepping: eighteen micro-steps, the events of 43_break.md
R202 in their order, the enable mask as it was, the pin attached, high and an output, the flags cleared
(R201 (a), R204). -/
def Obligations.SendBreakZeroCompletes : Prop :=
  ∀ (s : State) (p : PortIndex) (q : PortId), Inv s → s.ready → s.running = .main → s.isOpen p q →
    (s.port q).lock = .free →
    let n := txPin s.params q
    ∃ u t, execTimes 17 (.sendBreak p 0) s = .next u ∧ exec (.sendBreak p 0) u = .next t ∧
      t.pin n = { s.pin n with mux := .attached (.uartTx q), dir := .output, level := true } ∧
      (∀ k, k ≠ n → t.pin k = s.pin k) ∧
      t = { s with
        tAcc := s.now.2.tAcc
        tLast := s.ccount
        pins := t.pins
        ports := s.ports.set q { s.port q with regs := { (s.port q).regs with intRaw := 0 } }
        trace := s.trace ++ [.acq q .main, .regW q .intEna 0, .regW q .intClr (2 ^ s.params.intW - 1),
          .rel q .main, .mux n .detached, .line n false, .now .main s.ccount s.now.1,
          .now .main s.ccount s.now.1, .line n true, .mux n (.attached (.uartTx q)), .acq q .main,
          .regW q .intEna (s.port q).regs.intEna, .rel q .main] }

/-- The waveform of the hold (43_break.md R205): every step keeps the transmit pin detached, an output and
low as `SEND_BREAK` in `MAIN` has made it, whatever the other agents do, an `OPEN` of the same port by an
interrupt context apart (log entry 26); and in the hold the port's transmit line is low. -/
def Obligations.LineLowInHold : Prop :=
  (∀ s t : State, Inv s → LowInHold s →
    (∀ p, s.nextInstr = some (.openPort p) → (s.opOf .main).pinDetached p = false) →
    step s = .next t → LowInHold t) ∧
  (∀ (s : State) (p : PortIndex) (q : PortId), LowInHold s → portId? p = some q →
    (s.opOf .main).inHold p = true → s.txLine q = some false)

/-! ## The facade -/

/-- `OPEN` (44_facade.md R221): of a missing port and of an open port it faults; of a closed one it gives a
valid handle, a free lock and a fresh event-queue token, one that no port held, and leaves the port's
fields, its transmit signal and its transmit pin at free values of their types (log entry 11); nothing else
changes. Which fresh token it is, the number `nextQueue`, is the model's choice (log entry 13). -/
def Obligations.OpenPortEffect : Prop :=
  ∀ (s : State) (p : PortIndex), s.ready →
    (nports ≤ p.toNat → exec (.openPort p) s = .next (State.setOp
      { s with faults := s.faults ++ [⟨s.running, .badPort p⟩] } (.run (.openPort p) .o0))) ∧
    (∀ q, s.isOpen p q → exec (.openPort p) s = .next (State.setOp
      { s with faults := s.faults ++ [⟨s.running, .portAlreadyOpen p⟩] } (.run (.openPort p) .o0))) ∧
    (∀ q, portId? p = some q → (s.port q).handle = .null →
      ∃ t, exec (.openPort p) s = .next t ∧
        (t.port q).handle = .valid ∧ (t.port q).lock = .free ∧ (t.port q).evq = some s.nextQueue ∧
        s.nextQueue < t.nextQueue ∧ (Inv s → ∀ q', (s.port q').evq ≠ (t.port q).evq) ∧
        (t.port q).regs = (Config.openRegs s.draws).fit s.params ∧ (t.port q).uTx = Config.openTx s.draws ∧
        (Pins.wf s.pins = true → t.pin (txPin s.params q) = Config.openPin s.draws ∧
          ∀ k, k ≠ txPin s.params q → t.pin k = s.pin k) ∧
        t = { s with
          ports := s.ports.set q (t.port q)
          pins := t.pins
          draws := s.draws + 1
          nextQueue := t.nextQueue })

/-- `SET_BAUD` is refused and changes nothing but the mark with its reason (44_facade.md R222). -/
def Obligations.SetBaudRefused : Prop :=
  decode 0x410200000003D090 = some (.setBaud 2 250000) ∧
  ∀ (s : State) (p : PortIndex) (v : BitVec 32), s.ready →
    decode (encode (.setBaud p v)) = some (.setBaud p v) ∧
    exec (.setBaud p v) s = .next { s with
      refused := true
      refusals := s.refusals ++ [⟨s.running, .baudNotInBlock⟩] }

/-- The micro-steps of `END` outside its sub-operation (44_facade.md R223). -/
def Obligations.EndMicroSteps : Prop :=
  ∀ (s : State) (p : PortIndex) (q : PortId),
    let i := Instr.endPort p
    (s.ready → s.handle p = .null →
      exec i s = .next (State.setOp { s with faults := s.faults ++ [⟨s.running, .nullPort p⟩] }
        (.run i .e0))) ∧
    (s.ready → s.isOpen p q → exec i s = .next (s.setOp (.run i (.e1 .g0)))) ∧
    (s.op = .run i .e2 → exec i s = .next (State.setOp { s with
      dbgPort := if s.dbgPort = some p then none else s.dbgPort } (.run i .e3))) ∧
    (s.op = .run i .e3 → portId? p = some q → exec i s = .next (State.setOp { s with
      ports := s.ports.set q { s.port q with evq := none, lock := .free } } (.run i .e4))) ∧
    (s.op = .run i .e4 → portId? p = some q → exec i s = .next (State.setOp { s with
      ports := s.ports.set q { s.port q with handle := .null } } .idle))

/-- A whole `END` with the lock free: nine micro-steps (44_facade.md R223). -/
def Obligations.EndPortCompletes : Prop :=
  ∀ (s : State) (p : PortIndex) (q : PortId), s.ready → s.isOpen p q → (s.port q).lock = .free →
    ∃ u, execTimes 8 (.endPort p) s = .next u ∧ exec (.endPort p) u = .next { s with
      ports := s.ports.set q { s.port q with
        handle := .null
        evq := none
        regs := { (s.port q).regs with intEna := 0, intRaw := 0 } }
      dbgPort := if s.dbgPort = some p then none else s.dbgPort
      trace := s.trace ++ [.acq q s.running, .regW q .intEna 0, .regW q .intClr (2 ^ s.params.intW - 1),
        .rel q s.running] }

/-- `GET_DBG_PORT` (44_facade.md R224). -/
def Obligations.GetDbgPortDelivers : Prop :=
  decode 0x4300000000000000 = some .getDbgPort ∧
  ∀ s : State, s.ready →
    exec .getDbgPort s = .next { s with ctxs := s.ctxs.set s.running ⟨.idle, some (match s.dbgPort with
      | some p => BitVec.ofNat 64 (0x100 + p.toNat)
      | none => 0)⟩ }

/-- `SET_DBG_PORT` (44_facade.md R225). -/
def Obligations.SetDbgPortWrites : Prop :=
  decode 0x4401000100000000 = some (.setDbgPort 1 true) ∧
  decode 0x4400000000000000 = some (.setDbgPort 0 false) ∧
  decode 0x4402000000000000 = none ∧
  ∀ (s : State) (p : PortIndex) (valid : Bool), s.ready →
    exec (.setDbgPort p valid) s = .next { s with dbgPort := if valid then some p else none }

/-- Handle lifecycle (44_facade.md R226): a handle becomes valid only at `o0` of an `OPEN` of that port, and
null only at `e4` of an `END` of that port. -/
def Obligations.HandleLifecycle : Prop :=
  ∀ (s t : State) (q : PortId), step s = .next t →
    ((s.port q).handle = .null → (t.port q).handle = .valid →
      ∃ p, portId? p = some q ∧ s.nextInstr = some (.openPort p)) ∧
    ((s.port q).handle = .valid → (t.port q).handle = .null →
      ∃ p, portId? p = some q ∧ s.nextInstr = some (.endPort p) ∧ s.op = .run (.endPort p) .e4)

/-! ## Interrupts, faults and the other agents -/

/-- Interrupt entry (60_exceptions.md R257): with a cause available it pushes a fresh idle context with no
result and records it with the cause, and changes nothing else; a port is a cause exactly when it requests.
The context is one not used before: it is not on the stack and no entry of it is on record. Which unused
number it takes, that of the contexts entered so far, is the model's choice (log entry 14).
A model with a depth bound refuses instead of entering beyond it: R242's refusal, in the running context, whose
operation ends (that it is the running context's is read from R242, log entry 16; the bound counts contexts,
`MAIN` among them). An unavailable move is refused (log entries 2 and 17). -/
def Obligations.InterruptEntry : Prop :=
  ∀ (s : State) (k : Cause) (ms : List Move), s.faults = [] →
    let n := s.ctxs.isrs.length
    let available : Bool := match k with
      | .uart q => ((s.port q).regs.intRaw &&& (s.port q).regs.intEna) != 0
      | .external => true
    let bounded : Bool := match s.params.depthBound with
      | some b => decide (b < s.ctxStack.length + 1)
      | none => false
    (available = true → bounded = false →
      ∃ t, step { s with moves := .interrupt k :: ms } = .next t ∧
        (Inv s → .isr n ∉ s.ctxStack ∧ ∀ k', .intEnter (.isr n) k' ∉ s.trace) ∧
        t.ctxs.isrs.length = n + 1 ∧
        t.ctxStack = s.ctxStack ++ [.isr n] ∧ t.running = .isr n ∧
        t.opOf (.isr n) = .idle ∧ t.resultOf (.isr n) = none ∧
        (∀ c, c ≠ .isr n → t.opOf c = s.opOf c ∧ t.resultOf c = s.resultOf c) ∧
        t = { s with
          stack := n :: s.stack
          ctxs := t.ctxs
          trace := s.trace ++ [.intEnter (.isr n) k]
          moves := ms }) ∧
    (available = true → bounded = true →
      step { s with moves := .interrupt k :: ms } = .next (State.setOp { s with
        refused := true
        refusals := s.refusals ++ [⟨s.running, .nestingTooDeep⟩]
        moves := ms } .idle)) ∧
    (available = false →
      step { s with moves := .interrupt k :: ms } = .refused .moveUnavailable)

/-- Interrupt exit (60_exceptions.md R259): an idle interrupt context is popped and recorded, the context
beneath runs again with its operation state intact, and nothing else changes; `MAIN` never exits and a
busy context does not (the moves and their refusal are the model's, log entries 2 and 17). -/
def Obligations.InterruptExit : Prop :=
  ∀ (s : State) (n : Nat) (rest : List Nat) (ms : List Move), s.faults = [] →
    (s.stack = n :: rest → s.op = .idle →
      step { s with moves := .exitInterrupt :: ms } = .next { s with
        stack := rest
        trace := s.trace ++ [.intExit (.isr n)]
        moves := ms }) ∧
    (s.stack = [] → step { s with moves := .exitInterrupt :: ms } = .refused .moveUnavailable) ∧
    (s.op ≠ .idle → step { s with moves := .exitInterrupt :: ms } = .refused .moveUnavailable)

/-- Quiescence (60_exceptions.md R242): with a fault recorded no agent takes a further step; and no step
shortens the fault record or clears the refusal mark. -/
def Obligations.FaultedMachineIsQuiescent : Prop :=
  (∀ (s : State) (f : FaultRecord) (fs : List FaultRecord), s.faults = f :: fs →
    step s = .fault (.quiescent f.ctx f.cause)) ∧
  (∀ s t : State, step s = .next t →
    (∃ fs, t.faults = s.faults ++ fs) ∧ (s.refused = true → t.refused = true) ∧
      ∃ rs, t.refusals = s.refusals ++ rs)

/-- The hardware's liberty (10_state.md R52): any FIFO counts of the width, any flags set and none cleared,
any transmit signal, and nothing else; the move is the model's (log entries 2 and 28). -/
def Obligations.UartHardwareStep : Prop :=
  ∀ (s : State) (q : PortId) (tx rx m : Nat) (line : Bool) (ms : List Move), s.faults = [] →
    ∃ t, step { s with moves := .uart q tx rx m line :: ms } = .next t ∧
      t = { s with
        moves := ms
        ports := s.ports.set q { s.port q with
          regs := { (s.port q).regs with
            txfifoCnt := tx % 2 ^ s.params.cntW
            rxfifoCnt := rx % 2 ^ s.params.cntW
            intRaw := (t.port q).regs.intRaw }
          uTx := line } } ∧
      ∀ k, (t.port q).regs.intRaw.testBit k =
        ((s.port q).regs.intRaw.testBit k || (decide (k < s.params.intW) && m.testBit k))

/-- The cycle counter advances by any amount: `TIME_CYC` grows by `k` and `CCOUNT` by `k` modulo its period
(10_state.md R53, R30), and nothing else changes; the move is the model's (log entry 2). -/
def Obligations.CounterAdvances : Prop :=
  ∀ (s : State) (k : Nat) (ms : List Move), s.faults = [] →
    ∃ t, step { s with moves := .advance k :: ms } = .next t ∧
      t = { s with moves := ms, timeCyc := s.timeCyc + k } ∧
      t.ccount = (s.ccount + k) % 2 ^ s.params.cycW

/-! ## Reset and invariants -/

/-- The reset values of 10_state.md R60, for every draw of the unspecified ones. -/
def Obligations.ResetValues : Prop :=
  ∀ (P : Params) (draw : ResetDraw), draw.Fits P →
    let s := State.resetWith P draw
    s.ctxStack = [.main] ∧ (∀ c, s.opOf c = .idle ∧ s.resultOf c = none) ∧
    s.faults = [] ∧ s.refused = false ∧ s.refusals = [] ∧ s.trace = [] ∧
    s.ccount = draw.ccount ∧ s.timeCyc = draw.ccount ∧ s.tLast = 0 ∧ s.tAcc = 0 ∧ s.tCrit = .free ∧
    (∀ p, s.handle p = .null) ∧ (∀ q, (s.port q).lock = .free ∧ (s.port q).evq = none) ∧
    (∀ q, (s.port q).regs = draw.regs[q] ∧ (s.port q).uTx = draw.uTx[q]) ∧
    s.pins = draw.pins ∧ s.dbgPort = draw.dbgPort ∧ s.wdtFeeds = 0

/-- Every step keeps the invariant: distinct contexts, phases of their tables, fields within their widths,
the pin list canonical, `T_CRIT` free, the lock discipline of 20_memory.md R82 and 44_facade.md R227 (that a
held lock has a context inside a guarded operation, in a run that is not refused: R242's premise, log entry 16),
and event-queue tokens and context numbers below the next ones (the model's numbers, log entries 13 and 14). -/
def Obligations.EveryStepKeepsInv : Prop :=
  ∀ s t : State, Inv s → step s = .next t → Inv t

/-- The invariant holds at reset for every draw, and the reset state is final (10_state.md R60,
70_reset_and_hazards.md R283); so it is for `State.reset`, whose draw and parameters are the model's (log
entries 1 and 7 to 10). -/
def Obligations.InvAtReset : Prop :=
  (∀ (P : Params) (draw : ResetDraw), P.Valid → draw.Fits P →
    Inv (State.resetWith P draw) ∧ Final (State.resetWith P draw)) ∧
  Inv State.reset ∧ Final State.reset

/-- Every micro-step of every operation answers a next state: in a state that meets the invariant, whether
the context is idle or at any phase of the operation, `exec` answers neither `Outcome.fault` nor
`Outcome.refused`. This rests on how the model reads 00_scope.md R15, which lists a fault and a refusal as
outcomes apart from a next state: a raise and a spec refusal are next states of this model, with the fault or
the refusal recorded (DEDUCED, log entries 5 and 6), and the other two outcomes are kept for the model's own
stops (log entries 17 and 18). So the statement says that `exec` never meets one of those stops; it does not say
that no operation faults or is refused. -/
def Obligations.EveryMicroStepAnswersNext : Prop :=
  ∀ (s : State) (i : Instr), Inv s → (s.op = .idle ∨ ∃ ph, s.op = .run i ph) → ∃ t, exec i s = .next t

/-- At most one context holds a port's lock, and a handle is never null under a holder (20_memory.md R82
(a), 44_facade.md R227). -/
def Obligations.LockHolderUnique : Prop :=
  ∀ (s t : State) (q : PortId) (c c' : Ctx), Inv s → step s = .next t →
    (t.opOf c).holds q = true → (t.opOf c').holds q = true → c = c' ∧ (t.port q).handle = .valid

/-- The 32-bit accesses of 20_memory.md R72 and R75 over the map of R71: a read shows every readable field of
its register at its bits; a write gives every writable field of its register its bits, clears flags through
`INT_CLR`, and changes no other field, no other port and nothing else; a misaligned or narrow access is
refused. The map's bit ranges against the fields' widths are the model's reading (log entry 19). -/
def Obligations.RegisterMapAccess : Prop :=
  ∀ (s : State) (q : PortId), Inv s →
    (∃ w, s.memRead q 0x04 4 = .ok w ∧ w.toNat % 2 ^ s.params.intW = (s.port q).regs.intRaw) ∧
    (∃ w, s.memRead q 0x0C 4 = .ok w ∧ w.toNat % 2 ^ s.params.intW = (s.port q).regs.intEna) ∧
    (∀ off, off % 4 = 0 → ∃ w, s.memRead q off 4 = .ok w ∧
      ∀ x ∈ readMap s.params (s.port q).regs, x.off = off → x.showsIn w) ∧
    (∀ off (w : BitVec 32), off % 4 = 0 → s.memWrite q off 4 w = .next { s with
      ports := s.ports.set q { s.port q with regs := regsWritten s.params (s.port q).regs off w } }) ∧
    (∀ w : BitVec 32, ∃ t, s.memWrite q 0x10 4 w = .next t ∧
      ∀ k, (t.port q).regs.intRaw.testBit k = ((s.port q).regs.intRaw.testBit k && !w.toNat.testBit k)) ∧
    (∀ off size, (off % 4 ≠ 0 ∨ size ≠ 4) →
      s.memRead q off size = .error .notARegisterAccess ∧
      ∀ w, s.memWrite q off size w = .refused .notARegisterAccess)
end

