-- ==== Sys2Proof/Laws/Decode.lean ====
section
/-! SUPPORT. The fields of a command word read back, and the byte order of host memory. -/

namespace Sys2Proof

variable (opc : BitVec 8) (p : PortIndex) (argh : BitVec 16) (argl : BitVec 32)

@[simp] theorem Command.opc_ofFields : (Command.ofFields opc p argh argl).opc = opc := by
  apply BitVec.eq_of_getLsbD_eq
  intro i hi
  simp only [Command.opc, Command.ofFields, BitVec.getLsbD_extractLsb', BitVec.getLsbD_append, hi]
  simp [show ¬ 56 + i < 32 by omega, show ¬ 56 + i - 32 < 16 by omega, show ¬ 56 + i - 32 - 16 < 8 by omega,
    show 56 + i - 32 - 16 - 8 = i by omega]

@[simp] theorem Command.port_ofFields : (Command.ofFields opc p argh argl).port = p := by
  apply BitVec.eq_of_getLsbD_eq
  intro i hi
  simp only [Command.port, Command.ofFields, BitVec.getLsbD_extractLsb', BitVec.getLsbD_append, hi]
  simp [show ¬ 48 + i < 32 by omega, show ¬ 48 + i - 32 < 16 by omega, show 48 + i - 32 - 16 = i by omega]
  omega

@[simp] theorem Command.argh_ofFields : (Command.ofFields opc p argh argl).argh = argh := by
  apply BitVec.eq_of_getLsbD_eq
  intro i hi
  simp only [Command.argh, Command.ofFields, BitVec.getLsbD_extractLsb', BitVec.getLsbD_append, hi]
  simp [show ¬ 32 + i < 32 by omega, show 32 + i - 32 = i by omega]
  omega

@[simp] theorem Command.argl_ofFields : (Command.ofFields opc p argh argl).argl = argl := by
  apply BitVec.eq_of_getLsbD_eq
  intro i hi
  simp only [Command.argl, Command.ofFields, BitVec.getLsbD_extractLsb', BitVec.getLsbD_append, hi]
  simp [hi]

/-- The four fields make up the word (30_encoding.md R101). -/
theorem Command.ofFields_fields (w : Command) : Command.ofFields w.opc w.port w.argh w.argl = w := by
  apply BitVec.eq_of_getLsbD_eq
  intro i hi
  simp only [Command.opc, Command.port, Command.argh, Command.argl, Command.ofFields, BitVec.getLsbD_append,
    BitVec.getLsbD_extractLsb']
  by_cases h1 : i < 32
  · simp [h1]
  by_cases h2 : i < 48
  · simp [h1, show i - 32 < 16 by omega, show 32 + (i - 32) = i by omega]
  by_cases h3 : i < 56
  · simp [h1, show ¬ i - 32 < 16 by omega, show i - 32 - 16 < 8 by omega,
      show 48 + (i - 32 - 16) = i by omega]
  · simp [h1, show ¬ i - 32 < 16 by omega, show ¬ i - 32 - 16 < 8 by omega, show i - 32 - 16 - 8 < 8 by omega,
      show 56 + (i - 32 - 16 - 8) = i by omega]

/-- A mask of whole fields and field parts acts field by field. -/
theorem Command.and_ofFields (opc' : BitVec 8) (p' : PortIndex) (argh' : BitVec 16) (argl' : BitVec 32) :
    Command.ofFields opc p argh argl &&& Command.ofFields opc' p' argh' argl' =
      Command.ofFields (opc &&& opc') (p &&& p') (argh &&& argh') (argl &&& argl') := by
  apply BitVec.eq_of_getLsbD_eq
  intro i hi
  simp only [Command.ofFields, BitVec.getLsbD_and, BitVec.getLsbD_append]
  split <;> try rfl
  split <;> try rfl
  split <;> rfl

/-- Equal words have equal fields. -/
theorem Command.ofFields_inj {opc' : BitVec 8} {p' : PortIndex} {argh' : BitVec 16} {argl' : BitVec 32} :
    Command.ofFields opc p argh argl = Command.ofFields opc' p' argh' argl' ↔
      opc = opc' ∧ p = p' ∧ argh = argh' ∧ argl = argl' := by
  constructor
  · intro h
    exact ⟨by simpa using congrArg Command.opc h, by simpa using congrArg Command.port h,
      by simpa using congrArg Command.argh h, by simpa using congrArg Command.argl h⟩
  · rintro ⟨rfl, rfl, rfl, rfl⟩
    rfl

/-- The bytes of a word in host memory are the word (20_memory.md R75). -/
theorem Command.ofBytes_toBytes (w : Command) : Command.ofBytes w.toBytes = some w := by
  simp only [Command.toBytes, Command.ofBytes, Option.some.injEq]
  apply BitVec.eq_of_getLsbD_eq
  intro i hi
  simp only [BitVec.getLsbD_append, BitVec.getLsbD_extractLsb']
  by_cases h0 : i < 8
  · simp [h0]
  by_cases h1 : i < 16
  · simp [h0, show i - 8 < 8 by omega, show 8 + (i - 8) = i by omega]
  by_cases h2 : i < 24
  · simp [h0, show ¬ i - 8 < 8 by omega, show i - 8 - 8 < 8 by omega, show 16 + (i - 8 - 8) = i by omega]
  by_cases h3 : i < 32
  · simp [h0, show ¬ i - 8 < 8 by omega, show ¬ i - 8 - 8 < 8 by omega, show i - 8 - 8 - 8 < 8 by omega,
      show 24 + (i - 8 - 8 - 8) = i by omega]
  by_cases h4 : i < 40
  · simp [h0, show ¬ i - 8 < 8 by omega, show ¬ i - 8 - 8 < 8 by omega, show ¬ i - 8 - 8 - 8 < 8 by omega,
      show i - 8 - 8 - 8 - 8 < 8 by omega, show 32 + (i - 8 - 8 - 8 - 8) = i by omega]
  by_cases h5 : i < 48
  · simp [h0, show ¬ i - 8 < 8 by omega, show ¬ i - 8 - 8 < 8 by omega, show ¬ i - 8 - 8 - 8 < 8 by omega,
      show ¬ i - 8 - 8 - 8 - 8 < 8 by omega, show i - 8 - 8 - 8 - 8 - 8 < 8 by omega,
      show 40 + (i - 8 - 8 - 8 - 8 - 8) = i by omega]
  by_cases h6 : i < 56
  · simp [h0, show ¬ i - 8 < 8 by omega, show ¬ i - 8 - 8 < 8 by omega, show ¬ i - 8 - 8 - 8 < 8 by omega,
      show ¬ i - 8 - 8 - 8 - 8 < 8 by omega, show ¬ i - 8 - 8 - 8 - 8 - 8 < 8 by omega,
      show i - 8 - 8 - 8 - 8 - 8 - 8 < 8 by omega, show 48 + (i - 8 - 8 - 8 - 8 - 8 - 8) = i by omega]
  · simp [h0, show ¬ i - 8 < 8 by omega, show ¬ i - 8 - 8 < 8 by omega, show ¬ i - 8 - 8 - 8 < 8 by omega,
      show ¬ i - 8 - 8 - 8 - 8 < 8 by omega, show ¬ i - 8 - 8 - 8 - 8 - 8 < 8 by omega,
      show ¬ i - 8 - 8 - 8 - 8 - 8 - 8 < 8 by omega, show i - 8 - 8 - 8 - 8 - 8 - 8 - 8 < 8 by omega,
      show 56 + (i - 8 - 8 - 8 - 8 - 8 - 8 - 8) = i by omega]

/-- What the host's bytes stand for is what the word stands for. -/
theorem decodeBytes_toBytes (w : Command) : decodeBytes w.toBytes = decode w := by
  rw [decodeBytes, Command.ofBytes_toBytes]
  rfl

end Sys2Proof
end

