-- ==== Sys2Proof/Laws/Flags.lean ====
section
/-! SUPPORT. The flag computations bit by bit, and the widths of the register fields. -/

namespace Sys2Proof.Machine

/-! ### Truncation and masks -/

theorem trunc_lt (n v : Nat) : trunc n v < 2 ^ n := Nat.mod_lt _ (Nat.two_pow_pos n)

theorem trunc_of_lt {n v : Nat} (h : v < 2 ^ n) : trunc n v = v := Nat.mod_eq_of_lt h

theorem trunc_eq_self {n v : Nat} : trunc n v = v ↔ v < 2 ^ n :=
  ⟨fun h => h ▸ trunc_lt n v, trunc_of_lt⟩

@[simp] theorem trunc_trunc (n v : Nat) : trunc n (trunc n v) = trunc n v := trunc_of_lt (trunc_lt n v)

theorem testBit_trunc (n v k : Nat) : (trunc n v).testBit k = (decide (k < n) && v.testBit k) :=
  Nat.testBit_mod_two_pow v n k

/-- The complement within `n` bits, bit by bit (00_scope.md R10). -/
theorem testBit_complement (n v k : Nat) :
    (complement n v).testBit k = (decide (k < n) && !v.testBit k) := by
  have h := Nat.testBit_two_pow_sub_succ (trunc_lt n v) k
  have e : complement n v = 2 ^ n - (trunc n v + 1) := by unfold complement; omega
  rw [e, h, testBit_trunc]
  cases decide (k < n) <;> simp

theorem complement_lt (n v : Nat) : complement n v < 2 ^ n := by
  have := Nat.two_pow_pos n
  unfold complement
  omega

theorem testBit_bitMask (b k : Nat) : (bitMask b).testBit k = decide (b = k) := by
  simp [bitMask, Nat.one_shiftLeft, Nat.testBit_two_pow]

theorem testBit_allOnes (n k : Nat) : (allOnes n).testBit k = decide (k < n) :=
  Nat.testBit_two_pow_sub_one n k

theorem allOnes_lt (n : Nat) : allOnes n < 2 ^ n := by
  have := Nat.two_pow_pos n
  unfold allOnes
  omega

theorem bitMask_lt {n b : Nat} (h : b < n) : bitMask b < 2 ^ n := by
  rw [bitMask, Nat.one_shiftLeft]
  exact Nat.pow_lt_pow_right (by omega) h

/-- A mask of `n` bits has no bit at or above `n`. -/
theorem testBit_of_lt {n v k : Nat} (h : v < 2 ^ n) (hk : n ≤ k) : v.testBit k = false :=
  Nat.testBit_lt_two_pow (Nat.lt_of_lt_of_le h (Nat.pow_le_pow_right (by omega) hk))

/-! ### Flags -/

/-- Write 1 to clear, bit by bit (10_state.md R42). -/
theorem testBit_clearFlags {n raw : Nat} (h : raw < 2 ^ n) (v k : Nat) :
    (clearFlags n raw v).testBit k = (raw.testBit k && !v.testBit k) := by
  rw [clearFlags, Nat.testBit_and, testBit_complement]
  by_cases hk : k < n
  · simp [hk]
  · simp [testBit_of_lt h (Nat.le_of_not_lt hk)]

theorem clearFlags_lt (n raw v : Nat) : clearFlags n raw v < 2 ^ n :=
  Nat.lt_of_le_of_lt Nat.and_le_right (complement_lt n v)

/-- Clearing every flag leaves none (42_guarded_regops.md R179). -/
@[simp] theorem clearFlags_allOnes (n raw : Nat) : clearFlags n raw (allOnes n) = 0 := by
  have h : complement n (allOnes n) = 0 := by
    unfold complement
    rw [trunc_of_lt (allOnes_lt n)]
    unfold allOnes
    omega
  rw [clearFlags, h, Nat.and_zero]

/-- The hardware sets flags and clears none, bit by bit (10_state.md R40, R52). -/
theorem testBit_setFlags (n raw m k : Nat) :
    (setFlags n raw m).testBit k = (raw.testBit k || (decide (k < n) && m.testBit k)) := by
  rw [setFlags, Nat.testBit_or, testBit_trunc]

theorem setFlags_lt {n raw : Nat} (h : raw < 2 ^ n) (m : Nat) : setFlags n raw m < 2 ^ n :=
  Nat.or_lt_two_pow h (trunc_lt n m)

theorem testBit_replaceBit {n mask : Nat} (h : mask < 2 ^ n) (b : Nat) (on : Bool) (k : Nat) :
    (replaceBit n mask b on).testBit k = if b = k then on else mask.testBit k := by
  cases on with
  | true =>
    rw [replaceBit, if_pos rfl, Nat.testBit_or, testBit_bitMask]
    split <;> simp_all
  | false =>
    rw [replaceBit, if_neg (by decide), testBit_clearFlags h, testBit_bitMask]
    split <;> simp_all

theorem replaceBit_lt {n mask b : Nat} (h : mask < 2 ^ n) (hb : b < n) (on : Bool) :
    replaceBit n mask b on < 2 ^ n := by
  cases on with
  | true => exact Nat.or_lt_two_pow h (bitMask_lt hb)
  | false => exact clearFlags_lt n mask _

/-! ### Register fields within their widths (10_state.md R38) -/

/-- Every field is within its width, and the break-detect enable is 0 where it is no field of its own. -/
structure Regs.InWidth (P : Params) (r : Regs) : Prop where
  txfifoCnt : r.txfifoCnt < 2 ^ P.cntW
  rxfifoCnt : r.rxfifoCnt < 2 ^ P.cntW
  intRaw : r.intRaw < 2 ^ P.intW
  intEna : r.intEna < 2 ^ P.intW
  rs485En : r.rs485En < 2 ^ 1
  txdBrkEn : r.txdBrkEn < 2 ^ 1
  brkLen : r.brkLen < 2 ^ P.brkLenW
  idleLen : r.idleLen < 2 ^ P.idleLenW
  stopBits : r.stopBits < 2 ^ P.stopW
  brkDetEn : r.brkDetEn < 2 ^ 1
  brkDetAlias : P.brkdetAlias = .inMask → r.brkDetEn = 0
  autobaud : r.autobaud < 2 ^ P.abW
  rxfifoThrhd : r.rxfifoThrhd < 2 ^ P.thrW

/-- `fit` changes nothing exactly on values within their widths. -/
theorem Regs.fit_eq_self {P : Params} {r : Regs} : r.fit P = r ↔ r.InWidth P := by
  constructor
  · intro h
    have hb : r.brkDetEn < 2 ^ 1 ∧ (P.brkdetAlias = .inMask → r.brkDetEn = 0) := by
      have hb := congrArg Regs.brkDetEn h
      simp only [Regs.fit] at hb
      cases ha : P.brkdetAlias <;> rw [ha] at hb <;> simp only at hb
      · rw [← hb]; exact ⟨by decide, fun _ => rfl⟩
      · exact ⟨trunc_eq_self.1 hb, fun e => by cases e⟩
    exact ⟨trunc_eq_self.1 (congrArg Regs.txfifoCnt h), trunc_eq_self.1 (congrArg Regs.rxfifoCnt h),
      trunc_eq_self.1 (congrArg Regs.intRaw h), trunc_eq_self.1 (congrArg Regs.intEna h),
      trunc_eq_self.1 (congrArg Regs.rs485En h), trunc_eq_self.1 (congrArg Regs.txdBrkEn h),
      trunc_eq_self.1 (congrArg Regs.brkLen h), trunc_eq_self.1 (congrArg Regs.idleLen h),
      trunc_eq_self.1 (congrArg Regs.stopBits h), hb.1, hb.2,
      trunc_eq_self.1 (congrArg Regs.autobaud h), trunc_eq_self.1 (congrArg Regs.rxfifoThrhd h)⟩
  · intro h
    have hb : (r.fit P).brkDetEn = r.brkDetEn := by
      simp only [Regs.fit]
      cases ha : P.brkdetAlias
      · exact (h.brkDetAlias ha).symm
      · exact trunc_of_lt h.brkDetEn
    show Regs.mk (trunc _ _) (trunc _ _) (trunc _ _) (trunc _ _) (trunc _ _) (trunc _ _) (trunc _ _) (trunc _ _)
      (trunc _ _) (r.fit P).brkDetEn (trunc _ _) (trunc _ _) = r
    rw [hb, trunc_of_lt h.txfifoCnt, trunc_of_lt h.rxfifoCnt, trunc_of_lt h.intRaw, trunc_of_lt h.intEna,
      trunc_of_lt h.rs485En, trunc_of_lt h.txdBrkEn, trunc_of_lt h.brkLen, trunc_of_lt h.idleLen,
      trunc_of_lt h.stopBits, trunc_of_lt h.autobaud, trunc_of_lt h.rxfifoThrhd]

/-- `fit` brings every value into its width. -/
theorem Regs.fit_inWidth (P : Params) (r : Regs) : (r.fit P).InWidth P := by
  rw [← Regs.fit_eq_self]
  simp only [Regs.fit, trunc_trunc]
  cases P.brkdetAlias <;> simp

/-- A field write keeps every field within its width (20_memory.md R74). -/
theorem Regs.write_inWidth {P : Params} (hP : P.brkDetBit < P.intW) {r : Regs} (h : r.InWidth P)
    (f : WField) (v : Nat) : (r.write P f v).InWidth P := by
  cases f with
  | intEna => exact { h with intEna := trunc_lt _ _ }
  | intClr => exact { h with intRaw := clearFlags_lt _ _ _ }
  | rs485En => exact { h with rs485En := trunc_lt _ _ }
  | txdBrkEn => exact { h with txdBrkEn := trunc_lt _ _ }
  | brkLen => exact { h with brkLen := trunc_lt _ _ }
  | idleLen => exact { h with idleLen := trunc_lt _ _ }
  | stopBits => exact { h with stopBits := trunc_lt _ _ }
  | autobaud => exact { h with autobaud := trunc_lt _ _ }
  | rxfifoThrhd => exact { h with rxfifoThrhd := trunc_lt _ _ }
  | brkDetEn =>
    simp only [Regs.write, Regs.setBrkdet]
    cases ha : P.brkdetAlias with
    | inMask => exact { h with intEna := replaceBit_lt h.intEna hP _ }
    | separate =>
      refine { h with brkDetEn := ?_, brkDetAlias := fun e => by rw [ha] at e; cases e }
      show bitNat _ < 2
      unfold bitNat
      split <;> omega

/-- The break-detect enable reads back as written, through its alias (10_state.md R46). -/
theorem Regs.brkdet_setBrkdet {P : Params} {r : Regs} (h : r.intEna < 2 ^ P.intW) (b : Bool) :
    (r.setBrkdet P b).brkdet P = b := by
  unfold Regs.brkdet Regs.setBrkdet
  cases P.brkdetAlias with
  | inMask => simp [flagSet, testBit_replaceBit h]
  | separate => cases b <;> rfl

end Sys2Proof.Machine
end

