-- ==== Sys2Proof/Laws/Pins.lean ====
section
/-! SUPPORT. The pin space: a read after a write, and every write keeps the canonical form. -/

namespace Sys2Proof.Machine

theorem Pins.get_cons (n m : Nat) (x : Pin) (ps : List (Nat × Pin)) (h : Pins.get ps n = Pin.unlisted) :
    Pins.get (Pins.cons n x ps) m = if n = m then x else Pins.get ps m := by
  unfold Pins.cons
  split
  · next hx =>
    split
    · next hm => rw [← hm, h, hx]
    · rfl
  · rfl

theorem Pins.get_of_above {n m : Nat} {ps : List (Nat × Pin)} (h : Pins.above n ps = true) (hm : m ≤ n) :
    Pins.get ps m = Pin.unlisted := by
  induction ps with
  | nil => rfl
  | cons e ps ih =>
    obtain ⟨k, x⟩ := e
    simp only [Pins.above, List.all_cons, Bool.and_eq_true, decide_eq_true_eq] at h
    simp only [Pins.get]
    rw [if_neg (by omega)]
    exact ih h.2

theorem Pins.above_mono {n m : Nat} {ps : List (Nat × Pin)} (h : Pins.above n ps = true) (hm : m ≤ n) :
    Pins.above m ps = true := by
  simp only [Pins.above, List.all_eq_true, decide_eq_true_eq] at h ⊢
  intro e he
  have := h e he
  omega

theorem Pins.above_cons {n k : Nat} {x : Pin} {ps : List (Nat × Pin)} (h : Pins.above n ps = true)
    (hk : n < k) : Pins.above n (Pins.cons k x ps) = true := by
  unfold Pins.cons
  split
  · exact h
  · simp only [Pins.above, List.all_cons, Bool.and_eq_true, decide_eq_true_eq]
    exact ⟨hk, h⟩

theorem Pins.above_set {n k : Nat} {x : Pin} {ps : List (Nat × Pin)} (h : Pins.above n ps = true)
    (hk : n < k) : Pins.above n (Pins.set ps k x) = true := by
  induction ps with
  | nil => exact Pins.above_cons rfl hk
  | cons e ps ih =>
    obtain ⟨j, y⟩ := e
    have h' := h
    simp only [Pins.above, List.all_cons, Bool.and_eq_true, decide_eq_true_eq] at h'
    simp only [Pins.set]
    split
    · exact Pins.above_cons h hk
    · split
      · exact Pins.above_cons h'.2 hk
      · simp only [Pins.above, List.all_cons, Bool.and_eq_true, decide_eq_true_eq]
        exact ⟨h'.1, ih h'.2⟩

theorem Pins.wf_cons {n : Nat} {x : Pin} {ps : List (Nat × Pin)} (h : Pins.wf ps = true)
    (ha : Pins.above n ps = true) : Pins.wf (Pins.cons n x ps) = true := by
  unfold Pins.cons
  split
  · exact h
  · next hx => simp [Pins.wf, hx, ha, h]

/-- The canonical form is kept by every write. -/
theorem Pins.wf_set {ps : List (Nat × Pin)} (h : Pins.wf ps = true) (n : Nat) (x : Pin) :
    Pins.wf (Pins.set ps n x) = true := by
  induction ps with
  | nil => exact Pins.wf_cons h rfl
  | cons e ps ih =>
    obtain ⟨k, y⟩ := e
    have h' := h
    simp only [Pins.wf, Bool.and_eq_true, decide_eq_true_eq] at h'
    simp only [Pins.set]
    split
    · next hn =>
      refine Pins.wf_cons h ?_
      simp only [Pins.above, List.all_cons, Bool.and_eq_true, decide_eq_true_eq]
      exact ⟨hn, Pins.above_mono h'.1.2 (by omega)⟩
    · split
      · next hn => exact Pins.wf_cons h'.2 (hn ▸ h'.1.2)
      · simp only [Pins.wf, Bool.and_eq_true, decide_eq_true_eq]
        exact ⟨⟨h'.1.1, Pins.above_set h'.1.2 (by omega)⟩, ih h'.2⟩

/-- A read after a write: the written pin has the written state, every other pin is as before. -/
theorem Pins.get_set {ps : List (Nat × Pin)} (h : Pins.wf ps = true) (n m : Nat) (x : Pin) :
    Pins.get (Pins.set ps n x) m = if n = m then x else Pins.get ps m := by
  induction ps with
  | nil => exact Pins.get_cons n m x [] rfl
  | cons e ps ih =>
    obtain ⟨k, y⟩ := e
    have h' := h
    simp only [Pins.wf, Bool.and_eq_true, decide_eq_true_eq] at h'
    simp only [Pins.set]
    split
    · next hn =>
      refine Pins.get_cons n m x _ ?_
      simp only [Pins.get]
      rw [if_neg (by omega)]
      exact Pins.get_of_above h'.1.2 (by omega)
    · split
      · next hk =>
        subst hk
        rw [Pins.get_cons n m x ps (Pins.get_of_above h'.1.2 (Nat.le_refl n))]
        simp only [Pins.get]
        split <;> rfl
      · next hk =>
        simp only [Pins.get, ih h'.2]
        split
        · next hkm => rw [if_neg (by omega)]
        · rfl

end Sys2Proof.Machine
end

