-- ==== Sys2Proof/Laws/State.lean ====
section
/-! SUPPORT. The small lemmas of the state: one for each field and each named update, and the readers of
the state through the updates. Every one is the definition unfolded once. -/

namespace Sys2Proof.Machine

variable (s : State)

variable {s} in
/-- Two states with the same fields are the same. -/
@[ext] theorem State.ext_fields {t : State}
    (h_stack : s.stack = t.stack)
    (h_ctxs : s.ctxs = t.ctxs)
    (h_faults : s.faults = t.faults)
    (h_refused : s.refused = t.refused)
    (h_refusals : s.refusals = t.refusals)
    (h_trace : s.trace = t.trace)
    (h_timeCyc : s.timeCyc = t.timeCyc)
    (h_tLast : s.tLast = t.tLast)
    (h_tAcc : s.tAcc = t.tAcc)
    (h_tCrit : s.tCrit = t.tCrit)
    (h_ports : s.ports = t.ports)
    (h_pins : s.pins = t.pins)
    (h_dbgPort : s.dbgPort = t.dbgPort)
    (h_wdtFeeds : s.wdtFeeds = t.wdtFeeds)
    (h_params : s.params = t.params)
    (h_moves : s.moves = t.moves)
    (h_draws : s.draws = t.draws)
    (h_nextQueue : s.nextQueue = t.nextQueue) : s = t := by
  cases s; cases t; simp_all

/-! ### `State.setOp` -/

@[simp] theorem State.setOp_stack (o : OpState) : (s.setOp o).stack = s.stack := rfl
@[simp] theorem State.setOp_ctxs (o : OpState) : (s.setOp o).ctxs = s.ctxs.set s.running { s.ctxs.get s.running with op := o } := rfl
@[simp] theorem State.setOp_faults (o : OpState) : (s.setOp o).faults = s.faults := rfl
@[simp] theorem State.setOp_refused (o : OpState) : (s.setOp o).refused = s.refused := rfl
@[simp] theorem State.setOp_refusals (o : OpState) : (s.setOp o).refusals = s.refusals := rfl
@[simp] theorem State.setOp_trace (o : OpState) : (s.setOp o).trace = s.trace := rfl
@[simp] theorem State.setOp_timeCyc (o : OpState) : (s.setOp o).timeCyc = s.timeCyc := rfl
@[simp] theorem State.setOp_tLast (o : OpState) : (s.setOp o).tLast = s.tLast := rfl
@[simp] theorem State.setOp_tAcc (o : OpState) : (s.setOp o).tAcc = s.tAcc := rfl
@[simp] theorem State.setOp_tCrit (o : OpState) : (s.setOp o).tCrit = s.tCrit := rfl
@[simp] theorem State.setOp_ports (o : OpState) : (s.setOp o).ports = s.ports := rfl
@[simp] theorem State.setOp_pins (o : OpState) : (s.setOp o).pins = s.pins := rfl
@[simp] theorem State.setOp_dbgPort (o : OpState) : (s.setOp o).dbgPort = s.dbgPort := rfl
@[simp] theorem State.setOp_wdtFeeds (o : OpState) : (s.setOp o).wdtFeeds = s.wdtFeeds := rfl
@[simp] theorem State.setOp_params (o : OpState) : (s.setOp o).params = s.params := rfl
@[simp] theorem State.setOp_moves (o : OpState) : (s.setOp o).moves = s.moves := rfl
@[simp] theorem State.setOp_draws (o : OpState) : (s.setOp o).draws = s.draws := rfl
@[simp] theorem State.setOp_nextQueue (o : OpState) : (s.setOp o).nextQueue = s.nextQueue := rfl
@[simp] theorem State.setOp_running (o : OpState) : (s.setOp o).running = s.running := rfl
@[simp] theorem State.setOp_port (o : OpState) (q' : PortId) : (s.setOp o).port q' = s.port q' := rfl
@[simp] theorem State.setOp_pin (o : OpState) (m : Nat) : (s.setOp o).pin m = s.pin m := rfl

/-! ### `State.setResult` -/

@[simp] theorem State.setResult_stack (v : Micros) : (s.setResult v).stack = s.stack := rfl
@[simp] theorem State.setResult_ctxs (v : Micros) : (s.setResult v).ctxs = s.ctxs.set s.running { s.ctxs.get s.running with result := some v } := rfl
@[simp] theorem State.setResult_faults (v : Micros) : (s.setResult v).faults = s.faults := rfl
@[simp] theorem State.setResult_refused (v : Micros) : (s.setResult v).refused = s.refused := rfl
@[simp] theorem State.setResult_refusals (v : Micros) : (s.setResult v).refusals = s.refusals := rfl
@[simp] theorem State.setResult_trace (v : Micros) : (s.setResult v).trace = s.trace := rfl
@[simp] theorem State.setResult_timeCyc (v : Micros) : (s.setResult v).timeCyc = s.timeCyc := rfl
@[simp] theorem State.setResult_tLast (v : Micros) : (s.setResult v).tLast = s.tLast := rfl
@[simp] theorem State.setResult_tAcc (v : Micros) : (s.setResult v).tAcc = s.tAcc := rfl
@[simp] theorem State.setResult_tCrit (v : Micros) : (s.setResult v).tCrit = s.tCrit := rfl
@[simp] theorem State.setResult_ports (v : Micros) : (s.setResult v).ports = s.ports := rfl
@[simp] theorem State.setResult_pins (v : Micros) : (s.setResult v).pins = s.pins := rfl
@[simp] theorem State.setResult_dbgPort (v : Micros) : (s.setResult v).dbgPort = s.dbgPort := rfl
@[simp] theorem State.setResult_wdtFeeds (v : Micros) : (s.setResult v).wdtFeeds = s.wdtFeeds := rfl
@[simp] theorem State.setResult_params (v : Micros) : (s.setResult v).params = s.params := rfl
@[simp] theorem State.setResult_moves (v : Micros) : (s.setResult v).moves = s.moves := rfl
@[simp] theorem State.setResult_draws (v : Micros) : (s.setResult v).draws = s.draws := rfl
@[simp] theorem State.setResult_nextQueue (v : Micros) : (s.setResult v).nextQueue = s.nextQueue := rfl
@[simp] theorem State.setResult_running (v : Micros) : (s.setResult v).running = s.running := rfl
@[simp] theorem State.setResult_port (v : Micros) (q' : PortId) : (s.setResult v).port q' = s.port q' := rfl
@[simp] theorem State.setResult_pin (v : Micros) (m : Nat) : (s.setResult v).pin m = s.pin m := rfl

/-! ### `State.goto` -/

@[simp] theorem State.goto_stack (i : Instr) (ph : Phase) : (s.goto i ph).stack = s.stack := rfl
@[simp] theorem State.goto_ctxs (i : Instr) (ph : Phase) : (s.goto i ph).ctxs = s.ctxs.set s.running { s.ctxs.get s.running with op := .run i ph } := rfl
@[simp] theorem State.goto_faults (i : Instr) (ph : Phase) : (s.goto i ph).faults = s.faults := rfl
@[simp] theorem State.goto_refused (i : Instr) (ph : Phase) : (s.goto i ph).refused = s.refused := rfl
@[simp] theorem State.goto_refusals (i : Instr) (ph : Phase) : (s.goto i ph).refusals = s.refusals := rfl
@[simp] theorem State.goto_trace (i : Instr) (ph : Phase) : (s.goto i ph).trace = s.trace := rfl
@[simp] theorem State.goto_timeCyc (i : Instr) (ph : Phase) : (s.goto i ph).timeCyc = s.timeCyc := rfl
@[simp] theorem State.goto_tLast (i : Instr) (ph : Phase) : (s.goto i ph).tLast = s.tLast := rfl
@[simp] theorem State.goto_tAcc (i : Instr) (ph : Phase) : (s.goto i ph).tAcc = s.tAcc := rfl
@[simp] theorem State.goto_tCrit (i : Instr) (ph : Phase) : (s.goto i ph).tCrit = s.tCrit := rfl
@[simp] theorem State.goto_ports (i : Instr) (ph : Phase) : (s.goto i ph).ports = s.ports := rfl
@[simp] theorem State.goto_pins (i : Instr) (ph : Phase) : (s.goto i ph).pins = s.pins := rfl
@[simp] theorem State.goto_dbgPort (i : Instr) (ph : Phase) : (s.goto i ph).dbgPort = s.dbgPort := rfl
@[simp] theorem State.goto_wdtFeeds (i : Instr) (ph : Phase) : (s.goto i ph).wdtFeeds = s.wdtFeeds := rfl
@[simp] theorem State.goto_params (i : Instr) (ph : Phase) : (s.goto i ph).params = s.params := rfl
@[simp] theorem State.goto_moves (i : Instr) (ph : Phase) : (s.goto i ph).moves = s.moves := rfl
@[simp] theorem State.goto_draws (i : Instr) (ph : Phase) : (s.goto i ph).draws = s.draws := rfl
@[simp] theorem State.goto_nextQueue (i : Instr) (ph : Phase) : (s.goto i ph).nextQueue = s.nextQueue := rfl
@[simp] theorem State.goto_running (i : Instr) (ph : Phase) : (s.goto i ph).running = s.running := rfl
@[simp] theorem State.goto_port (i : Instr) (ph : Phase) (q' : PortId) : (s.goto i ph).port q' = s.port q' := rfl
@[simp] theorem State.goto_pin (i : Instr) (ph : Phase) (m : Nat) : (s.goto i ph).pin m = s.pin m := rfl

/-! ### `State.finish` -/

@[simp] theorem State.finish_stack : (s.finish).stack = s.stack := rfl
@[simp] theorem State.finish_ctxs : (s.finish).ctxs = s.ctxs.set s.running { s.ctxs.get s.running with op := .idle } := rfl
@[simp] theorem State.finish_faults : (s.finish).faults = s.faults := rfl
@[simp] theorem State.finish_refused : (s.finish).refused = s.refused := rfl
@[simp] theorem State.finish_refusals : (s.finish).refusals = s.refusals := rfl
@[simp] theorem State.finish_trace : (s.finish).trace = s.trace := rfl
@[simp] theorem State.finish_timeCyc : (s.finish).timeCyc = s.timeCyc := rfl
@[simp] theorem State.finish_tLast : (s.finish).tLast = s.tLast := rfl
@[simp] theorem State.finish_tAcc : (s.finish).tAcc = s.tAcc := rfl
@[simp] theorem State.finish_tCrit : (s.finish).tCrit = s.tCrit := rfl
@[simp] theorem State.finish_ports : (s.finish).ports = s.ports := rfl
@[simp] theorem State.finish_pins : (s.finish).pins = s.pins := rfl
@[simp] theorem State.finish_dbgPort : (s.finish).dbgPort = s.dbgPort := rfl
@[simp] theorem State.finish_wdtFeeds : (s.finish).wdtFeeds = s.wdtFeeds := rfl
@[simp] theorem State.finish_params : (s.finish).params = s.params := rfl
@[simp] theorem State.finish_moves : (s.finish).moves = s.moves := rfl
@[simp] theorem State.finish_draws : (s.finish).draws = s.draws := rfl
@[simp] theorem State.finish_nextQueue : (s.finish).nextQueue = s.nextQueue := rfl
@[simp] theorem State.finish_running : (s.finish).running = s.running := rfl
@[simp] theorem State.finish_port (q' : PortId) : (s.finish).port q' = s.port q' := rfl
@[simp] theorem State.finish_pin (m : Nat) : (s.finish).pin m = s.pin m := rfl

/-! ### `State.record` -/

@[simp] theorem State.record_stack (e : Event) : (s.record e).stack = s.stack := rfl
@[simp] theorem State.record_ctxs (e : Event) : (s.record e).ctxs = s.ctxs := rfl
@[simp] theorem State.record_faults (e : Event) : (s.record e).faults = s.faults := rfl
@[simp] theorem State.record_refused (e : Event) : (s.record e).refused = s.refused := rfl
@[simp] theorem State.record_refusals (e : Event) : (s.record e).refusals = s.refusals := rfl
@[simp] theorem State.record_trace (e : Event) : (s.record e).trace = s.trace ++ [e] := rfl
@[simp] theorem State.record_timeCyc (e : Event) : (s.record e).timeCyc = s.timeCyc := rfl
@[simp] theorem State.record_tLast (e : Event) : (s.record e).tLast = s.tLast := rfl
@[simp] theorem State.record_tAcc (e : Event) : (s.record e).tAcc = s.tAcc := rfl
@[simp] theorem State.record_tCrit (e : Event) : (s.record e).tCrit = s.tCrit := rfl
@[simp] theorem State.record_ports (e : Event) : (s.record e).ports = s.ports := rfl
@[simp] theorem State.record_pins (e : Event) : (s.record e).pins = s.pins := rfl
@[simp] theorem State.record_dbgPort (e : Event) : (s.record e).dbgPort = s.dbgPort := rfl
@[simp] theorem State.record_wdtFeeds (e : Event) : (s.record e).wdtFeeds = s.wdtFeeds := rfl
@[simp] theorem State.record_params (e : Event) : (s.record e).params = s.params := rfl
@[simp] theorem State.record_moves (e : Event) : (s.record e).moves = s.moves := rfl
@[simp] theorem State.record_draws (e : Event) : (s.record e).draws = s.draws := rfl
@[simp] theorem State.record_nextQueue (e : Event) : (s.record e).nextQueue = s.nextQueue := rfl
@[simp] theorem State.record_running (e : Event) : (s.record e).running = s.running := rfl
@[simp] theorem State.record_port (e : Event) (q' : PortId) : (s.record e).port q' = s.port q' := rfl
@[simp] theorem State.record_pin (e : Event) (m : Nat) : (s.record e).pin m = s.pin m := rfl
@[simp] theorem State.record_opOf (e : Event) (c' : Ctx) : (s.record e).opOf c' = s.opOf c' := rfl

/-! ### `State.raise` -/

@[simp] theorem State.raise_stack (c : FaultCause) : (s.raise c).stack = s.stack := rfl
@[simp] theorem State.raise_ctxs (c : FaultCause) : (s.raise c).ctxs = s.ctxs := rfl
@[simp] theorem State.raise_faults (c : FaultCause) : (s.raise c).faults = s.faults ++ [⟨s.running, c⟩] := rfl
@[simp] theorem State.raise_refused (c : FaultCause) : (s.raise c).refused = s.refused := rfl
@[simp] theorem State.raise_refusals (c : FaultCause) : (s.raise c).refusals = s.refusals := rfl
@[simp] theorem State.raise_trace (c : FaultCause) : (s.raise c).trace = s.trace := rfl
@[simp] theorem State.raise_timeCyc (c : FaultCause) : (s.raise c).timeCyc = s.timeCyc := rfl
@[simp] theorem State.raise_tLast (c : FaultCause) : (s.raise c).tLast = s.tLast := rfl
@[simp] theorem State.raise_tAcc (c : FaultCause) : (s.raise c).tAcc = s.tAcc := rfl
@[simp] theorem State.raise_tCrit (c : FaultCause) : (s.raise c).tCrit = s.tCrit := rfl
@[simp] theorem State.raise_ports (c : FaultCause) : (s.raise c).ports = s.ports := rfl
@[simp] theorem State.raise_pins (c : FaultCause) : (s.raise c).pins = s.pins := rfl
@[simp] theorem State.raise_dbgPort (c : FaultCause) : (s.raise c).dbgPort = s.dbgPort := rfl
@[simp] theorem State.raise_wdtFeeds (c : FaultCause) : (s.raise c).wdtFeeds = s.wdtFeeds := rfl
@[simp] theorem State.raise_params (c : FaultCause) : (s.raise c).params = s.params := rfl
@[simp] theorem State.raise_moves (c : FaultCause) : (s.raise c).moves = s.moves := rfl
@[simp] theorem State.raise_draws (c : FaultCause) : (s.raise c).draws = s.draws := rfl
@[simp] theorem State.raise_nextQueue (c : FaultCause) : (s.raise c).nextQueue = s.nextQueue := rfl
@[simp] theorem State.raise_running (c : FaultCause) : (s.raise c).running = s.running := rfl
@[simp] theorem State.raise_port (c : FaultCause) (q' : PortId) : (s.raise c).port q' = s.port q' := rfl
@[simp] theorem State.raise_pin (c : FaultCause) (m : Nat) : (s.raise c).pin m = s.pin m := rfl
@[simp] theorem State.raise_opOf (c : FaultCause) (c' : Ctx) : (s.raise c).opOf c' = s.opOf c' := rfl

/-! ### `State.markRefused` -/

@[simp] theorem State.markRefused_stack (r : RefusalReason) : (s.markRefused r).stack = s.stack := rfl
@[simp] theorem State.markRefused_ctxs (r : RefusalReason) : (s.markRefused r).ctxs = s.ctxs := rfl
@[simp] theorem State.markRefused_faults (r : RefusalReason) : (s.markRefused r).faults = s.faults := rfl
@[simp] theorem State.markRefused_refused (r : RefusalReason) : (s.markRefused r).refused = true := rfl
@[simp] theorem State.markRefused_refusals (r : RefusalReason) : (s.markRefused r).refusals = s.refusals ++ [⟨s.running, r⟩] := rfl
@[simp] theorem State.markRefused_trace (r : RefusalReason) : (s.markRefused r).trace = s.trace := rfl
@[simp] theorem State.markRefused_timeCyc (r : RefusalReason) : (s.markRefused r).timeCyc = s.timeCyc := rfl
@[simp] theorem State.markRefused_tLast (r : RefusalReason) : (s.markRefused r).tLast = s.tLast := rfl
@[simp] theorem State.markRefused_tAcc (r : RefusalReason) : (s.markRefused r).tAcc = s.tAcc := rfl
@[simp] theorem State.markRefused_tCrit (r : RefusalReason) : (s.markRefused r).tCrit = s.tCrit := rfl
@[simp] theorem State.markRefused_ports (r : RefusalReason) : (s.markRefused r).ports = s.ports := rfl
@[simp] theorem State.markRefused_pins (r : RefusalReason) : (s.markRefused r).pins = s.pins := rfl
@[simp] theorem State.markRefused_dbgPort (r : RefusalReason) : (s.markRefused r).dbgPort = s.dbgPort := rfl
@[simp] theorem State.markRefused_wdtFeeds (r : RefusalReason) : (s.markRefused r).wdtFeeds = s.wdtFeeds := rfl
@[simp] theorem State.markRefused_params (r : RefusalReason) : (s.markRefused r).params = s.params := rfl
@[simp] theorem State.markRefused_moves (r : RefusalReason) : (s.markRefused r).moves = s.moves := rfl
@[simp] theorem State.markRefused_draws (r : RefusalReason) : (s.markRefused r).draws = s.draws := rfl
@[simp] theorem State.markRefused_nextQueue (r : RefusalReason) : (s.markRefused r).nextQueue = s.nextQueue := rfl
@[simp] theorem State.markRefused_running (r : RefusalReason) : (s.markRefused r).running = s.running := rfl
@[simp] theorem State.markRefused_port (r : RefusalReason) (q' : PortId) : (s.markRefused r).port q' = s.port q' := rfl
@[simp] theorem State.markRefused_pin (r : RefusalReason) (m : Nat) : (s.markRefused r).pin m = s.pin m := rfl
@[simp] theorem State.markRefused_opOf (r : RefusalReason) (c' : Ctx) : (s.markRefused r).opOf c' = s.opOf c' := rfl

/-! ### `State.refuse` -/

@[simp] theorem State.refuse_stack (r : RefusalReason) : (s.refuse r).stack = s.stack := rfl
@[simp] theorem State.refuse_ctxs (r : RefusalReason) : (s.refuse r).ctxs = s.ctxs.set s.running { s.ctxs.get s.running with op := .idle } := rfl
@[simp] theorem State.refuse_faults (r : RefusalReason) : (s.refuse r).faults = s.faults := rfl
@[simp] theorem State.refuse_refused (r : RefusalReason) : (s.refuse r).refused = true := rfl
@[simp] theorem State.refuse_refusals (r : RefusalReason) : (s.refuse r).refusals = s.refusals ++ [⟨s.running, r⟩] := rfl
@[simp] theorem State.refuse_trace (r : RefusalReason) : (s.refuse r).trace = s.trace := rfl
@[simp] theorem State.refuse_timeCyc (r : RefusalReason) : (s.refuse r).timeCyc = s.timeCyc := rfl
@[simp] theorem State.refuse_tLast (r : RefusalReason) : (s.refuse r).tLast = s.tLast := rfl
@[simp] theorem State.refuse_tAcc (r : RefusalReason) : (s.refuse r).tAcc = s.tAcc := rfl
@[simp] theorem State.refuse_tCrit (r : RefusalReason) : (s.refuse r).tCrit = s.tCrit := rfl
@[simp] theorem State.refuse_ports (r : RefusalReason) : (s.refuse r).ports = s.ports := rfl
@[simp] theorem State.refuse_pins (r : RefusalReason) : (s.refuse r).pins = s.pins := rfl
@[simp] theorem State.refuse_dbgPort (r : RefusalReason) : (s.refuse r).dbgPort = s.dbgPort := rfl
@[simp] theorem State.refuse_wdtFeeds (r : RefusalReason) : (s.refuse r).wdtFeeds = s.wdtFeeds := rfl
@[simp] theorem State.refuse_params (r : RefusalReason) : (s.refuse r).params = s.params := rfl
@[simp] theorem State.refuse_moves (r : RefusalReason) : (s.refuse r).moves = s.moves := rfl
@[simp] theorem State.refuse_draws (r : RefusalReason) : (s.refuse r).draws = s.draws := rfl
@[simp] theorem State.refuse_nextQueue (r : RefusalReason) : (s.refuse r).nextQueue = s.nextQueue := rfl
@[simp] theorem State.refuse_running (r : RefusalReason) : (s.refuse r).running = s.running := rfl
@[simp] theorem State.refuse_port (r : RefusalReason) (q' : PortId) : (s.refuse r).port q' = s.port q' := rfl
@[simp] theorem State.refuse_pin (r : RefusalReason) (m : Nat) : (s.refuse r).pin m = s.pin m := rfl

/-! ### `State.enterCritical` -/

@[simp] theorem State.enterCritical_stack : (s.enterCritical).stack = s.stack := rfl
@[simp] theorem State.enterCritical_ctxs : (s.enterCritical).ctxs = s.ctxs := rfl
@[simp] theorem State.enterCritical_faults : (s.enterCritical).faults = s.faults := rfl
@[simp] theorem State.enterCritical_refused : (s.enterCritical).refused = s.refused := rfl
@[simp] theorem State.enterCritical_refusals : (s.enterCritical).refusals = s.refusals := rfl
@[simp] theorem State.enterCritical_trace : (s.enterCritical).trace = s.trace := rfl
@[simp] theorem State.enterCritical_timeCyc : (s.enterCritical).timeCyc = s.timeCyc := rfl
@[simp] theorem State.enterCritical_tLast : (s.enterCritical).tLast = s.tLast := rfl
@[simp] theorem State.enterCritical_tAcc : (s.enterCritical).tAcc = s.tAcc := rfl
@[simp] theorem State.enterCritical_tCrit : (s.enterCritical).tCrit = .held s.running := rfl
@[simp] theorem State.enterCritical_ports : (s.enterCritical).ports = s.ports := rfl
@[simp] theorem State.enterCritical_pins : (s.enterCritical).pins = s.pins := rfl
@[simp] theorem State.enterCritical_dbgPort : (s.enterCritical).dbgPort = s.dbgPort := rfl
@[simp] theorem State.enterCritical_wdtFeeds : (s.enterCritical).wdtFeeds = s.wdtFeeds := rfl
@[simp] theorem State.enterCritical_params : (s.enterCritical).params = s.params := rfl
@[simp] theorem State.enterCritical_moves : (s.enterCritical).moves = s.moves := rfl
@[simp] theorem State.enterCritical_draws : (s.enterCritical).draws = s.draws := rfl
@[simp] theorem State.enterCritical_nextQueue : (s.enterCritical).nextQueue = s.nextQueue := rfl
@[simp] theorem State.enterCritical_running : (s.enterCritical).running = s.running := rfl
@[simp] theorem State.enterCritical_port (q' : PortId) : (s.enterCritical).port q' = s.port q' := rfl
@[simp] theorem State.enterCritical_pin (m : Nat) : (s.enterCritical).pin m = s.pin m := rfl
@[simp] theorem State.enterCritical_opOf (c' : Ctx) : (s.enterCritical).opOf c' = s.opOf c' := rfl

/-! ### `State.leaveCritical` -/

@[simp] theorem State.leaveCritical_stack : (s.leaveCritical).stack = s.stack := rfl
@[simp] theorem State.leaveCritical_ctxs : (s.leaveCritical).ctxs = s.ctxs := rfl
@[simp] theorem State.leaveCritical_faults : (s.leaveCritical).faults = s.faults := rfl
@[simp] theorem State.leaveCritical_refused : (s.leaveCritical).refused = s.refused := rfl
@[simp] theorem State.leaveCritical_refusals : (s.leaveCritical).refusals = s.refusals := rfl
@[simp] theorem State.leaveCritical_trace : (s.leaveCritical).trace = s.trace := rfl
@[simp] theorem State.leaveCritical_timeCyc : (s.leaveCritical).timeCyc = s.timeCyc := rfl
@[simp] theorem State.leaveCritical_tLast : (s.leaveCritical).tLast = s.tLast := rfl
@[simp] theorem State.leaveCritical_tAcc : (s.leaveCritical).tAcc = s.tAcc := rfl
@[simp] theorem State.leaveCritical_tCrit : (s.leaveCritical).tCrit = .free := rfl
@[simp] theorem State.leaveCritical_ports : (s.leaveCritical).ports = s.ports := rfl
@[simp] theorem State.leaveCritical_pins : (s.leaveCritical).pins = s.pins := rfl
@[simp] theorem State.leaveCritical_dbgPort : (s.leaveCritical).dbgPort = s.dbgPort := rfl
@[simp] theorem State.leaveCritical_wdtFeeds : (s.leaveCritical).wdtFeeds = s.wdtFeeds := rfl
@[simp] theorem State.leaveCritical_params : (s.leaveCritical).params = s.params := rfl
@[simp] theorem State.leaveCritical_moves : (s.leaveCritical).moves = s.moves := rfl
@[simp] theorem State.leaveCritical_draws : (s.leaveCritical).draws = s.draws := rfl
@[simp] theorem State.leaveCritical_nextQueue : (s.leaveCritical).nextQueue = s.nextQueue := rfl
@[simp] theorem State.leaveCritical_running : (s.leaveCritical).running = s.running := rfl
@[simp] theorem State.leaveCritical_port (q' : PortId) : (s.leaveCritical).port q' = s.port q' := rfl
@[simp] theorem State.leaveCritical_pin (m : Nat) : (s.leaveCritical).pin m = s.pin m := rfl
@[simp] theorem State.leaveCritical_opOf (c' : Ctx) : (s.leaveCritical).opOf c' = s.opOf c' := rfl

/-! ### `State.observe` -/

@[simp] theorem State.observe_stack (raw : Nat) : (s.observe raw).stack = s.stack := rfl
@[simp] theorem State.observe_ctxs (raw : Nat) : (s.observe raw).ctxs = s.ctxs := rfl
@[simp] theorem State.observe_faults (raw : Nat) : (s.observe raw).faults = s.faults := rfl
@[simp] theorem State.observe_refused (raw : Nat) : (s.observe raw).refused = s.refused := rfl
@[simp] theorem State.observe_refusals (raw : Nat) : (s.observe raw).refusals = s.refusals := rfl
@[simp] theorem State.observe_trace (raw : Nat) : (s.observe raw).trace = s.trace := rfl
@[simp] theorem State.observe_timeCyc (raw : Nat) : (s.observe raw).timeCyc = s.timeCyc := rfl
@[simp] theorem State.observe_tLast (raw : Nat) : (s.observe raw).tLast = raw := rfl
@[simp] theorem State.observe_tAcc (raw : Nat) : (s.observe raw).tAcc = if raw < s.tLast then s.tAcc + microsOf (wrapUs s.params) else s.tAcc := rfl
@[simp] theorem State.observe_tCrit (raw : Nat) : (s.observe raw).tCrit = s.tCrit := rfl
@[simp] theorem State.observe_ports (raw : Nat) : (s.observe raw).ports = s.ports := rfl
@[simp] theorem State.observe_pins (raw : Nat) : (s.observe raw).pins = s.pins := rfl
@[simp] theorem State.observe_dbgPort (raw : Nat) : (s.observe raw).dbgPort = s.dbgPort := rfl
@[simp] theorem State.observe_wdtFeeds (raw : Nat) : (s.observe raw).wdtFeeds = s.wdtFeeds := rfl
@[simp] theorem State.observe_params (raw : Nat) : (s.observe raw).params = s.params := rfl
@[simp] theorem State.observe_moves (raw : Nat) : (s.observe raw).moves = s.moves := rfl
@[simp] theorem State.observe_draws (raw : Nat) : (s.observe raw).draws = s.draws := rfl
@[simp] theorem State.observe_nextQueue (raw : Nat) : (s.observe raw).nextQueue = s.nextQueue := rfl
@[simp] theorem State.observe_running (raw : Nat) : (s.observe raw).running = s.running := rfl
@[simp] theorem State.observe_port (raw : Nat) (q' : PortId) : (s.observe raw).port q' = s.port q' := rfl
@[simp] theorem State.observe_pin (raw : Nat) (m : Nat) : (s.observe raw).pin m = s.pin m := rfl
@[simp] theorem State.observe_opOf (raw : Nat) (c' : Ctx) : (s.observe raw).opOf c' = s.opOf c' := rfl

/-! ### `State.setPort` -/

@[simp] theorem State.setPort_stack (q : PortId) (x : Port) : (s.setPort q x).stack = s.stack := rfl
@[simp] theorem State.setPort_ctxs (q : PortId) (x : Port) : (s.setPort q x).ctxs = s.ctxs := rfl
@[simp] theorem State.setPort_faults (q : PortId) (x : Port) : (s.setPort q x).faults = s.faults := rfl
@[simp] theorem State.setPort_refused (q : PortId) (x : Port) : (s.setPort q x).refused = s.refused := rfl
@[simp] theorem State.setPort_refusals (q : PortId) (x : Port) : (s.setPort q x).refusals = s.refusals := rfl
@[simp] theorem State.setPort_trace (q : PortId) (x : Port) : (s.setPort q x).trace = s.trace := rfl
@[simp] theorem State.setPort_timeCyc (q : PortId) (x : Port) : (s.setPort q x).timeCyc = s.timeCyc := rfl
@[simp] theorem State.setPort_tLast (q : PortId) (x : Port) : (s.setPort q x).tLast = s.tLast := rfl
@[simp] theorem State.setPort_tAcc (q : PortId) (x : Port) : (s.setPort q x).tAcc = s.tAcc := rfl
@[simp] theorem State.setPort_tCrit (q : PortId) (x : Port) : (s.setPort q x).tCrit = s.tCrit := rfl
@[simp] theorem State.setPort_ports (q : PortId) (x : Port) : (s.setPort q x).ports = s.ports.set q x := rfl
@[simp] theorem State.setPort_pins (q : PortId) (x : Port) : (s.setPort q x).pins = s.pins := rfl
@[simp] theorem State.setPort_dbgPort (q : PortId) (x : Port) : (s.setPort q x).dbgPort = s.dbgPort := rfl
@[simp] theorem State.setPort_wdtFeeds (q : PortId) (x : Port) : (s.setPort q x).wdtFeeds = s.wdtFeeds := rfl
@[simp] theorem State.setPort_params (q : PortId) (x : Port) : (s.setPort q x).params = s.params := rfl
@[simp] theorem State.setPort_moves (q : PortId) (x : Port) : (s.setPort q x).moves = s.moves := rfl
@[simp] theorem State.setPort_draws (q : PortId) (x : Port) : (s.setPort q x).draws = s.draws := rfl
@[simp] theorem State.setPort_nextQueue (q : PortId) (x : Port) : (s.setPort q x).nextQueue = s.nextQueue := rfl
@[simp] theorem State.setPort_running (q : PortId) (x : Port) : (s.setPort q x).running = s.running := rfl
@[simp] theorem State.setPort_pin (q : PortId) (x : Port) (m : Nat) : (s.setPort q x).pin m = s.pin m := rfl
@[simp] theorem State.setPort_opOf (q : PortId) (x : Port) (c' : Ctx) : (s.setPort q x).opOf c' = s.opOf c' := rfl

/-! ### `State.setPin` -/

@[simp] theorem State.setPin_stack (n : Nat) (x : Pin) : (s.setPin n x).stack = s.stack := rfl
@[simp] theorem State.setPin_ctxs (n : Nat) (x : Pin) : (s.setPin n x).ctxs = s.ctxs := rfl
@[simp] theorem State.setPin_faults (n : Nat) (x : Pin) : (s.setPin n x).faults = s.faults := rfl
@[simp] theorem State.setPin_refused (n : Nat) (x : Pin) : (s.setPin n x).refused = s.refused := rfl
@[simp] theorem State.setPin_refusals (n : Nat) (x : Pin) : (s.setPin n x).refusals = s.refusals := rfl
@[simp] theorem State.setPin_trace (n : Nat) (x : Pin) : (s.setPin n x).trace = s.trace := rfl
@[simp] theorem State.setPin_timeCyc (n : Nat) (x : Pin) : (s.setPin n x).timeCyc = s.timeCyc := rfl
@[simp] theorem State.setPin_tLast (n : Nat) (x : Pin) : (s.setPin n x).tLast = s.tLast := rfl
@[simp] theorem State.setPin_tAcc (n : Nat) (x : Pin) : (s.setPin n x).tAcc = s.tAcc := rfl
@[simp] theorem State.setPin_tCrit (n : Nat) (x : Pin) : (s.setPin n x).tCrit = s.tCrit := rfl
@[simp] theorem State.setPin_ports (n : Nat) (x : Pin) : (s.setPin n x).ports = s.ports := rfl
@[simp] theorem State.setPin_pins (n : Nat) (x : Pin) : (s.setPin n x).pins = Pins.set s.pins n x := rfl
@[simp] theorem State.setPin_dbgPort (n : Nat) (x : Pin) : (s.setPin n x).dbgPort = s.dbgPort := rfl
@[simp] theorem State.setPin_wdtFeeds (n : Nat) (x : Pin) : (s.setPin n x).wdtFeeds = s.wdtFeeds := rfl
@[simp] theorem State.setPin_params (n : Nat) (x : Pin) : (s.setPin n x).params = s.params := rfl
@[simp] theorem State.setPin_moves (n : Nat) (x : Pin) : (s.setPin n x).moves = s.moves := rfl
@[simp] theorem State.setPin_draws (n : Nat) (x : Pin) : (s.setPin n x).draws = s.draws := rfl
@[simp] theorem State.setPin_nextQueue (n : Nat) (x : Pin) : (s.setPin n x).nextQueue = s.nextQueue := rfl
@[simp] theorem State.setPin_running (n : Nat) (x : Pin) : (s.setPin n x).running = s.running := rfl
@[simp] theorem State.setPin_port (n : Nat) (x : Pin) (q' : PortId) : (s.setPin n x).port q' = s.port q' := rfl
@[simp] theorem State.setPin_opOf (n : Nat) (x : Pin) (c' : Ctx) : (s.setPin n x).opOf c' = s.opOf c' := rfl

/-! ### `State.wdtFeed` -/

@[simp] theorem State.wdtFeed_stack : (s.wdtFeed).stack = s.stack := rfl
@[simp] theorem State.wdtFeed_ctxs : (s.wdtFeed).ctxs = s.ctxs := rfl
@[simp] theorem State.wdtFeed_faults : (s.wdtFeed).faults = s.faults := rfl
@[simp] theorem State.wdtFeed_refused : (s.wdtFeed).refused = s.refused := rfl
@[simp] theorem State.wdtFeed_refusals : (s.wdtFeed).refusals = s.refusals := rfl
@[simp] theorem State.wdtFeed_trace : (s.wdtFeed).trace = s.trace ++ [.feed s.running] := rfl
@[simp] theorem State.wdtFeed_timeCyc : (s.wdtFeed).timeCyc = s.timeCyc := rfl
@[simp] theorem State.wdtFeed_tLast : (s.wdtFeed).tLast = s.tLast := rfl
@[simp] theorem State.wdtFeed_tAcc : (s.wdtFeed).tAcc = s.tAcc := rfl
@[simp] theorem State.wdtFeed_tCrit : (s.wdtFeed).tCrit = s.tCrit := rfl
@[simp] theorem State.wdtFeed_ports : (s.wdtFeed).ports = s.ports := rfl
@[simp] theorem State.wdtFeed_pins : (s.wdtFeed).pins = s.pins := rfl
@[simp] theorem State.wdtFeed_dbgPort : (s.wdtFeed).dbgPort = s.dbgPort := rfl
@[simp] theorem State.wdtFeed_wdtFeeds : (s.wdtFeed).wdtFeeds = s.wdtFeeds + 1 := rfl
@[simp] theorem State.wdtFeed_params : (s.wdtFeed).params = s.params := rfl
@[simp] theorem State.wdtFeed_moves : (s.wdtFeed).moves = s.moves := rfl
@[simp] theorem State.wdtFeed_draws : (s.wdtFeed).draws = s.draws := rfl
@[simp] theorem State.wdtFeed_nextQueue : (s.wdtFeed).nextQueue = s.nextQueue := rfl
@[simp] theorem State.wdtFeed_running : (s.wdtFeed).running = s.running := rfl
@[simp] theorem State.wdtFeed_port (q' : PortId) : (s.wdtFeed).port q' = s.port q' := rfl
@[simp] theorem State.wdtFeed_pin (m : Nat) : (s.wdtFeed).pin m = s.pin m := rfl
@[simp] theorem State.wdtFeed_opOf (c' : Ctx) : (s.wdtFeed).opOf c' = s.opOf c' := rfl

/-! ### `State.clearDbgPort` -/

@[simp] theorem State.clearDbgPort_stack (p : PortIndex) : (s.clearDbgPort p).stack = s.stack := rfl
@[simp] theorem State.clearDbgPort_ctxs (p : PortIndex) : (s.clearDbgPort p).ctxs = s.ctxs := rfl
@[simp] theorem State.clearDbgPort_faults (p : PortIndex) : (s.clearDbgPort p).faults = s.faults := rfl
@[simp] theorem State.clearDbgPort_refused (p : PortIndex) : (s.clearDbgPort p).refused = s.refused := rfl
@[simp] theorem State.clearDbgPort_refusals (p : PortIndex) : (s.clearDbgPort p).refusals = s.refusals := rfl
@[simp] theorem State.clearDbgPort_trace (p : PortIndex) : (s.clearDbgPort p).trace = s.trace := rfl
@[simp] theorem State.clearDbgPort_timeCyc (p : PortIndex) : (s.clearDbgPort p).timeCyc = s.timeCyc := rfl
@[simp] theorem State.clearDbgPort_tLast (p : PortIndex) : (s.clearDbgPort p).tLast = s.tLast := rfl
@[simp] theorem State.clearDbgPort_tAcc (p : PortIndex) : (s.clearDbgPort p).tAcc = s.tAcc := rfl
@[simp] theorem State.clearDbgPort_tCrit (p : PortIndex) : (s.clearDbgPort p).tCrit = s.tCrit := rfl
@[simp] theorem State.clearDbgPort_ports (p : PortIndex) : (s.clearDbgPort p).ports = s.ports := rfl
@[simp] theorem State.clearDbgPort_pins (p : PortIndex) : (s.clearDbgPort p).pins = s.pins := rfl
@[simp] theorem State.clearDbgPort_dbgPort (p : PortIndex) : (s.clearDbgPort p).dbgPort = if s.dbgPort = some p then none else s.dbgPort := rfl
@[simp] theorem State.clearDbgPort_wdtFeeds (p : PortIndex) : (s.clearDbgPort p).wdtFeeds = s.wdtFeeds := rfl
@[simp] theorem State.clearDbgPort_params (p : PortIndex) : (s.clearDbgPort p).params = s.params := rfl
@[simp] theorem State.clearDbgPort_moves (p : PortIndex) : (s.clearDbgPort p).moves = s.moves := rfl
@[simp] theorem State.clearDbgPort_draws (p : PortIndex) : (s.clearDbgPort p).draws = s.draws := rfl
@[simp] theorem State.clearDbgPort_nextQueue (p : PortIndex) : (s.clearDbgPort p).nextQueue = s.nextQueue := rfl
@[simp] theorem State.clearDbgPort_running (p : PortIndex) : (s.clearDbgPort p).running = s.running := rfl
@[simp] theorem State.clearDbgPort_port (p : PortIndex) (q' : PortId) : (s.clearDbgPort p).port q' = s.port q' := rfl
@[simp] theorem State.clearDbgPort_pin (p : PortIndex) (m : Nat) : (s.clearDbgPort p).pin m = s.pin m := rfl
@[simp] theorem State.clearDbgPort_opOf (p : PortIndex) (c' : Ctx) : (s.clearDbgPort p).opOf c' = s.opOf c' := rfl

/-! ### `State.advance` -/

@[simp] theorem State.advance_stack (k : Nat) : (s.advance k).stack = s.stack := rfl
@[simp] theorem State.advance_ctxs (k : Nat) : (s.advance k).ctxs = s.ctxs := rfl
@[simp] theorem State.advance_faults (k : Nat) : (s.advance k).faults = s.faults := rfl
@[simp] theorem State.advance_refused (k : Nat) : (s.advance k).refused = s.refused := rfl
@[simp] theorem State.advance_refusals (k : Nat) : (s.advance k).refusals = s.refusals := rfl
@[simp] theorem State.advance_trace (k : Nat) : (s.advance k).trace = s.trace := rfl
@[simp] theorem State.advance_timeCyc (k : Nat) : (s.advance k).timeCyc = s.timeCyc + k := rfl
@[simp] theorem State.advance_tLast (k : Nat) : (s.advance k).tLast = s.tLast := rfl
@[simp] theorem State.advance_tAcc (k : Nat) : (s.advance k).tAcc = s.tAcc := rfl
@[simp] theorem State.advance_tCrit (k : Nat) : (s.advance k).tCrit = s.tCrit := rfl
@[simp] theorem State.advance_ports (k : Nat) : (s.advance k).ports = s.ports := rfl
@[simp] theorem State.advance_pins (k : Nat) : (s.advance k).pins = s.pins := rfl
@[simp] theorem State.advance_dbgPort (k : Nat) : (s.advance k).dbgPort = s.dbgPort := rfl
@[simp] theorem State.advance_wdtFeeds (k : Nat) : (s.advance k).wdtFeeds = s.wdtFeeds := rfl
@[simp] theorem State.advance_params (k : Nat) : (s.advance k).params = s.params := rfl
@[simp] theorem State.advance_moves (k : Nat) : (s.advance k).moves = s.moves := rfl
@[simp] theorem State.advance_draws (k : Nat) : (s.advance k).draws = s.draws := rfl
@[simp] theorem State.advance_nextQueue (k : Nat) : (s.advance k).nextQueue = s.nextQueue := rfl
@[simp] theorem State.advance_running (k : Nat) : (s.advance k).running = s.running := rfl
@[simp] theorem State.advance_port (k : Nat) (q' : PortId) : (s.advance k).port q' = s.port q' := rfl
@[simp] theorem State.advance_pin (k : Nat) (m : Nat) : (s.advance k).pin m = s.pin m := rfl
@[simp] theorem State.advance_opOf (k : Nat) (c' : Ctx) : (s.advance k).opOf c' = s.opOf c' := rfl

/-! ### `State.pushIsr` -/

@[simp] theorem State.pushIsr_stack (k : Cause) : (s.pushIsr k).stack = s.ctxs.isrs.length :: s.stack := rfl
@[simp] theorem State.pushIsr_ctxs (k : Cause) : (s.pushIsr k).ctxs = { s.ctxs with isrs := s.ctxs.isrs ++ [.fresh] } := rfl
@[simp] theorem State.pushIsr_faults (k : Cause) : (s.pushIsr k).faults = s.faults := rfl
@[simp] theorem State.pushIsr_refused (k : Cause) : (s.pushIsr k).refused = s.refused := rfl
@[simp] theorem State.pushIsr_refusals (k : Cause) : (s.pushIsr k).refusals = s.refusals := rfl
@[simp] theorem State.pushIsr_trace (k : Cause) : (s.pushIsr k).trace = s.trace ++ [.intEnter (.isr s.ctxs.isrs.length) k] := rfl
@[simp] theorem State.pushIsr_timeCyc (k : Cause) : (s.pushIsr k).timeCyc = s.timeCyc := rfl
@[simp] theorem State.pushIsr_tLast (k : Cause) : (s.pushIsr k).tLast = s.tLast := rfl
@[simp] theorem State.pushIsr_tAcc (k : Cause) : (s.pushIsr k).tAcc = s.tAcc := rfl
@[simp] theorem State.pushIsr_tCrit (k : Cause) : (s.pushIsr k).tCrit = s.tCrit := rfl
@[simp] theorem State.pushIsr_ports (k : Cause) : (s.pushIsr k).ports = s.ports := rfl
@[simp] theorem State.pushIsr_pins (k : Cause) : (s.pushIsr k).pins = s.pins := rfl
@[simp] theorem State.pushIsr_dbgPort (k : Cause) : (s.pushIsr k).dbgPort = s.dbgPort := rfl
@[simp] theorem State.pushIsr_wdtFeeds (k : Cause) : (s.pushIsr k).wdtFeeds = s.wdtFeeds := rfl
@[simp] theorem State.pushIsr_params (k : Cause) : (s.pushIsr k).params = s.params := rfl
@[simp] theorem State.pushIsr_moves (k : Cause) : (s.pushIsr k).moves = s.moves := rfl
@[simp] theorem State.pushIsr_draws (k : Cause) : (s.pushIsr k).draws = s.draws := rfl
@[simp] theorem State.pushIsr_nextQueue (k : Cause) : (s.pushIsr k).nextQueue = s.nextQueue := rfl
@[simp] theorem State.pushIsr_port (k : Cause) (q' : PortId) : (s.pushIsr k).port q' = s.port q' := rfl
@[simp] theorem State.pushIsr_pin (k : Cause) (m : Nat) : (s.pushIsr k).pin m = s.pin m := rfl

/-! ### `State.now` -/

@[simp] theorem State.now_stack : (s.now.2).stack = s.stack := rfl
@[simp] theorem State.now_ctxs : (s.now.2).ctxs = s.ctxs := rfl
@[simp] theorem State.now_faults : (s.now.2).faults = s.faults := rfl
@[simp] theorem State.now_refused : (s.now.2).refused = s.refused := rfl
@[simp] theorem State.now_refusals : (s.now.2).refusals = s.refusals := rfl
@[simp] theorem State.now_trace : (s.now.2).trace = s.trace ++ [.now s.running s.ccount s.nowValue] := rfl
@[simp] theorem State.now_timeCyc : (s.now.2).timeCyc = s.timeCyc := rfl
@[simp] theorem State.now_tLast : (s.now.2).tLast = s.ccount := rfl
@[simp] theorem State.now_tAcc : (s.now.2).tAcc = if s.ccount < s.tLast then s.tAcc + microsOf (wrapUs s.params) else s.tAcc := rfl
@[simp] theorem State.now_tCrit : (s.now.2).tCrit = .free := rfl
@[simp] theorem State.now_ports : (s.now.2).ports = s.ports := rfl
@[simp] theorem State.now_pins : (s.now.2).pins = s.pins := rfl
@[simp] theorem State.now_dbgPort : (s.now.2).dbgPort = s.dbgPort := rfl
@[simp] theorem State.now_wdtFeeds : (s.now.2).wdtFeeds = s.wdtFeeds := rfl
@[simp] theorem State.now_params : (s.now.2).params = s.params := rfl
@[simp] theorem State.now_moves : (s.now.2).moves = s.moves := rfl
@[simp] theorem State.now_draws : (s.now.2).draws = s.draws := rfl
@[simp] theorem State.now_nextQueue : (s.now.2).nextQueue = s.nextQueue := rfl
@[simp] theorem State.now_running : (s.now.2).running = s.running := rfl
@[simp] theorem State.now_port (q' : PortId) : (s.now.2).port q' = s.port q' := rfl
@[simp] theorem State.now_pin (m : Nat) : (s.now.2).pin m = s.pin m := rfl
@[simp] theorem State.now_opOf (c' : Ctx) : (s.now.2).opOf c' = s.opOf c' := rfl

/-! ### `State.regWrite` -/

@[simp] theorem State.regWrite_stack (q : PortId) (f : WField) (v : Nat) : (s.regWrite q f v).stack = s.stack := rfl
@[simp] theorem State.regWrite_ctxs (q : PortId) (f : WField) (v : Nat) : (s.regWrite q f v).ctxs = s.ctxs := rfl
@[simp] theorem State.regWrite_faults (q : PortId) (f : WField) (v : Nat) : (s.regWrite q f v).faults = s.faults := rfl
@[simp] theorem State.regWrite_refused (q : PortId) (f : WField) (v : Nat) : (s.regWrite q f v).refused = s.refused := rfl
@[simp] theorem State.regWrite_refusals (q : PortId) (f : WField) (v : Nat) : (s.regWrite q f v).refusals = s.refusals := rfl
@[simp] theorem State.regWrite_trace (q : PortId) (f : WField) (v : Nat) : (s.regWrite q f v).trace = s.trace ++ [.regW q f (storedValue s.params f v)] := rfl
@[simp] theorem State.regWrite_timeCyc (q : PortId) (f : WField) (v : Nat) : (s.regWrite q f v).timeCyc = s.timeCyc := rfl
@[simp] theorem State.regWrite_tLast (q : PortId) (f : WField) (v : Nat) : (s.regWrite q f v).tLast = s.tLast := rfl
@[simp] theorem State.regWrite_tAcc (q : PortId) (f : WField) (v : Nat) : (s.regWrite q f v).tAcc = s.tAcc := rfl
@[simp] theorem State.regWrite_tCrit (q : PortId) (f : WField) (v : Nat) : (s.regWrite q f v).tCrit = s.tCrit := rfl
@[simp] theorem State.regWrite_ports (q : PortId) (f : WField) (v : Nat) : (s.regWrite q f v).ports = s.ports.set q { s.port q with regs := (s.port q).regs.write s.params f v } := rfl
@[simp] theorem State.regWrite_pins (q : PortId) (f : WField) (v : Nat) : (s.regWrite q f v).pins = s.pins := rfl
@[simp] theorem State.regWrite_dbgPort (q : PortId) (f : WField) (v : Nat) : (s.regWrite q f v).dbgPort = s.dbgPort := rfl
@[simp] theorem State.regWrite_wdtFeeds (q : PortId) (f : WField) (v : Nat) : (s.regWrite q f v).wdtFeeds = s.wdtFeeds := rfl
@[simp] theorem State.regWrite_params (q : PortId) (f : WField) (v : Nat) : (s.regWrite q f v).params = s.params := rfl
@[simp] theorem State.regWrite_moves (q : PortId) (f : WField) (v : Nat) : (s.regWrite q f v).moves = s.moves := rfl
@[simp] theorem State.regWrite_draws (q : PortId) (f : WField) (v : Nat) : (s.regWrite q f v).draws = s.draws := rfl
@[simp] theorem State.regWrite_nextQueue (q : PortId) (f : WField) (v : Nat) : (s.regWrite q f v).nextQueue = s.nextQueue := rfl
@[simp] theorem State.regWrite_running (q : PortId) (f : WField) (v : Nat) : (s.regWrite q f v).running = s.running := rfl
@[simp] theorem State.regWrite_pin (q : PortId) (f : WField) (v : Nat) (m : Nat) : (s.regWrite q f v).pin m = s.pin m := rfl
@[simp] theorem State.regWrite_opOf (q : PortId) (f : WField) (v : Nat) (c' : Ctx) : (s.regWrite q f v).opOf c' = s.opOf c' := rfl

/-! ### `State.unlock` -/

@[simp] theorem State.unlock_stack (q : PortId) : (s.unlock q).stack = s.stack := rfl
@[simp] theorem State.unlock_ctxs (q : PortId) : (s.unlock q).ctxs = s.ctxs := rfl
@[simp] theorem State.unlock_faults (q : PortId) : (s.unlock q).faults = s.faults := rfl
@[simp] theorem State.unlock_refused (q : PortId) : (s.unlock q).refused = s.refused := rfl
@[simp] theorem State.unlock_refusals (q : PortId) : (s.unlock q).refusals = s.refusals := rfl
@[simp] theorem State.unlock_trace (q : PortId) : (s.unlock q).trace = s.trace ++ [.rel q s.running] := rfl
@[simp] theorem State.unlock_timeCyc (q : PortId) : (s.unlock q).timeCyc = s.timeCyc := rfl
@[simp] theorem State.unlock_tLast (q : PortId) : (s.unlock q).tLast = s.tLast := rfl
@[simp] theorem State.unlock_tAcc (q : PortId) : (s.unlock q).tAcc = s.tAcc := rfl
@[simp] theorem State.unlock_tCrit (q : PortId) : (s.unlock q).tCrit = s.tCrit := rfl
@[simp] theorem State.unlock_ports (q : PortId) : (s.unlock q).ports = s.ports.set q { s.port q with lock := .free } := rfl
@[simp] theorem State.unlock_pins (q : PortId) : (s.unlock q).pins = s.pins := rfl
@[simp] theorem State.unlock_dbgPort (q : PortId) : (s.unlock q).dbgPort = s.dbgPort := rfl
@[simp] theorem State.unlock_wdtFeeds (q : PortId) : (s.unlock q).wdtFeeds = s.wdtFeeds := rfl
@[simp] theorem State.unlock_params (q : PortId) : (s.unlock q).params = s.params := rfl
@[simp] theorem State.unlock_moves (q : PortId) : (s.unlock q).moves = s.moves := rfl
@[simp] theorem State.unlock_draws (q : PortId) : (s.unlock q).draws = s.draws := rfl
@[simp] theorem State.unlock_nextQueue (q : PortId) : (s.unlock q).nextQueue = s.nextQueue := rfl
@[simp] theorem State.unlock_running (q : PortId) : (s.unlock q).running = s.running := rfl
@[simp] theorem State.unlock_pin (q : PortId) (m : Nat) : (s.unlock q).pin m = s.pin m := rfl
@[simp] theorem State.unlock_opOf (q : PortId) (c' : Ctx) : (s.unlock q).opOf c' = s.opOf c' := rfl

/-! ### `State.pinDetach` -/

@[simp] theorem State.pinDetach_stack (n : Nat) : (s.pinDetach n).stack = s.stack := rfl
@[simp] theorem State.pinDetach_ctxs (n : Nat) : (s.pinDetach n).ctxs = s.ctxs := rfl
@[simp] theorem State.pinDetach_faults (n : Nat) : (s.pinDetach n).faults = s.faults := rfl
@[simp] theorem State.pinDetach_refused (n : Nat) : (s.pinDetach n).refused = s.refused := rfl
@[simp] theorem State.pinDetach_refusals (n : Nat) : (s.pinDetach n).refusals = s.refusals := rfl
@[simp] theorem State.pinDetach_trace (n : Nat) : (s.pinDetach n).trace = s.trace ++ [.mux n .detached] := rfl
@[simp] theorem State.pinDetach_timeCyc (n : Nat) : (s.pinDetach n).timeCyc = s.timeCyc := rfl
@[simp] theorem State.pinDetach_tLast (n : Nat) : (s.pinDetach n).tLast = s.tLast := rfl
@[simp] theorem State.pinDetach_tAcc (n : Nat) : (s.pinDetach n).tAcc = s.tAcc := rfl
@[simp] theorem State.pinDetach_tCrit (n : Nat) : (s.pinDetach n).tCrit = s.tCrit := rfl
@[simp] theorem State.pinDetach_ports (n : Nat) : (s.pinDetach n).ports = s.ports := rfl
@[simp] theorem State.pinDetach_pins (n : Nat) : (s.pinDetach n).pins = Pins.set s.pins n { s.pin n with mux := .detached } := rfl
@[simp] theorem State.pinDetach_dbgPort (n : Nat) : (s.pinDetach n).dbgPort = s.dbgPort := rfl
@[simp] theorem State.pinDetach_wdtFeeds (n : Nat) : (s.pinDetach n).wdtFeeds = s.wdtFeeds := rfl
@[simp] theorem State.pinDetach_params (n : Nat) : (s.pinDetach n).params = s.params := rfl
@[simp] theorem State.pinDetach_moves (n : Nat) : (s.pinDetach n).moves = s.moves := rfl
@[simp] theorem State.pinDetach_draws (n : Nat) : (s.pinDetach n).draws = s.draws := rfl
@[simp] theorem State.pinDetach_nextQueue (n : Nat) : (s.pinDetach n).nextQueue = s.nextQueue := rfl
@[simp] theorem State.pinDetach_running (n : Nat) : (s.pinDetach n).running = s.running := rfl
@[simp] theorem State.pinDetach_port (n : Nat) (q' : PortId) : (s.pinDetach n).port q' = s.port q' := rfl
@[simp] theorem State.pinDetach_opOf (n : Nat) (c' : Ctx) : (s.pinDetach n).opOf c' = s.opOf c' := rfl

/-! ### `State.pinAttach` -/

@[simp] theorem State.pinAttach_stack (n : Nat) (g : Sig) : (s.pinAttach n g).stack = s.stack := rfl
@[simp] theorem State.pinAttach_ctxs (n : Nat) (g : Sig) : (s.pinAttach n g).ctxs = s.ctxs := rfl
@[simp] theorem State.pinAttach_faults (n : Nat) (g : Sig) : (s.pinAttach n g).faults = s.faults := rfl
@[simp] theorem State.pinAttach_refused (n : Nat) (g : Sig) : (s.pinAttach n g).refused = s.refused := rfl
@[simp] theorem State.pinAttach_refusals (n : Nat) (g : Sig) : (s.pinAttach n g).refusals = s.refusals := rfl
@[simp] theorem State.pinAttach_trace (n : Nat) (g : Sig) : (s.pinAttach n g).trace = s.trace ++ [.mux n (.attached g)] := rfl
@[simp] theorem State.pinAttach_timeCyc (n : Nat) (g : Sig) : (s.pinAttach n g).timeCyc = s.timeCyc := rfl
@[simp] theorem State.pinAttach_tLast (n : Nat) (g : Sig) : (s.pinAttach n g).tLast = s.tLast := rfl
@[simp] theorem State.pinAttach_tAcc (n : Nat) (g : Sig) : (s.pinAttach n g).tAcc = s.tAcc := rfl
@[simp] theorem State.pinAttach_tCrit (n : Nat) (g : Sig) : (s.pinAttach n g).tCrit = s.tCrit := rfl
@[simp] theorem State.pinAttach_ports (n : Nat) (g : Sig) : (s.pinAttach n g).ports = s.ports := rfl
@[simp] theorem State.pinAttach_pins (n : Nat) (g : Sig) : (s.pinAttach n g).pins = Pins.set s.pins n { s.pin n with mux := .attached g } := rfl
@[simp] theorem State.pinAttach_dbgPort (n : Nat) (g : Sig) : (s.pinAttach n g).dbgPort = s.dbgPort := rfl
@[simp] theorem State.pinAttach_wdtFeeds (n : Nat) (g : Sig) : (s.pinAttach n g).wdtFeeds = s.wdtFeeds := rfl
@[simp] theorem State.pinAttach_params (n : Nat) (g : Sig) : (s.pinAttach n g).params = s.params := rfl
@[simp] theorem State.pinAttach_moves (n : Nat) (g : Sig) : (s.pinAttach n g).moves = s.moves := rfl
@[simp] theorem State.pinAttach_draws (n : Nat) (g : Sig) : (s.pinAttach n g).draws = s.draws := rfl
@[simp] theorem State.pinAttach_nextQueue (n : Nat) (g : Sig) : (s.pinAttach n g).nextQueue = s.nextQueue := rfl
@[simp] theorem State.pinAttach_running (n : Nat) (g : Sig) : (s.pinAttach n g).running = s.running := rfl
@[simp] theorem State.pinAttach_port (n : Nat) (g : Sig) (q' : PortId) : (s.pinAttach n g).port q' = s.port q' := rfl
@[simp] theorem State.pinAttach_opOf (n : Nat) (g : Sig) (c' : Ctx) : (s.pinAttach n g).opOf c' = s.opOf c' := rfl

/-! ### `State.pinOutput` -/

@[simp] theorem State.pinOutput_stack (n : Nat) : (s.pinOutput n).stack = s.stack := rfl
@[simp] theorem State.pinOutput_ctxs (n : Nat) : (s.pinOutput n).ctxs = s.ctxs := rfl
@[simp] theorem State.pinOutput_faults (n : Nat) : (s.pinOutput n).faults = s.faults := rfl
@[simp] theorem State.pinOutput_refused (n : Nat) : (s.pinOutput n).refused = s.refused := rfl
@[simp] theorem State.pinOutput_refusals (n : Nat) : (s.pinOutput n).refusals = s.refusals := rfl
@[simp] theorem State.pinOutput_trace (n : Nat) : (s.pinOutput n).trace = s.trace := rfl
@[simp] theorem State.pinOutput_timeCyc (n : Nat) : (s.pinOutput n).timeCyc = s.timeCyc := rfl
@[simp] theorem State.pinOutput_tLast (n : Nat) : (s.pinOutput n).tLast = s.tLast := rfl
@[simp] theorem State.pinOutput_tAcc (n : Nat) : (s.pinOutput n).tAcc = s.tAcc := rfl
@[simp] theorem State.pinOutput_tCrit (n : Nat) : (s.pinOutput n).tCrit = s.tCrit := rfl
@[simp] theorem State.pinOutput_ports (n : Nat) : (s.pinOutput n).ports = s.ports := rfl
@[simp] theorem State.pinOutput_pins (n : Nat) : (s.pinOutput n).pins = Pins.set s.pins n { s.pin n with dir := .output } := rfl
@[simp] theorem State.pinOutput_dbgPort (n : Nat) : (s.pinOutput n).dbgPort = s.dbgPort := rfl
@[simp] theorem State.pinOutput_wdtFeeds (n : Nat) : (s.pinOutput n).wdtFeeds = s.wdtFeeds := rfl
@[simp] theorem State.pinOutput_params (n : Nat) : (s.pinOutput n).params = s.params := rfl
@[simp] theorem State.pinOutput_moves (n : Nat) : (s.pinOutput n).moves = s.moves := rfl
@[simp] theorem State.pinOutput_draws (n : Nat) : (s.pinOutput n).draws = s.draws := rfl
@[simp] theorem State.pinOutput_nextQueue (n : Nat) : (s.pinOutput n).nextQueue = s.nextQueue := rfl
@[simp] theorem State.pinOutput_running (n : Nat) : (s.pinOutput n).running = s.running := rfl
@[simp] theorem State.pinOutput_port (n : Nat) (q' : PortId) : (s.pinOutput n).port q' = s.port q' := rfl
@[simp] theorem State.pinOutput_opOf (n : Nat) (c' : Ctx) : (s.pinOutput n).opOf c' = s.opOf c' := rfl

/-! ### `State.pinWrite` -/

@[simp] theorem State.pinWrite_stack (n : Nat) (b : Bool) : (s.pinWrite n b).stack = s.stack := rfl
@[simp] theorem State.pinWrite_ctxs (n : Nat) (b : Bool) : (s.pinWrite n b).ctxs = s.ctxs := rfl
@[simp] theorem State.pinWrite_faults (n : Nat) (b : Bool) : (s.pinWrite n b).faults = s.faults := rfl
@[simp] theorem State.pinWrite_refused (n : Nat) (b : Bool) : (s.pinWrite n b).refused = s.refused := rfl
@[simp] theorem State.pinWrite_refusals (n : Nat) (b : Bool) : (s.pinWrite n b).refusals = s.refusals := rfl
@[simp] theorem State.pinWrite_trace (n : Nat) (b : Bool) : (s.pinWrite n b).trace = s.trace ++ [.line n b] := rfl
@[simp] theorem State.pinWrite_timeCyc (n : Nat) (b : Bool) : (s.pinWrite n b).timeCyc = s.timeCyc := rfl
@[simp] theorem State.pinWrite_tLast (n : Nat) (b : Bool) : (s.pinWrite n b).tLast = s.tLast := rfl
@[simp] theorem State.pinWrite_tAcc (n : Nat) (b : Bool) : (s.pinWrite n b).tAcc = s.tAcc := rfl
@[simp] theorem State.pinWrite_tCrit (n : Nat) (b : Bool) : (s.pinWrite n b).tCrit = s.tCrit := rfl
@[simp] theorem State.pinWrite_ports (n : Nat) (b : Bool) : (s.pinWrite n b).ports = s.ports := rfl
@[simp] theorem State.pinWrite_pins (n : Nat) (b : Bool) : (s.pinWrite n b).pins = Pins.set s.pins n { s.pin n with level := b } := rfl
@[simp] theorem State.pinWrite_dbgPort (n : Nat) (b : Bool) : (s.pinWrite n b).dbgPort = s.dbgPort := rfl
@[simp] theorem State.pinWrite_wdtFeeds (n : Nat) (b : Bool) : (s.pinWrite n b).wdtFeeds = s.wdtFeeds := rfl
@[simp] theorem State.pinWrite_params (n : Nat) (b : Bool) : (s.pinWrite n b).params = s.params := rfl
@[simp] theorem State.pinWrite_moves (n : Nat) (b : Bool) : (s.pinWrite n b).moves = s.moves := rfl
@[simp] theorem State.pinWrite_draws (n : Nat) (b : Bool) : (s.pinWrite n b).draws = s.draws := rfl
@[simp] theorem State.pinWrite_nextQueue (n : Nat) (b : Bool) : (s.pinWrite n b).nextQueue = s.nextQueue := rfl
@[simp] theorem State.pinWrite_running (n : Nat) (b : Bool) : (s.pinWrite n b).running = s.running := rfl
@[simp] theorem State.pinWrite_port (n : Nat) (b : Bool) (q' : PortId) : (s.pinWrite n b).port q' = s.port q' := rfl
@[simp] theorem State.pinWrite_opOf (n : Nat) (b : Bool) (c' : Ctx) : (s.pinWrite n b).opOf c' = s.opOf c' := rfl

/-! ### `State.yield` -/

@[simp] theorem State.yield_stack : (s.yield).stack = s.stack := rfl
@[simp] theorem State.yield_ctxs : (s.yield).ctxs = s.ctxs := rfl
@[simp] theorem State.yield_faults : (s.yield).faults = s.faults := rfl
@[simp] theorem State.yield_refused : (s.yield).refused = s.refused := rfl
@[simp] theorem State.yield_refusals : (s.yield).refusals = s.refusals := rfl
@[simp] theorem State.yield_trace : (s.yield).trace = s.trace ++ [.yield s.running] := rfl
@[simp] theorem State.yield_timeCyc : (s.yield).timeCyc = s.timeCyc := rfl
@[simp] theorem State.yield_tLast : (s.yield).tLast = s.tLast := rfl
@[simp] theorem State.yield_tAcc : (s.yield).tAcc = s.tAcc := rfl
@[simp] theorem State.yield_tCrit : (s.yield).tCrit = s.tCrit := rfl
@[simp] theorem State.yield_ports : (s.yield).ports = s.ports := rfl
@[simp] theorem State.yield_pins : (s.yield).pins = s.pins := rfl
@[simp] theorem State.yield_dbgPort : (s.yield).dbgPort = s.dbgPort := rfl
@[simp] theorem State.yield_wdtFeeds : (s.yield).wdtFeeds = s.wdtFeeds := rfl
@[simp] theorem State.yield_params : (s.yield).params = s.params := rfl
@[simp] theorem State.yield_moves : (s.yield).moves = s.moves := rfl
@[simp] theorem State.yield_draws : (s.yield).draws = s.draws := rfl
@[simp] theorem State.yield_nextQueue : (s.yield).nextQueue = s.nextQueue := rfl
@[simp] theorem State.yield_running : (s.yield).running = s.running := rfl
@[simp] theorem State.yield_port (q' : PortId) : (s.yield).port q' = s.port q' := rfl
@[simp] theorem State.yield_pin (m : Nat) : (s.yield).pin m = s.pin m := rfl
@[simp] theorem State.yield_opOf (c' : Ctx) : (s.yield).opOf c' = s.opOf c' := rfl

/-! ### `State.openPort` -/

@[simp] theorem State.openPort_stack (q : PortId) : (s.openPort q).stack = s.stack := rfl
@[simp] theorem State.openPort_ctxs (q : PortId) : (s.openPort q).ctxs = s.ctxs := rfl
@[simp] theorem State.openPort_faults (q : PortId) : (s.openPort q).faults = s.faults := rfl
@[simp] theorem State.openPort_refused (q : PortId) : (s.openPort q).refused = s.refused := rfl
@[simp] theorem State.openPort_refusals (q : PortId) : (s.openPort q).refusals = s.refusals := rfl
@[simp] theorem State.openPort_trace (q : PortId) : (s.openPort q).trace = s.trace := rfl
@[simp] theorem State.openPort_timeCyc (q : PortId) : (s.openPort q).timeCyc = s.timeCyc := rfl
@[simp] theorem State.openPort_tLast (q : PortId) : (s.openPort q).tLast = s.tLast := rfl
@[simp] theorem State.openPort_tAcc (q : PortId) : (s.openPort q).tAcc = s.tAcc := rfl
@[simp] theorem State.openPort_tCrit (q : PortId) : (s.openPort q).tCrit = s.tCrit := rfl
@[simp] theorem State.openPort_ports (q : PortId) : (s.openPort q).ports = s.ports.set q s.openedPort := rfl
@[simp] theorem State.openPort_pins (q : PortId) : (s.openPort q).pins = Pins.set s.pins (txPin s.params q) (Config.openPin s.draws) := rfl
@[simp] theorem State.openPort_dbgPort (q : PortId) : (s.openPort q).dbgPort = s.dbgPort := rfl
@[simp] theorem State.openPort_wdtFeeds (q : PortId) : (s.openPort q).wdtFeeds = s.wdtFeeds := rfl
@[simp] theorem State.openPort_params (q : PortId) : (s.openPort q).params = s.params := rfl
@[simp] theorem State.openPort_moves (q : PortId) : (s.openPort q).moves = s.moves := rfl
@[simp] theorem State.openPort_draws (q : PortId) : (s.openPort q).draws = s.draws + 1 := rfl
@[simp] theorem State.openPort_nextQueue (q : PortId) : (s.openPort q).nextQueue = s.nextQueue + 1 := rfl
@[simp] theorem State.openPort_running (q : PortId) : (s.openPort q).running = s.running := rfl
@[simp] theorem State.openPort_opOf (q : PortId) (c' : Ctx) : (s.openPort q).opOf c' = s.opOf c' := rfl

/-! ### `State.releasePort` -/

@[simp] theorem State.releasePort_stack (q : PortId) : (s.releasePort q).stack = s.stack := rfl
@[simp] theorem State.releasePort_ctxs (q : PortId) : (s.releasePort q).ctxs = s.ctxs := rfl
@[simp] theorem State.releasePort_faults (q : PortId) : (s.releasePort q).faults = s.faults := rfl
@[simp] theorem State.releasePort_refused (q : PortId) : (s.releasePort q).refused = s.refused := rfl
@[simp] theorem State.releasePort_refusals (q : PortId) : (s.releasePort q).refusals = s.refusals := rfl
@[simp] theorem State.releasePort_trace (q : PortId) : (s.releasePort q).trace = s.trace := rfl
@[simp] theorem State.releasePort_timeCyc (q : PortId) : (s.releasePort q).timeCyc = s.timeCyc := rfl
@[simp] theorem State.releasePort_tLast (q : PortId) : (s.releasePort q).tLast = s.tLast := rfl
@[simp] theorem State.releasePort_tAcc (q : PortId) : (s.releasePort q).tAcc = s.tAcc := rfl
@[simp] theorem State.releasePort_tCrit (q : PortId) : (s.releasePort q).tCrit = s.tCrit := rfl
@[simp] theorem State.releasePort_ports (q : PortId) : (s.releasePort q).ports = s.ports.set q { s.port q with evq := none, lock := .free } := rfl
@[simp] theorem State.releasePort_pins (q : PortId) : (s.releasePort q).pins = s.pins := rfl
@[simp] theorem State.releasePort_dbgPort (q : PortId) : (s.releasePort q).dbgPort = s.dbgPort := rfl
@[simp] theorem State.releasePort_wdtFeeds (q : PortId) : (s.releasePort q).wdtFeeds = s.wdtFeeds := rfl
@[simp] theorem State.releasePort_params (q : PortId) : (s.releasePort q).params = s.params := rfl
@[simp] theorem State.releasePort_moves (q : PortId) : (s.releasePort q).moves = s.moves := rfl
@[simp] theorem State.releasePort_draws (q : PortId) : (s.releasePort q).draws = s.draws := rfl
@[simp] theorem State.releasePort_nextQueue (q : PortId) : (s.releasePort q).nextQueue = s.nextQueue := rfl
@[simp] theorem State.releasePort_running (q : PortId) : (s.releasePort q).running = s.running := rfl
@[simp] theorem State.releasePort_pin (q : PortId) (m : Nat) : (s.releasePort q).pin m = s.pin m := rfl
@[simp] theorem State.releasePort_opOf (q : PortId) (c' : Ctx) : (s.releasePort q).opOf c' = s.opOf c' := rfl

/-! ### `State.nullHandle` -/

@[simp] theorem State.nullHandle_stack (q : PortId) : (s.nullHandle q).stack = s.stack := rfl
@[simp] theorem State.nullHandle_ctxs (q : PortId) : (s.nullHandle q).ctxs = s.ctxs := rfl
@[simp] theorem State.nullHandle_faults (q : PortId) : (s.nullHandle q).faults = s.faults := rfl
@[simp] theorem State.nullHandle_refused (q : PortId) : (s.nullHandle q).refused = s.refused := rfl
@[simp] theorem State.nullHandle_refusals (q : PortId) : (s.nullHandle q).refusals = s.refusals := rfl
@[simp] theorem State.nullHandle_trace (q : PortId) : (s.nullHandle q).trace = s.trace := rfl
@[simp] theorem State.nullHandle_timeCyc (q : PortId) : (s.nullHandle q).timeCyc = s.timeCyc := rfl
@[simp] theorem State.nullHandle_tLast (q : PortId) : (s.nullHandle q).tLast = s.tLast := rfl
@[simp] theorem State.nullHandle_tAcc (q : PortId) : (s.nullHandle q).tAcc = s.tAcc := rfl
@[simp] theorem State.nullHandle_tCrit (q : PortId) : (s.nullHandle q).tCrit = s.tCrit := rfl
@[simp] theorem State.nullHandle_ports (q : PortId) : (s.nullHandle q).ports = s.ports.set q { s.port q with handle := .null } := rfl
@[simp] theorem State.nullHandle_pins (q : PortId) : (s.nullHandle q).pins = s.pins := rfl
@[simp] theorem State.nullHandle_dbgPort (q : PortId) : (s.nullHandle q).dbgPort = s.dbgPort := rfl
@[simp] theorem State.nullHandle_wdtFeeds (q : PortId) : (s.nullHandle q).wdtFeeds = s.wdtFeeds := rfl
@[simp] theorem State.nullHandle_params (q : PortId) : (s.nullHandle q).params = s.params := rfl
@[simp] theorem State.nullHandle_moves (q : PortId) : (s.nullHandle q).moves = s.moves := rfl
@[simp] theorem State.nullHandle_draws (q : PortId) : (s.nullHandle q).draws = s.draws := rfl
@[simp] theorem State.nullHandle_nextQueue (q : PortId) : (s.nullHandle q).nextQueue = s.nextQueue := rfl
@[simp] theorem State.nullHandle_running (q : PortId) : (s.nullHandle q).running = s.running := rfl
@[simp] theorem State.nullHandle_pin (q : PortId) (m : Nat) : (s.nullHandle q).pin m = s.pin m := rfl
@[simp] theorem State.nullHandle_opOf (q : PortId) (c' : Ctx) : (s.nullHandle q).opOf c' = s.opOf c' := rfl

end Sys2Proof.Machine
end

