-- ==== Sys2Proof/Laws/Ops.lean ====
section
/-! SUPPORT. What each shared operation can do, once: contexts, ports, pins, locks, the timer step, and
repeated micro-steps. -/

namespace Sys2Proof.Machine

/-! ### Contexts -/

/-- The context has been entered, so that a change of its state shows. -/
def Ctxs.known (x : Ctxs) : Ctx → Prop
  | .main => True
  | .isr n => n < x.isrs.length

theorem Ctxs.get_set_self {x : Ctxs} {c : Ctx} (h : x.known c) (y : CtxState) : (x.set c y).get c = y := by
  cases c with
  | main => rfl
  | isr n => simp [Ctxs.get, Ctxs.set, List.getElem?_set_self (show n < x.isrs.length from h)]

theorem Ctxs.get_set_ne {x : Ctxs} {c c' : Ctx} (h : c ≠ c') (y : CtxState) :
    (x.set c y).get c' = x.get c' := by
  cases c with
  | main => cases c' with
    | main => exact absurd rfl h
    | isr m => rfl
  | isr n => cases c' with
    | main => rfl
    | isr m =>
      have hnm : n ≠ m := fun e => h (by rw [e])
      simp [Ctxs.get, Ctxs.set, List.getElem?_set_ne hnm]

@[simp] theorem Ctxs.set_set (x : Ctxs) (c : Ctx) (y z : CtxState) : (x.set c y).set c z = x.set c z := by
  cases c with
  | main => rfl
  | isr n => simp [Ctxs.set]

@[simp] theorem Ctxs.set_get (x : Ctxs) (c : Ctx) : x.set c (x.get c) = x := by
  cases c with
  | main => rfl
  | isr n =>
    have h : x.isrs.set n ((x.isrs[n]?).getD .fresh) = x.isrs := by
      by_cases hn : n < x.isrs.length
      · simp [List.getElem?_eq_getElem hn]
      · exact List.set_eq_of_length_le (by omega)
    show { x with isrs := x.isrs.set n ((x.isrs[n]?).getD .fresh) } = x
    rw [h]

theorem Ctxs.known_set (x : Ctxs) (c c' : Ctx) (y : CtxState) : (x.set c y).known c' ↔ x.known c' := by
  cases c <;> cases c' <;> simp [Ctxs.known, Ctxs.set]

/-- The premise `runningKnown`, in terms of the running context. -/
theorem State.runningKnown_iff (s : State) : s.runningKnown ↔ s.ctxs.known s.running := by
  unfold State.runningKnown State.running
  cases s.stack with
  | nil => simp [Ctxs.known]
  | cons n ns => simp [Ctxs.known]

/-- A context that runs an operation has been entered. -/
theorem State.known_of_op {s : State} {i : Instr} {ph : Phase} (h : s.op = .run i ph) :
    s.ctxs.known s.running := by
  unfold State.op State.opOf at h
  cases hc : s.running with
  | main => trivial
  | isr n =>
    rw [hc] at h
    by_cases hn : n < s.ctxs.isrs.length
    · exact hn
    · have : s.ctxs.isrs[n]? = none := List.getElem?_eq_none (by omega)
      simp [Ctxs.get, this, CtxState.fresh] at h

/-- `OPSTATE` after the running context's is written. -/
theorem State.op_setOp {s : State} (h : s.ctxs.known s.running) (o : OpState) : (s.setOp o).op = o := by
  simp [State.op, State.opOf, Ctxs.get_set_self h]

theorem State.opOf_setOp_ne {s : State} {c : Ctx} (h : s.running ≠ c) (o : OpState) :
    (s.setOp o).opOf c = s.opOf c := by
  simp [State.opOf, Ctxs.get_set_ne h]

theorem State.opOf_setOp {s : State} (h : s.ctxs.known s.running) (o : OpState) (c : Ctx) :
    (s.setOp o).opOf c = if c = s.running then o else s.opOf c := by
  split
  · next hc => subst hc; exact State.op_setOp h o
  · next hc => exact State.opOf_setOp_ne (fun e => hc e.symm) o

/-- A refusal ends the operation of the running context and of no other (60_exceptions.md R242). -/
theorem State.opOf_refuse {s : State} (h : s.ctxs.known s.running) (r : RefusalReason) (c : Ctx) :
    (s.refuse r).opOf c = if c = s.running then .idle else s.opOf c :=
  State.opOf_setOp (s := s.markRefused r) h .idle c

@[simp] theorem State.setOp_setOp (s : State) (o o' : OpState) (h : s.ctxs.known s.running) :
    (s.setOp o).setOp o' = s.setOp o' := by
  have hg := Ctxs.get_set_self h { s.ctxs.get s.running with op := o }
  simp only [State.setOp]
  have hr : State.running { s with ctxs := s.ctxs.set s.running { s.ctxs.get s.running with op := o } }
      = s.running := rfl
  rw [hr, hg, Ctxs.set_set]

theorem State.setOp_self {s : State} {o : OpState} (h : s.op = o) : s.setOp o = s := by
  subst h
  show { s with ctxs := s.ctxs.set s.running (s.ctxs.get s.running) } = s
  rw [Ctxs.set_get]

/-- Writing the operation state that a context has changes nothing. -/
theorem State.set_own_op {s : State} {o : OpState} (h : s.op = o) :
    s.ctxs.set s.running { s.ctxs.get s.running with op := o } = s.ctxs := by
  subst h
  exact Ctxs.set_get _ _

/-- Every other context, and every result, is as before a change of the running context's operation. -/
theorem State.resultOf_setOp (s : State) (o : OpState) (c : Ctx) : (s.setOp o).resultOf c = s.resultOf c := by
  by_cases hc : s.running = c
  · subst hc
    by_cases hk : s.ctxs.known s.running
    · simp [State.resultOf, Ctxs.get_set_self hk]
    · cases hr : s.running with
      | main => rw [hr] at hk; exact absurd trivial hk
      | isr n =>
        rw [hr] at hk
        have hn : s.ctxs.isrs.length ≤ n := Nat.le_of_not_lt hk
        simp [State.resultOf, hr, Ctxs.set, Ctxs.get, List.set_eq_of_length_le hn]
  · simp [State.resultOf, Ctxs.get_set_ne hc]

/-! ### One micro-step -/

/-- An idle context presents the operation and takes its first micro-step. -/
theorem operate_idle {i : Instr} {s : State} {m : Phase → State → Result} (h : s.op = .idle) :
    operate i s m = m (firstPhase i) (s.goto i (firstPhase i)) := by
  simp [operate, h]

/-- A context that runs the operation goes on at its phase. -/
theorem operate_run {i : Instr} {ph : Phase} {s : State} {m : Phase → State → Result}
    (h : s.op = .run i ph) : operate i s m = m ph s := by
  simp [operate, h]

@[simp] theorem andThen_next (s : State) (k : State → Result) : andThen (.next s) k = k s := rfl

theorem execTimes_succ (n : Nat) (i : Instr) (s : State) :
    execTimes (n + 1) i s = andThen (exec i s) (execTimes n i) := rfl

/-- A micro-step that answers a next state, then the others. -/
theorem execTimes_next {n : Nat} {i : Instr} {s t : State} (h : exec i s = .next t) :
    execTimes (n + 1) i s = execTimes n i t := by
  rw [execTimes_succ, h, andThen_next]

theorem andThen_andThen (r : Result) (f g : State → Result) :
    andThen (andThen r f) g = andThen r fun s => andThen (f s) g := by
  cases r <;> rfl

/-- Micro-steps add up. -/
theorem execTimes_add (m n : Nat) (i : Instr) (s : State) :
    execTimes (m + n) i s = andThen (execTimes m i s) (execTimes n i) := by
  induction m generalizing s with
  | zero => simp [execTimes]
  | succ m ih =>
    rw [Nat.succ_add, execTimes_succ, execTimes_succ, andThen_andThen]
    congr 1
    funext t
    exact ih t

/-! ### Ports -/

@[simp] theorem State.port_setPort_self (s : State) (q : PortId) (x : Port) : (s.setPort q x).port q = x := by
  simp [State.port]

theorem State.port_setPort_ne (s : State) {q q' : PortId} (h : q ≠ q') (x : Port) :
    (s.setPort q x).port q' = s.port q' := by
  have : (q : Nat) ≠ (q' : Nat) := fun e => h (Fin.ext e)
  simp [State.port, Vector.getElem_set_ne, this]

theorem State.port_setPort (s : State) (q q' : PortId) (x : Port) :
    (s.setPort q x).port q' = if q = q' then x else s.port q' := by
  split
  · next h => subst h; simp
  · next h => exact State.port_setPort_ne s h x

@[simp] theorem State.setPort_setPort (s : State) (q : PortId) (x y : Port) :
    (s.setPort q x).setPort q y = s.setPort q y := by
  simp [State.setPort]

/-- The port of a live handle. -/
theorem State.livePort?_eq_some {s : State} {p : PortIndex} {q : PortId} :
    s.livePort? p = some q ↔ portId? p = some q ∧ (s.port q).handle = .valid := by
  unfold State.livePort?
  cases portId? p with
  | none => simp
  | some r =>
    by_cases h : (s.port r).handle = .valid
    · simp only [h, if_true, Option.some.injEq]
      constructor
      · rintro rfl; exact ⟨rfl, h⟩
      · exact fun e => e.1
    · simp only [h, if_false, Option.some.injEq]
      constructor
      · intro e; cases e
      · rintro ⟨rfl, e⟩; exact absurd e h

/-- No live port: exactly the null handle (10_state.md R35). -/
theorem State.livePort?_eq_none {s : State} {p : PortIndex} :
    s.livePort? p = none ↔ s.handle p = .null := by
  unfold State.livePort? State.handle
  cases portId? p with
  | none => simp
  | some r =>
    cases h : (s.port r).handle <;> simp [h]

theorem withPort_some {p : PortIndex} {q : PortId} (h : portId? p = some q) (k : PortId → Result) :
    withPort p k = k q := by
  simp [withPort, h]

theorem portId?_isSome {p : PortIndex} : (portId? p).isSome = physical p := by
  unfold portId? physical
  split <;> simp_all

/-- `LockTry` succeeds exactly on a free lock (20_memory.md R80). -/
theorem State.lockTry_free {s : State} {q : PortId} (h : (s.port q).lock = .free) :
    s.lockTry q = some ((s.setPort q { s.port q with lock := .held s.running }).record (.acq q s.running)) := by
  simp [State.lockTry, h]

theorem State.lockTry_held {s : State} {q : PortId} {c : Ctx} (h : (s.port q).lock = .held c) :
    s.lockTry q = none := by
  simp [State.lockTry, h]

/-! ### Pins -/

theorem State.pin_setPin {s : State} (h : Pins.wf s.pins = true) (n m : Nat) (x : Pin) :
    (s.setPin n x).pin m = if n = m then x else s.pin m := Pins.get_set h n m x

/-! ### The timer step (40_timer.md R130) -/

/-- What the timer step yields. -/
theorem State.now_value (s : State) : s.now.1 = s.nowValue := rfl

/-- What the timer step changes. -/
theorem State.now_state (s : State) :
    s.now.2 =
      { s with
        tAcc := if s.ccount < s.tLast then s.tAcc + microsOf (wrapUs s.params) else s.tAcc
        tLast := s.ccount
        tCrit := .free
        trace := s.trace ++ [.now s.running s.ccount s.nowValue] } := rfl

end Sys2Proof.Machine
end

