-- ==== Sys2Proof/Laws/Step.lean ====
section
/-! SUPPORT. What one step of the machine does, by its list of moves. -/

namespace Sys2Proof.Machine

/-- A machine with a recorded fault is quiescent (60_exceptions.md R242). -/
theorem step_faulted {s : State} {f : FaultRecord} {fs : List FaultRecord} (h : s.faults = f :: fs) :
    step s = .fault (.quiescent f.ctx f.cause) := by
  simp [step, h]

/-- A step takes the next move listed. -/
theorem step_cons {s : State} {m : Move} {ms : List Move} (hf : s.faults = []) (hm : s.moves = m :: ms) :
    step s = State.take { s with moves := ms } m := by
  unfold step
  split
  · next h => rw [hf] at h; cases h
  · split
    · next h => rw [hm] at h; cases h
    · next h => rw [hm] at h; cases h; rfl

/-- With no move listed the running context goes on (log entry 22). -/
theorem step_nil {s : State} (hf : s.faults = []) (hm : s.moves = []) : step s = s.undriven := by
  unfold step
  split
  · next h => rw [hf] at h; cases h
  · split
    · rfl
    · next h => rw [hm] at h; cases h

/-- Every step that answers a next state is one of two kinds. -/
theorem step_next {s t : State} (h : step s = .next t) :
    s.faults = [] ∧ ((s.moves = [] ∧ s.undriven = .next t) ∨
      ∃ m ms, s.moves = m :: ms ∧ State.take { s with moves := ms } m = .next t) := by
  have hf : s.faults = [] := by
    cases hc : s.faults with
    | nil => rfl
    | cons f fs => rw [step_faulted hc] at h; cases h
  refine ⟨hf, ?_⟩
  cases hm : s.moves with
  | nil => rw [step_nil hf hm] at h; exact .inl ⟨rfl, h⟩
  | cons m ms => rw [step_cons hf hm] at h; exact .inr ⟨m, ms, rfl, h⟩

/-- The running context's micro-step is one micro-step of its operation. -/
theorem State.micro_next {s t : State} (h : s.micro = .next t) :
    ∃ i ph, s.op = .run i ph ∧ exec i s = .next t := by
  unfold State.micro at h
  cases ho : s.op with
  | idle => rw [ho] at h; cases h
  | run i ph => rw [ho] at h; exact ⟨i, ph, rfl, h⟩

/-- What presenting a word with its first micro-step can do (30_encoding.md R105, R108). -/
theorem State.issue_next {s t : State} {w : Command} (h : s.issue w = .next t) :
    s.op = .idle ∧ ((decode w = none ∧ t = s.raise (.illegalCommand w)) ∨
      ∃ i, decode w = some i ∧ exec i s = .next t) := by
  unfold State.issue at h
  split at h
  · next ho =>
    refine ⟨ho, ?_⟩
    cases hd : decode w with
    | none => rw [hd] at h; cases h; exact .inl ⟨rfl, rfl⟩
    | some i => rw [hd] at h; exact .inr ⟨i, rfl, h⟩
  · cases h

/-- What presenting a word can do (10_state.md R23, 30_encoding.md R108). -/
theorem State.present_next {s t : State} {w : Command} (h : s.present w = .next t) :
    s.op = .idle ∧ ((decode w = none ∧ t = s.raise (.illegalCommand w)) ∨
      ∃ i, decode w = some i ∧ t = s.goto i (firstPhase i)) := by
  unfold State.present at h
  split at h
  · next ho =>
    refine ⟨ho, ?_⟩
    cases hd : decode w with
    | none => rw [hd] at h; cases h; exact .inl ⟨rfl, rfl⟩
    | some i => rw [hd] at h; cases h; exact .inr ⟨i, rfl, rfl⟩
  · cases h

/-- What interrupt entry can do (60_exceptions.md R257). -/
theorem State.enterInterrupt_next {s t : State} {k : Cause} (h : s.enterInterrupt k = .next t) :
    s.causeAvailable k = true ∧
      ((s.tooDeep = true ∧ t = s.refuse .nestingTooDeep) ∨ (s.tooDeep = false ∧ t = s.pushIsr k)) := by
  unfold State.enterInterrupt at h
  split at h
  · next hc =>
    refine ⟨hc, ?_⟩
    split at h
    · next hd => cases h; exact .inl ⟨hd, rfl⟩
    · next hd => cases h; exact .inr ⟨by simpa using hd, rfl⟩
  · cases h

/-- What interrupt exit can do (60_exceptions.md R259). -/
theorem State.exitInterrupt_next {s t : State} (h : s.exitInterrupt = .next t) :
    ∃ n rest, s.stack = n :: rest ∧ s.op = .idle ∧
      t = { s with stack := rest, trace := s.trace ++ [.intExit (.isr n)] } := by
  unfold State.exitInterrupt at h
  split at h
  · cases h
  · next n rest hs =>
    split at h
    · next ho => cases h; exact ⟨n, rest, hs, ho, rfl⟩
    · cases h

/-- What one step can do, by the agent that takes it (10_state.md R20). `ms` are the moves left. -/
inductive StepResult (s : State) : State → Prop
  /-- An idle machine with no move listed. -/
  | stay (hm : s.moves = []) (ho : s.op = .idle) : StepResult s s
  /-- A micro-step of an operation by the running context. -/
  | micro (ms : List Move) (i : Instr) (t : State) (hn : s.nextInstr = some i)
      (ho : s.op = .idle ∨ ∃ ph, s.op = .run i ph) (h : exec i { s with moves := ms } = .next t) :
      StepResult s t
  /-- A word that decodes to no operation. -/
  | illegal (ms : List Move) (w : Command) (ho : s.op = .idle) (hd : decode w = none) :
      StepResult s (State.raise { s with moves := ms } (.illegalCommand w))
  /-- A presentation. -/
  | present (ms : List Move) (w : Command) (i : Instr) (ho : s.op = .idle) (hd : decode w = some i)
      (hm : s.moves = .present w :: ms) :
      StepResult s (State.goto { s with moves := ms } i (firstPhase i))
  /-- The UART hardware. -/
  | uart (ms : List Move) (q : PortId) (tx rx set : Nat) (line : Bool)
      (hm : s.moves = .uart q tx rx set line :: ms) :
      StepResult s (State.uartStep { s with moves := ms } q tx rx set line)
  /-- The cycle counter. -/
  | advance (ms : List Move) (k : Nat) (hm : s.moves = .advance k :: ms) :
      StepResult s (State.advance { s with moves := ms } k)
  /-- Interrupt entry. -/
  | enter (ms : List Move) (k : Cause) (hm : s.moves = .interrupt k :: ms) :
      StepResult s (State.pushIsr { s with moves := ms } k)
  /-- Interrupt entry beyond the depth bound: a refusal, which ends the running context's operation. -/
  | tooDeep (ms : List Move) (k : Cause) (hm : s.moves = .interrupt k :: ms) :
      StepResult s (State.refuse { s with moves := ms } .nestingTooDeep)
  /-- Interrupt exit. -/
  | exit (ms : List Move) (n : Nat) (rest : List Nat) (hs : s.stack = n :: rest) (ho : s.op = .idle) :
      StepResult s { s with stack := rest, trace := s.trace ++ [.intExit (.isr n)], moves := ms }

/-- The one inversion of `step`. -/
theorem step_result {s t : State} (h : step s = .next t) : s.faults = [] ∧ StepResult s t := by
  obtain ⟨hf, ⟨hm, hu⟩ | ⟨m, ms, hm, ht⟩⟩ := step_next h
  · refine ⟨hf, ?_⟩
    unfold State.undriven at hu
    cases ho : s.op with
    | idle => rw [ho] at hu; cases hu; exact .stay hm ho
    | run i ph =>
      rw [ho] at hu
      exact .micro s.moves i t (by unfold State.nextInstr; rw [ho, hm]) (.inr ⟨ph, ho⟩) hu
  · refine ⟨hf, ?_⟩
    cases m with
    | micro =>
      obtain ⟨i, ph, ho, he⟩ := State.micro_next ht
      have ho' : s.op = .run i ph := ho
      exact .micro ms i t (by unfold State.nextInstr; rw [ho', hm]) (.inr ⟨ph, ho'⟩) he
    | present w =>
      obtain ⟨ho, ⟨hd, rfl⟩ | ⟨i, hd, rfl⟩⟩ := State.present_next ht
      · exact .illegal ms w ho hd
      · exact .present ms w i ho hd hm
    | issue w =>
      obtain ⟨ho, ⟨hd, rfl⟩ | ⟨i, hd, he⟩⟩ := State.issue_next ht
      · exact .illegal ms w ho hd
      · have ho' : s.op = .idle := ho
        refine .micro ms i t ?_ (.inl ho') he
        unfold State.nextInstr
        rw [hm]
        simp only
        rw [if_pos ho', hd]
    | uart q tx rx set line => cases ht; exact .uart ms q tx rx set line hm
    | advance k => cases ht; exact .advance ms k hm
    | interrupt k =>
      obtain ⟨-, ⟨-, rfl⟩ | ⟨-, rfl⟩⟩ := State.enterInterrupt_next ht
      · exact .tooDeep ms k hm
      · exact .enter ms k hm
    | exitInterrupt =>
      obtain ⟨n, rest, hs, ho, rfl⟩ := State.exitInterrupt_next ht
      exact .exit ms n rest hs ho

end Sys2Proof.Machine
end

