-- ==== Sys2Proof/Laws/Operations.lean ====
section
/-! SUPPORT. What a micro-step of each shared operation can do, said once: the delay, the waits, the guarded
operations, the break and `END`; and how `exec` calls them. -/

namespace Sys2Proof.Machine

/-! ### The shared operations -/

/-- The state after a successful lock attempt (20_memory.md R80). -/
def State.acquired (s : State) (q : PortId) : State :=
  (s.setPort q { s.port q with lock := .held s.running }).record (.acq q s.running)

@[simp] theorem State.acquired_stack (s : State) (q : PortId) : (s.acquired q).stack = s.stack := rfl
@[simp] theorem State.acquired_ctxs (s : State) (q : PortId) : (s.acquired q).ctxs = s.ctxs := rfl
@[simp] theorem State.acquired_faults (s : State) (q : PortId) : (s.acquired q).faults = s.faults := rfl
@[simp] theorem State.acquired_refused (s : State) (q : PortId) : (s.acquired q).refused = s.refused := rfl
@[simp] theorem State.acquired_refusals (s : State) (q : PortId) : (s.acquired q).refusals = s.refusals := rfl
@[simp] theorem State.acquired_timeCyc (s : State) (q : PortId) : (s.acquired q).timeCyc = s.timeCyc := rfl
@[simp] theorem State.acquired_tLast (s : State) (q : PortId) : (s.acquired q).tLast = s.tLast := rfl
@[simp] theorem State.acquired_tAcc (s : State) (q : PortId) : (s.acquired q).tAcc = s.tAcc := rfl
@[simp] theorem State.acquired_tCrit (s : State) (q : PortId) : (s.acquired q).tCrit = s.tCrit := rfl
@[simp] theorem State.acquired_pins (s : State) (q : PortId) : (s.acquired q).pins = s.pins := rfl
@[simp] theorem State.acquired_dbgPort (s : State) (q : PortId) : (s.acquired q).dbgPort = s.dbgPort := rfl
@[simp] theorem State.acquired_wdtFeeds (s : State) (q : PortId) : (s.acquired q).wdtFeeds = s.wdtFeeds := rfl
@[simp] theorem State.acquired_params (s : State) (q : PortId) : (s.acquired q).params = s.params := rfl
@[simp] theorem State.acquired_moves (s : State) (q : PortId) : (s.acquired q).moves = s.moves := rfl
@[simp] theorem State.acquired_draws (s : State) (q : PortId) : (s.acquired q).draws = s.draws := rfl
@[simp] theorem State.acquired_nextQueue (s : State) (q : PortId) : (s.acquired q).nextQueue = s.nextQueue := rfl
@[simp] theorem State.acquired_ports (s : State) (q : PortId) : (s.acquired q).ports = s.ports.set q { s.port q with lock := .held s.running } := rfl
@[simp] theorem State.acquired_trace (s : State) (q : PortId) : (s.acquired q).trace = s.trace ++ [.acq q s.running] := rfl
@[simp] theorem State.acquired_running (s : State) (q : PortId) : (s.acquired q).running = s.running := rfl

@[simp] theorem State.acquired_port (s : State) (q : PortId) :
    (s.acquired q).port q = { s.port q with lock := .held s.running } := State.port_setPort_self s q _

@[simp] theorem State.regWrite_port (s : State) (q : PortId) (f : WField) (v : Nat) :
    (s.regWrite q f v).port q = { s.port q with regs := (s.port q).regs.write s.params f v } :=
  State.port_setPort_self s q _

@[simp] theorem State.unlock_port (s : State) (q : PortId) :
    (s.unlock q).port q = { s.port q with lock := .free } := State.port_setPort_self s q _

/-- A delay's micro-step takes one timer step; it goes on with the locals of a delay of `d`, or returns at
the target (40_timer.md R135). -/
theorem delayStep_next {d : Micros} {ph : DPhase} {goto : DPhase → State → State} {done : State → State}
    {s t : State} (hf : ph.fits d = true) (h : delayStep d ph goto done s = .next t) :
    (∃ x : DPhase, x.fits d = true ∧ t = goto x s.now.2) ∨
      (∃ start target, ph = .d2 start target ∧ target ≤ s.now.1 ∧ t = done s.now.2) := by
  cases ph with
  | d0 =>
    simp only [delayStep] at h
    cases h
    refine .inl ⟨_, ?_, rfl⟩
    unfold delayEntry
    split <;> simp_all [DPhase.fits]
  | d1 start target =>
    simp only [DPhase.fits, decide_eq_true_eq] at hf
    simp only [delayStep] at h
    cases h
    refine .inl ⟨_, ?_, rfl⟩
    split
    · simpa only [DPhase.fits, decide_eq_true_eq] using hf
    · simpa only [DPhase.fits, decide_eq_true_eq] using hf.1
  | d2 start target =>
    simp only [delayStep] at h
    split at h
    · next hv => cases h; exact .inr ⟨start, target, rfl, hv, rfl⟩
    · cases h; exact .inl ⟨_, hf, rfl⟩

/-- A delay's micro-step always answers a next state. -/
theorem delayStep_answers (d : Micros) (ph : DPhase) (goto : DPhase → State → State) (done : State → State)
    (s : State) : ∃ t, delayStep d ph goto done s = .next t := by
  cases ph <;> exact ⟨_, rfl⟩

/-- The outcomes of a wait's micro-step (41_spinwait.md R150). -/
inductive WaitResult (i : Instr) (p : PortIndex) (form : WaitForm) (s : State) : WPhase → State → Prop
  | null (h : s.handle p = .null) : WaitResult i p form s .w0 s.finish
  | enter (q : PortId) (hp : portId? p = some q) (hv : (s.port q).handle = .valid) :
      WaitResult i p form s .w0 (s.goto i (.w .w1))
  | stale (h : s.handle p = .null) : WaitResult i p form s .w1 (s.raise (.stalePort p))
  | satisfied (q : PortId) (hp : portId? p = some q) (hv : (s.port q).handle = .valid)
      (hs : form.sat (s.regRead q form.field) = true) (hl : form.latch = none) :
      WaitResult i p form s .w1 s.finish
  | latched (q : PortId) (b : Nat) (hp : portId? p = some q) (hv : (s.port q).handle = .valid)
      (hs : form.sat (s.regRead q form.field) = true) (hl : form.latch = some b) :
      WaitResult i p form s .w1 (s.goto i (.w .w4))
  | again (q : PortId) (hp : portId? p = some q) (hv : (s.port q).handle = .valid)
      (hs : form.sat (s.regRead q form.field) = false) :
      WaitResult i p form s .w1 (s.goto i (.w .w2))
  | feed : WaitResult i p form s .w2 (s.wdtFeed.goto i (.w .w3))
  | yield : WaitResult i p form s .w3 (s.yield.goto i (.w .w1))
  | clear (q : PortId) (b : Nat) (hp : portId? p = some q) (hl : form.latch = some b) :
      WaitResult i p form s .w4 (s.regWrite q .intClr (bitMask b)).finish

/-- What a wait's micro-step can do. -/
theorem waitStep_next {i : Instr} {p : PortIndex} {form : WaitForm} {ph : WPhase} {s t : State}
    (h : waitStep i p form ph s = .next t) : WaitResult i p form s ph t := by
  cases ph with
  | w0 =>
    simp only [waitStep] at h
    split at h
    · next hn => cases h; exact .null (State.livePort?_eq_none.1 hn)
    · next q hq =>
      cases h
      exact .enter q (State.livePort?_eq_some.1 hq).1 (State.livePort?_eq_some.1 hq).2
  | w1 =>
    simp only [waitStep] at h
    split at h
    · next hn => cases h; exact .stale (State.livePort?_eq_none.1 hn)
    · next q hq =>
      obtain ⟨hp, hv⟩ := State.livePort?_eq_some.1 hq
      split at h
      · next hs =>
        split at h
        · next b hl => cases h; exact .latched q b hp hv hs hl
        · next hl => cases h; exact .satisfied q hp hv hs hl
      · next hs => cases h; exact .again q hp hv (by simpa using hs)
  | w2 => simp only [waitStep] at h; cases h; exact .feed
  | w3 => simp only [waitStep] at h; cases h; exact .yield
  | w4 =>
    simp only [waitStep] at h
    split at h
    · next b hl =>
      unfold withPort at h
      split at h
      · cases h
      · next q hq => cases h; exact .clear q b hq hl
    · cases h

/-- The outcomes of a guarded operation's micro-step (42_guarded_regops.md R170). -/
inductive GuardedResult (p : PortIndex) (body : Body) (goto : GPhase → State → State) (done : State → State)
    (s : State) : GPhase → State → Prop
  | null (h : s.handle p = .null) : GuardedResult p body goto done s .g0 (s.raise (.nullPort p))
  | enter (q : PortId) (hp : portId? p = some q) (hv : (s.port q).handle = .valid) :
      GuardedResult p body goto done s .g0 (goto .g1 s)
  | stale (h : s.handle p = .null) : GuardedResult p body goto done s .g1 (s.raise (.stalePort p))
  | spin (q : PortId) (c : Ctx) (hp : portId? p = some q) (hv : (s.port q).handle = .valid)
      (hl : (s.port q).lock = .held c) : GuardedResult p body goto done s .g1 s
  | acquire (q : PortId) (hp : portId? p = some q) (hv : (s.port q).handle = .valid)
      (hl : (s.port q).lock = .free) : GuardedResult p body goto done s .g1 (goto .b1 (s.acquired q))
  | write (q : PortId) (k : Nat) (f : WField) (v : Nat) (hp : portId? p = some q) (hk : k < 3)
      (hb : body[k]? = some (f, v)) :
      GuardedResult p body goto done s (GPhase.body k) (goto (GPhase.afterBody body k) (s.regWrite q f v))
  | release (q : PortId) (hp : portId? p = some q) :
      GuardedResult p body goto done s .gR (done (s.unlock q))

/-- What a body's register write can do. -/
theorem bodyStep_next {p : PortIndex} {body : Body} {k : Nat} {goto : GPhase → State → State} {s t : State}
    (h : bodyStep p body k goto s = .next t) :
    ∃ q f v, portId? p = some q ∧ body[k]? = some (f, v) ∧
      t = goto (GPhase.afterBody body k) (s.regWrite q f v) := by
  unfold bodyStep at h
  split at h
  · cases h
  · next fv hb =>
    unfold withPort at h
    split at h
    · cases h
    · next q hq => cases h; exact ⟨q, fv.1, fv.2, hq, hb, rfl⟩

/-- What a guarded operation's micro-step can do. -/
theorem guardedStep_next {p : PortIndex} {body : Body} {goto : GPhase → State → State} {done : State → State}
    {ph : GPhase} {s t : State} (h : guardedStep p body ph goto done s = .next t) :
    GuardedResult p body goto done s ph t := by
  cases ph with
  | g0 =>
    simp only [guardedStep] at h
    split at h
    · next hn => cases h; exact .null (State.livePort?_eq_none.1 hn)
    · next q hq =>
      cases h
      exact .enter q (State.livePort?_eq_some.1 hq).1 (State.livePort?_eq_some.1 hq).2
  | g1 =>
    simp only [guardedStep] at h
    split at h
    · next hn => cases h; exact .stale (State.livePort?_eq_none.1 hn)
    · next q hq =>
      obtain ⟨hp, hv⟩ := State.livePort?_eq_some.1 hq
      cases hl : (s.port q).lock with
      | free => rw [State.lockTry_free hl] at h; cases h; exact .acquire q hp hv hl
      | held c => rw [State.lockTry_held hl] at h; cases h; exact .spin q c hp hv hl
  | b1 =>
    obtain ⟨q, f, v, hp, hb, rfl⟩ := bodyStep_next h
    exact .write q 0 f v hp (by omega) hb
  | b2 =>
    obtain ⟨q, f, v, hp, hb, rfl⟩ := bodyStep_next h
    exact .write q 1 f v hp (by omega) hb
  | b3 =>
    obtain ⟨q, f, v, hp, hb, rfl⟩ := bodyStep_next h
    exact .write q 2 f v hp (by omega) hb
  | gR =>
    simp only [guardedStep] at h
    unfold withPort at h
    split at h
    · cases h
    · next q hq => cases h; exact .release q hq

/-- A guarded operation's micro-step answers a next state at every phase of its table. -/
theorem guardedStep_answers {p : PortIndex} {body : Body} {ph : GPhase} (goto : GPhase → State → State)
    (done : State → State) (s : State) (hf : ph.fits body.length = true) (he : ph.entered p = true) :
    ∃ t, guardedStep p body ph goto done s = .next t := by
  have hq : ph ≠ .g0 → ∃ q, portId? p = some q := by
    intro hne
    have : physical p = true := by cases ph <;> first | exact he | exact absurd rfl hne
    rw [← portId?_isSome] at this
    exact Option.isSome_iff_exists.1 this
  have hb : ∀ k, k < body.length → ph ≠ .g0 → ∃ t, bodyStep p body k goto s = .next t := by
    intro k hk hne
    obtain ⟨q, hq⟩ := hq hne
    simp [bodyStep, List.getElem?_eq_getElem hk, withPort_some hq]
  cases ph with
  | g0 => simp only [guardedStep]; split <;> exact ⟨_, rfl⟩
  | g1 =>
    simp only [guardedStep]
    split
    · exact ⟨_, rfl⟩
    · split <;> exact ⟨_, rfl⟩
  | b1 => exact hb 0 (by simp only [GPhase.fits, decide_eq_true_eq] at hf; omega) (by decide)
  | b2 => exact hb 1 (by simp only [GPhase.fits, decide_eq_true_eq] at hf; omega) (by decide)
  | b3 => exact hb 2 (by simp only [GPhase.fits, decide_eq_true_eq] at hf; omega) (by decide)
  | gR =>
    obtain ⟨q, hq⟩ := hq (by decide)
    exact ⟨_, withPort_some hq _⟩

/-- The outcomes of a micro-step of `SEND_BREAK p, d` (43_break.md R201, R203). -/
inductive BreakResult (i : Instr) (p : PortIndex) (d : Micros) (s : State) : Phase → State → Prop
  | refused (h : s.running ≠ .main) : BreakResult i p d s .s0 (s.refuse .breakOutsideMain)
  | null (hm : s.running = .main) (h : s.handle p = .null) : BreakResult i p d s .s0 (s.raise (.nullPort p))
  | enter (q : PortId) (hm : s.running = .main) (hp : portId? p = some q) (hv : (s.port q).handle = .valid) :
      BreakResult i p d s .s0 (s.goto i (.s1 (txPin s.params p.toNat)))
  | snapshot (pin : Nat) (q : PortId) (hp : portId? p = some q) :
      BreakResult i p d s (.s1 pin) (s.goto i (.s2 ⟨pin, (s.port q).regs.intEna⟩ .g0))
  | disable (l : BreakLocals) (x : GPhase) (t : State)
      (h : GuardedResult p (disableAllIntsBody s.params) (fun x s => s.goto i (.s2 l x))
        (fun s => s.goto i (.s3 l)) s x t) : BreakResult i p d s (.s2 l x) t
  | detach (l : BreakLocals) : BreakResult i p d s (.s3 l) ((s.pinDetach l.pin).goto i (.s4 l))
  | output (l : BreakLocals) : BreakResult i p d s (.s4 l) ((s.pinOutput l.pin).goto i (.s5 l))
  | low (l : BreakLocals) : BreakResult i p d s (.s5 l) ((s.pinWrite l.pin false).goto i (.s6 l .d0))
  | hold (l : BreakLocals) (x : DPhase) (t : State)
      (h : delayStep d x (fun x s => s.goto i (.s6 l x)) (fun s => s.goto i (.s7 l)) s = .next t) :
      BreakResult i p d s (.s6 l x) t
  | high (l : BreakLocals) : BreakResult i p d s (.s7 l) ((s.pinWrite l.pin true).goto i (.s8 l))
  | attach (l : BreakLocals) :
      BreakResult i p d s (.s8 l) ((s.pinAttach l.pin (sigTx p.toNat)).goto i (.s9 l .g0))
  | restore (l : BreakLocals) (x : GPhase) (t : State)
      (h : GuardedResult p (setIntMaskBody l.snap) (fun x s => s.goto i (.s9 l x)) State.finish s x t) :
      BreakResult i p d s (.s9 l x) t

/-- What a micro-step of `SEND_BREAK` can do. -/
theorem breakStep_next {i : Instr} {p : PortIndex} {d : Micros} {ph : Phase} {s t : State}
    (h : breakStep i p d ph s = .next t) : BreakResult i p d s ph t := by
  cases ph <;> simp only [breakStep, reduceCtorEq] at h
  case s0 =>
    unfold breakEntry at h
    split at h
    · next hm =>
      split at h
      · next hn => cases h; exact .null hm (State.livePort?_eq_none.1 hn)
      · next q hq =>
        cases h
        exact .enter q hm (State.livePort?_eq_some.1 hq).1 (State.livePort?_eq_some.1 hq).2
    · next hm => cases h; exact .refused hm
  case s1 pin =>
    unfold withPort at h
    split at h
    · cases h
    · next q hq => cases h; exact .snapshot pin q hq
  case s2 l x => exact .disable l x t (guardedStep_next h)
  case s3 l => cases h; exact .detach l
  case s4 l => cases h; exact .output l
  case s5 l => cases h; exact .low l
  case s6 l x => exact .hold l x t h
  case s7 l => cases h; exact .high l
  case s8 l => cases h; exact .attach l
  case s9 l x => exact .restore l x t (guardedStep_next h)

/-- The outcomes of a micro-step of `END p` (44_facade.md R223). -/
inductive EndResult (i : Instr) (p : PortIndex) (s : State) : Phase → State → Prop
  | null (h : s.handle p = .null) : EndResult i p s .e0 (s.raise (.nullPort p))
  | enter (q : PortId) (hp : portId? p = some q) (hv : (s.port q).handle = .valid) :
      EndResult i p s .e0 (s.goto i (.e1 .g0))
  | disable (x : GPhase) (t : State)
      (h : GuardedResult p (disableAllIntsBody s.params) (fun x s => s.goto i (.e1 x))
        (fun s => s.goto i .e2) s x t) : EndResult i p s (.e1 x) t
  | undesignate : EndResult i p s .e2 ((s.clearDbgPort p).goto i .e3)
  | release (q : PortId) (hp : portId? p = some q) : EndResult i p s .e3 ((s.releasePort q).goto i .e4)
  | nullify (q : PortId) (hp : portId? p = some q) : EndResult i p s .e4 (s.nullHandle q).finish

/-- What a micro-step of `END` can do. -/
theorem endStep_next {i : Instr} {p : PortIndex} {ph : Phase} {s t : State}
    (h : endStep i p ph s = .next t) : EndResult i p s ph t := by
  cases ph <;> simp only [endStep, reduceCtorEq] at h
  case e0 =>
    split at h
    · next hn => cases h; exact .null (State.livePort?_eq_none.1 hn)
    · next q hq =>
      cases h
      exact .enter q (State.livePort?_eq_some.1 hq).1 (State.livePort?_eq_some.1 hq).2
  case e1 x => exact .disable x t (guardedStep_next h)
  case e2 => cases h; exact .undesignate
  case e3 =>
    unfold withPort at h
    split at h
    · cases h
    · next q hq => cases h; exact .release q hq
  case e4 =>
    unfold withPort at h
    split at h
    · cases h
    · next q hq => cases h; exact .nullify q hq

/-- The outcomes of the micro-step of `OPEN p` (44_facade.md R221). -/
inductive OpenResult (p : PortIndex) (s : State) : Phase → State → Prop
  | missing (h : portId? p = none) : OpenResult p s .o0 (s.raise (.badPort p))
  | already (q : PortId) (hp : portId? p = some q) (hv : (s.port q).handle = .valid) :
      OpenResult p s .o0 (s.raise (.portAlreadyOpen p))
  | opened (q : PortId) (hp : portId? p = some q) (hn : (s.port q).handle = .null) :
      OpenResult p s .o0 (s.openPort q).finish

/-- What the micro-step of `OPEN` can do. -/
theorem openStep_next {p : PortIndex} {ph : Phase} {s t : State} (h : openStep p ph s = .next t) :
    OpenResult p s ph t := by
  cases ph <;> simp only [openStep, reduceCtorEq] at h
  split at h
  · next hn => cases h; exact .missing hn
  · next q hq =>
    split at h
    · next hv => cases h; exact .already q hq hv
    · next hv =>
      cases h
      refine .opened q hq ?_
      cases hh : (s.port q).handle with
      | null => rfl
      | valid => exact absurd hh hv

/-! ### How `exec` calls them -/

/-- The wait an operation is (41_spinwait.md R153 to R156). -/
def waitOf (P : Params) : Instr → Option (PortIndex × WaitForm)
  | .waitTxfifoEmpty p => some (p, fifoEmptyForm .txfifoCnt)
  | .waitRxfifoEmpty p => some (p, fifoEmptyForm .rxfifoCnt)
  | .waitTxDone p => some (p, latchForm P.txDoneBit)
  | .waitTxBrkDone p => some (p, latchForm P.txBrkIdleDoneBit)
  | _ => none

/-- The guarded operation an operation is (42_guarded_regops.md R174 to R181). -/
def guardedOf (P : Params) : Instr → Option (PortIndex × Body)
  | .setRs485Mode p => some (p, setRs485ModeBody)
  | .cfgBreakGen p en blen ilen => some (p, cfgBreakGenBody en blen ilen)
  | .forceTwoStopBits p => some (p, forceTwoStopBitsBody P)
  | .enableBrkDet p => some (p, enableBrkDetBody P)
  | .disableBrkDet p => some (p, disableBrkDetBody)
  | .disableAllInts p => some (p, disableAllIntsBody P)
  | .setIntMask p v => some (p, setIntMaskBody v.toNat)
  | .clearAllInts p => some (p, clearAllIntsBody P)
  | _ => none

theorem exec_wait {i : Instr} {s : State} {p : PortIndex} {form : WaitForm}
    (h : waitOf s.params i = some (p, form)) : exec i s = operate i s (waitOperation i p form) := by
  cases i <;> simp only [waitOf, Option.some.injEq, Prod.mk.injEq, reduceCtorEq] at h <;>
    (obtain ⟨rfl, rfl⟩ := h; rfl)

theorem exec_guarded {i : Instr} {s : State} {p : PortIndex} {body : Body}
    (h : guardedOf s.params i = some (p, body)) : exec i s = operate i s (guardedOperation i p body) := by
  cases i <;> simp only [guardedOf, Option.some.injEq, Prod.mk.injEq, reduceCtorEq] at h <;>
    (obtain ⟨rfl, rfl⟩ := h; rfl)

/-- The phases of a guarded operation's table are those of its body. -/
theorem bodyLength_guarded {i : Instr} {P : Params} {p : PortIndex} {body : Body}
    (h : guardedOf P i = some (p, body)) : bodyLength i = body.length ∧ portOperand i = some p := by
  cases i <;> simp only [guardedOf, Option.some.injEq, Prod.mk.injEq, reduceCtorEq] at h <;>
    (obtain ⟨rfl, rfl⟩ := h; exact ⟨rfl, rfl⟩)

theorem wait_portOperand {i : Instr} {P : Params} {p : PortIndex} {form : WaitForm}
    (h : waitOf P i = some (p, form)) : portOperand i = some p := by
  cases i <;> simp only [waitOf, Option.some.injEq, Prod.mk.injEq, reduceCtorEq] at h <;>
    (obtain ⟨rfl, rfl⟩ := h; rfl)

/-- An idle context's first micro-step is the micro-step of the presented operation at its first phase. -/
theorem exec_idle {s : State} (hk : s.runningKnown) (ho : s.op = .idle) (i : Instr) :
    exec i s = exec i (s.goto i (firstPhase i)) := by
  have hr : (s.goto i (firstPhase i)).op = .run i (firstPhase i) :=
    State.op_setOp (s.runningKnown_iff.1 hk) _
  cases i <;>
    simp only [exec, execNowMicros, execDelayMicros, execWaitTxfifoEmpty, execWaitRxfifoEmpty, execWaitTxDone,
      execWaitTxBrkDone, execSetRs485Mode, execCfgBreakGen, execForceTwoStopBits, execEnableBrkDet,
      execDisableBrkDet, execDisableAllInts, execSetIntMask, execClearAllInts, execSendBreak, execOpenPort,
      execSetBaud, execEndPort, execGetDbgPort, execSetDbgPort, operate_idle ho, operate_run hr,
      State.goto_params]

/-- Before its first micro-step, presenting an operation changes the operation state only. -/
theorem State.op_goto {s : State} (hk : s.runningKnown) (i : Instr) (ph : Phase) :
    (s.goto i ph).op = .run i ph := State.op_setOp (s.runningKnown_iff.1 hk) _

/-- The outcomes of a micro-step of the operation that the running context is at. -/
inductive ExecResult (s : State) : Instr → Phase → State → Prop
  | now : ExecResult s .nowMicros .n0 (s.now.2.setResult s.now.1).finish
  | delay (d : BitVec 32) (x : DPhase) (t : State)
      (h : delayStep (zextDuration d) x (fun x s => s.goto (.delayMicros d) (.d x)) State.finish s = .next t) :
      ExecResult s (.delayMicros d) (.d x) t
  | wait (i : Instr) (p : PortIndex) (form : WaitForm) (x : WPhase) (t : State)
      (hi : waitOf s.params i = some (p, form)) (h : WaitResult i p form s x t) : ExecResult s i (.w x) t
  | guarded (i : Instr) (p : PortIndex) (body : Body) (x : GPhase) (t : State)
      (hi : guardedOf s.params i = some (p, body))
      (h : GuardedResult p body (fun x s => s.goto i (.g x)) State.finish s x t) : ExecResult s i (.g x) t
  | sendBreak (p : PortIndex) (d : BitVec 32) (ph : Phase) (t : State)
      (h : BreakResult (.sendBreak p d) p (zextDuration d) s ph t) : ExecResult s (.sendBreak p d) ph t
  | openPort (p : PortIndex) (ph : Phase) (t : State) (h : OpenResult p s ph t) :
      ExecResult s (.openPort p) ph t
  | setBaud (p : PortIndex) (v : BitVec 32) :
      ExecResult s (.setBaud p v) .u0 (s.refuse .baudNotInBlock)
  | endPort (p : PortIndex) (ph : Phase) (t : State) (h : EndResult (.endPort p) p s ph t) :
      ExecResult s (.endPort p) ph t
  | getDbgPort : ExecResult s .getDbgPort .q0 (s.setResult (dbgResult s.dbgPort)).finish
  | setDbgPort (p : PortIndex) (valid : Bool) :
      ExecResult s (.setDbgPort p valid) .t0 (State.finish { s with dbgPort := dbgOperand p valid })

/-- Where a context takes its micro-step from: the phase it is at, or, when it is idle, the first phase of
the operation it presents. -/
inductive Starts (i : Instr) (s : State) : Phase → State → Prop
  | idle (h : s.op = .idle) : Starts i s (firstPhase i) (s.goto i (firstPhase i))
  | run (ph : Phase) (h : s.op = .run i ph) : Starts i s ph s

/-- A micro-step that answers a next state is one of the operation's micro-steps, from where it starts. -/
theorem operate_next {i : Instr} {s t : State} {m : Phase → State → Result} (h : operate i s m = .next t) :
    ∃ ph s₀, Starts i s ph s₀ ∧ m ph s₀ = .next t := by
  unfold operate at h
  split at h
  · next ho => exact ⟨_, _, .idle ho, h⟩
  · next j ph ho =>
    split at h
    · next hj => subst hj; exact ⟨_, _, .run ph ho, h⟩
    · cases h

theorem Starts.params {i : Instr} {s s₀ : State} {ph : Phase} (h : Starts i s ph s₀) : s₀.params = s.params := by
  cases h <;> rfl

/-- What a micro-step can do: the one inversion of `exec`. -/
theorem exec_result {i : Instr} {s t : State} (h : exec i s = .next t) :
    ∃ ph s₀, Starts i s ph s₀ ∧ ExecResult s₀ i ph t := by
  have waits : ∀ p form, waitOf s.params i = some (p, form) → ∃ ph s₀, Starts i s ph s₀ ∧ ExecResult s₀ i ph t := by
    intro p form hi
    rw [exec_wait hi] at h
    obtain ⟨ph, s₀, hs, h⟩ := operate_next h
    refine ⟨ph, s₀, hs, ?_⟩
    cases ph <;> simp only [waitOperation, reduceCtorEq] at h
    exact .wait i p form _ t (by rw [hs.params]; exact hi) (waitStep_next h)
  have guards : ∀ p body, guardedOf s.params i = some (p, body) →
      ∃ ph s₀, Starts i s ph s₀ ∧ ExecResult s₀ i ph t := by
    intro p body hi
    rw [exec_guarded hi] at h
    obtain ⟨ph, s₀, hs, h⟩ := operate_next h
    refine ⟨ph, s₀, hs, ?_⟩
    cases ph <;> simp only [guardedOperation, reduceCtorEq] at h
    exact .guarded i p body _ t (by rw [hs.params]; exact hi) (guardedStep_next h)
  cases i with
  | nowMicros =>
    obtain ⟨ph, s₀, hs, h⟩ := operate_next (m := nowStep) h
    refine ⟨ph, s₀, hs, ?_⟩
    cases ph <;> simp only [nowStep, reduceCtorEq] at h
    cases h
    exact .now
  | delayMicros d =>
    obtain ⟨ph, s₀, hs, h⟩ := operate_next (m := delayOperation (.delayMicros d) (zextDuration d)) h
    refine ⟨ph, s₀, hs, ?_⟩
    cases ph <;> simp only [delayOperation, reduceCtorEq] at h
    exact .delay d _ t h
  | waitTxfifoEmpty p => exact waits _ _ rfl
  | waitRxfifoEmpty p => exact waits _ _ rfl
  | waitTxDone p => exact waits _ _ rfl
  | waitTxBrkDone p => exact waits _ _ rfl
  | setRs485Mode p => exact guards _ _ rfl
  | cfgBreakGen p en blen ilen => exact guards _ _ rfl
  | forceTwoStopBits p => exact guards _ _ rfl
  | enableBrkDet p => exact guards _ _ rfl
  | disableBrkDet p => exact guards _ _ rfl
  | disableAllInts p => exact guards _ _ rfl
  | setIntMask p v => exact guards _ _ rfl
  | clearAllInts p => exact guards _ _ rfl
  | sendBreak p d =>
    obtain ⟨ph, s₀, hs, h⟩ := operate_next (m := breakStep (.sendBreak p d) p (zextDuration d)) h
    exact ⟨ph, s₀, hs, .sendBreak p d ph t (breakStep_next h)⟩
  | openPort p =>
    obtain ⟨ph, s₀, hs, h⟩ := operate_next (m := openStep p) h
    exact ⟨ph, s₀, hs, .openPort p ph t (openStep_next h)⟩
  | setBaud p v =>
    obtain ⟨ph, s₀, hs, h⟩ := operate_next (m := setBaudStep) h
    refine ⟨ph, s₀, hs, ?_⟩
    cases ph <;> simp only [setBaudStep, reduceCtorEq] at h
    cases h
    exact .setBaud p v
  | endPort p =>
    obtain ⟨ph, s₀, hs, h⟩ := operate_next (m := endStep (.endPort p) p) h
    exact ⟨ph, s₀, hs, .endPort p ph t (endStep_next h)⟩
  | getDbgPort =>
    obtain ⟨ph, s₀, hs, h⟩ := operate_next (m := getDbgPortStep) h
    refine ⟨ph, s₀, hs, ?_⟩
    cases ph <;> simp only [getDbgPortStep, reduceCtorEq] at h
    cases h
    exact .getDbgPort
  | setDbgPort p valid =>
    obtain ⟨ph, s₀, hs, h⟩ := operate_next (m := setDbgPortStep p valid) h
    refine ⟨ph, s₀, hs, ?_⟩
    cases ph <;> simp only [setDbgPortStep, reduceCtorEq] at h
    cases h
    exact .setDbgPort p valid

end Sys2Proof.Machine
end

