-- ==== Sys2Proof/Laws/Frame.lean ====
section
/-! SUPPORT. What every micro-step leaves alone: the other contexts, the stack, the parameters, the records of
faults and refusals but for what they gain, the clock but for a timer step, the canonical form of the pin
list, the widths of the register fields, the record of interrupt entries, and the tokens given. -/

namespace Sys2Proof.Machine

/-- What a micro-step from `s` to `t` keeps. -/
structure Frame (s t : State) : Prop where
  params : t.params = s.params
  stack : t.stack = s.stack
  moves : t.moves = s.moves
  time : t.timeCyc = s.timeCyc
  entered : t.ctxs.isrs.length = s.ctxs.isrs.length
  /-- A context that does not run keeps its operation state and its result. -/
  others : ∀ c, c ≠ s.running → t.ctxs.get c = s.ctxs.get c
  faults : ∃ fs, t.faults = s.faults ++ fs
  refused : s.refused = true → t.refused = true
  refusals : ∃ rs, t.refusals = s.refusals ++ rs
  marked : s.refused = (!s.refusals.isEmpty) → t.refused = !t.refusals.isEmpty
  crit : s.tCrit = .free → t.tCrit = .free
  /-- The timer state is as before or as after one timer step. -/
  clock : (t.tAcc = s.tAcc ∧ t.tLast = s.tLast) ∨ (t.tAcc = s.now.2.tAcc ∧ t.tLast = s.ccount)
  pins : Pins.wf s.pins = true → Pins.wf t.pins = true
  widths : s.params.Valid → (∀ q, (s.port q).regs.InWidth s.params) → ∀ q, (t.port q).regs.InWidth s.params
  /-- Every interrupt entry on record was on record before. -/
  entries : ∀ c k, Event.intEnter c k ∈ t.trace → Event.intEnter c k ∈ s.trace
  /-- No event-queue token is taken back. -/
  tokens : s.nextQueue ≤ t.nextQueue

theorem Frame.running {s t : State} (h : Frame s t) : t.running = s.running := by
  unfold State.running
  rw [h.stack]

/-- Two updates of which at most one takes a timer step. -/
theorem Frame.trans {s t u : State} (h : Frame s t) (k : Frame t u)
    (hc : (t.tAcc = s.tAcc ∧ t.tLast = s.tLast) ∨ (u.tAcc = t.tAcc ∧ u.tLast = t.tLast)) : Frame s u where
  params := k.params.trans h.params
  stack := k.stack.trans h.stack
  moves := k.moves.trans h.moves
  time := k.time.trans h.time
  entered := k.entered.trans h.entered
  others := fun c hc => (k.others c (by rw [h.running]; exact hc)).trans (h.others c hc)
  faults := by
    obtain ⟨a, ha⟩ := h.faults
    obtain ⟨b, hb⟩ := k.faults
    exact ⟨a ++ b, by rw [hb, ha, List.append_assoc]⟩
  refused := fun x => k.refused (h.refused x)
  refusals := by
    obtain ⟨a, ha⟩ := h.refusals
    obtain ⟨b, hb⟩ := k.refusals
    exact ⟨a ++ b, by rw [hb, ha, List.append_assoc]⟩
  marked := fun x => k.marked (h.marked x)
  crit := fun x => k.crit (h.crit x)
  clock := by
    rcases hc with ⟨c1, c2⟩ | ⟨c1, c2⟩
    · have e2 : t.ccount = s.ccount := by
        unfold State.ccount
        rw [h.time, h.params]
      have e1 : t.now.2.tAcc = s.now.2.tAcc := by
        rw [State.now_tAcc, State.now_tAcc, c1, c2, h.params, e2]
      rcases k.clock with ⟨d1, d2⟩ | ⟨d1, d2⟩
      · exact .inl ⟨d1.trans c1, d2.trans c2⟩
      · exact .inr ⟨d1.trans e1, d2.trans e2⟩
    · rcases h.clock with ⟨d1, d2⟩ | ⟨d1, d2⟩
      · exact .inl ⟨c1.trans d1, c2.trans d2⟩
      · exact .inr ⟨c1.trans d1, c2.trans d2⟩
  pins := fun x => k.pins (h.pins x)
  widths := fun hv x => by
    have := k.widths (by rw [h.params]; exact hv) (by rw [h.params]; exact h.widths hv x)
    rw [h.params] at this
    exact this
  entries := fun c x hx => h.entries c x (k.entries c x hx)
  tokens := h.tokens.trans k.tokens

theorem Ctxs.length_set (x : Ctxs) (c : Ctx) (y : CtxState) : (x.set c y).isrs.length = x.isrs.length := by
  cases c <;> simp [Ctxs.set]

/-! ### The frame of each named operation -/

theorem Frame.refl (s : State) : Frame s s where
  params := rfl
  stack := rfl
  moves := rfl
  time := rfl
  entered := rfl
  others := fun _ _ => rfl
  faults := ⟨[], by simp⟩
  refused := id
  refusals := ⟨[], by simp⟩
  marked := id
  crit := id
  clock := .inl ⟨rfl, rfl⟩
  pins := id
  widths := fun _ h => h
  entries := fun _ _ => id
  tokens := le_rfl

/-- A recorded event that is no interrupt entry adds none. -/
theorem entry_of_append {es : List Event} {e : Event} (he : ∀ c k, e ≠ .intEnter c k) (c : Ctx) (k : Cause)
    (h : Event.intEnter c k ∈ es ++ [e]) : Event.intEnter c k ∈ es := by
  rcases List.mem_append.1 h with h | h
  · exact h
  · exact absurd (List.mem_singleton.1 h).symm (he c k)

theorem Frame.setOp (s : State) (o : OpState) : Frame s (s.setOp o) :=
  { Frame.refl s with
    entered := Ctxs.length_set _ _ _
    others := fun _ hc => Ctxs.get_set_ne (Ne.symm hc) _ }

theorem Frame.setResult (s : State) (v : Micros) : Frame s (s.setResult v) :=
  { Frame.refl s with
    entered := Ctxs.length_set _ _ _
    others := fun _ hc => Ctxs.get_set_ne (Ne.symm hc) _ }

theorem Frame.raise (s : State) (c : FaultCause) : Frame s (s.raise c) :=
  { Frame.refl s with faults := ⟨_, rfl⟩ }

theorem Frame.markRefused (s : State) (r : RefusalReason) : Frame s (s.markRefused r) :=
  { Frame.refl s with
    refused := fun _ => rfl
    refusals := ⟨_, rfl⟩
    marked := fun _ => by simp }

theorem Frame.now (s : State) : Frame s s.now.2 :=
  { Frame.refl s with
    crit := fun _ => rfl
    clock := .inr ⟨rfl, rfl⟩
    entries := entry_of_append nofun }

/-- Setting the operation state after an update. -/
theorem Frame.andSetOp {s t : State} (h : Frame s t) (o : OpState) : Frame s (t.setOp o) :=
  h.trans (Frame.setOp _ _) (.inr ⟨rfl, rfl⟩)

theorem Frame.refuse (s : State) (r : RefusalReason) : Frame s (s.refuse r) :=
  (Frame.markRefused s r).andSetOp _

theorem Frame.record (s : State) (e : Event) (he : ∀ c k, e ≠ .intEnter c k) : Frame s (s.record e) :=
  { Frame.refl s with entries := entry_of_append he }

theorem Frame.setPort (s : State) (q : PortId) (x : Port)
    (hx : s.params.Valid → (s.port q).regs.InWidth s.params → x.regs.InWidth s.params) :
    Frame s (s.setPort q x) :=
  { Frame.refl s with
    widths := fun hv h q' => by
      rw [State.port_setPort]
      split
      · exact hx hv (h q)
      · exact h q' }

theorem Frame.setPin (s : State) (n : Nat) (x : Pin) : Frame s (s.setPin n x) :=
  { Frame.refl s with pins := fun h => Pins.wf_set h _ _ }

/-- An update that ends with a recorded event. -/
theorem Frame.andRecord {s t : State} (h : Frame s t) (e : Event)
    (he : ∀ c k, e ≠ .intEnter c k := by nofun) : Frame s (t.record e) :=
  h.trans (Frame.record _ _ he) (.inr ⟨rfl, rfl⟩)

theorem Frame.acquired (s : State) (q : PortId) : Frame s (s.acquired q) :=
  (Frame.setPort s q { s.port q with lock := .held s.running } fun _ h => h).andRecord _

theorem Frame.unlock (s : State) (q : PortId) : Frame s (s.unlock q) :=
  (Frame.setPort s q { s.port q with lock := .free } fun _ h => h).andRecord _

theorem Frame.regWrite (s : State) (q : PortId) (f : WField) (v : Nat) : Frame s (s.regWrite q f v) :=
  (Frame.setPort s q _ fun hv h => Regs.write_inWidth hv.2.2.2.1.2.2 h f v).andRecord _

theorem Frame.wdtFeed (s : State) : Frame s s.wdtFeed :=
  { Frame.refl s with entries := entry_of_append nofun }

theorem Frame.yield (s : State) : Frame s s.yield := (Frame.refl s).andRecord _

theorem Frame.pinDetach (s : State) (n : Nat) : Frame s (s.pinDetach n) := (Frame.setPin s n _).andRecord _
theorem Frame.pinAttach (s : State) (n : Nat) (sig : Sig) : Frame s (s.pinAttach n sig) :=
  (Frame.setPin s n _).andRecord _
theorem Frame.pinWrite (s : State) (n : Nat) (b : Bool) : Frame s (s.pinWrite n b) :=
  (Frame.setPin s n _).andRecord _
theorem Frame.pinOutput (s : State) (n : Nat) : Frame s (s.pinOutput n) := Frame.setPin s n _

theorem Frame.openPort (s : State) (q : PortId) : Frame s (s.openPort q) :=
  { Frame.refl s with
    pins := fun h => Pins.wf_set h _ _
    widths := fun _ h q' => by
      have : (s.openPort q).port q' = (s.setPort q s.openedPort).port q' := rfl
      rw [this, State.port_setPort]
      split
      · exact Regs.fit_inWidth _ _
      · exact h q'
    tokens := Nat.le_succ _ }

theorem Frame.designate (s : State) (d : Option PortIndex) : Frame s { s with dbgPort := d } :=
  { Frame.refl s with }

theorem Frame.releasePort (s : State) (q : PortId) : Frame s (s.releasePort q) :=
  Frame.setPort s q _ fun _ h => h

theorem Frame.nullHandle (s : State) (q : PortId) : Frame s (s.nullHandle q) :=
  Frame.setPort s q _ fun _ h => h

/-! ### The frame of a micro-step -/

theorem GuardedResult.frame {p : PortIndex} {body : Body} {goto : GPhase → State → State}
    {done : State → State} {s t : State} {x : GPhase} (hg : ∀ y X, ∃ o, goto y X = X.setOp o)
    (hd : ∀ X, ∃ o, done X = X.setOp o) (h : GuardedResult p body goto done s x t) : Frame s t := by
  have go : ∀ {X : State} (y : GPhase), Frame s X → Frame s (goto y X) := fun {X} y hX => by
    obtain ⟨o, e⟩ := hg y X
    rw [e]
    exact hX.andSetOp o
  cases h with
  | null => exact Frame.raise _ _
  | enter => exact go _ (Frame.refl s)
  | stale => exact Frame.raise _ _
  | spin => exact Frame.refl _
  | acquire q => exact go _ (Frame.acquired s q)
  | write q k f v => exact go _ (Frame.regWrite s q f v)
  | release q =>
    obtain ⟨o, e⟩ := hd (s.unlock q)
    rw [e]
    exact (Frame.unlock _ _).andSetOp _

theorem delayStep_frame {d : Micros} {x : DPhase} {goto : DPhase → State → State} {done : State → State}
    {s t : State} (hg : ∀ y X, ∃ o, goto y X = X.setOp o) (hd : ∀ X, ∃ o, done X = X.setOp o)
    (h : delayStep d x goto done s = .next t) : Frame s t := by
  have go : ∀ y : DPhase, Frame s (goto y s.now.2) := fun y => by
    obtain ⟨o, e⟩ := hg y s.now.2
    rw [e]
    exact (Frame.now s).andSetOp o
  cases x with
  | d0 => cases h; exact go _
  | d1 start target => cases h; exact go _
  | d2 start target =>
    simp only [delayStep] at h
    split at h <;> cases h
    · obtain ⟨o, e⟩ := hd s.now.2
      rw [e]
      exact (Frame.now s).andSetOp o
    · exact go _

theorem BreakResult.frame {i : Instr} {p : PortIndex} {d : Micros} {s t : State} {ph : Phase}
    (h : BreakResult i p d s ph t) : Frame s t := by
  cases h with
  | refused => exact Frame.refuse _ _
  | null => exact Frame.raise _ _
  | enter => exact Frame.setOp _ _
  | snapshot => exact Frame.setOp _ _
  | disable l x t h => exact h.frame (fun _ _ => ⟨_, rfl⟩) fun _ => ⟨_, rfl⟩
  | detach => exact (Frame.pinDetach _ _).andSetOp _
  | output => exact (Frame.pinOutput _ _).andSetOp _
  | low => exact (Frame.pinWrite _ _ _).andSetOp _
  | hold l x t h => exact delayStep_frame (fun _ _ => ⟨_, rfl⟩) (fun _ => ⟨_, rfl⟩) h
  | high => exact (Frame.pinWrite _ _ _).andSetOp _
  | attach => exact (Frame.pinAttach _ _ _).andSetOp _
  | restore l x t h => exact h.frame (fun _ _ => ⟨_, rfl⟩) fun _ => ⟨_, rfl⟩

theorem EndResult.frame {i : Instr} {p : PortIndex} {s t : State} {ph : Phase} (h : EndResult i p s ph t) :
    Frame s t := by
  cases h with
  | null => exact Frame.raise _ _
  | enter => exact Frame.setOp _ _
  | disable x t h => exact h.frame (fun _ _ => ⟨_, rfl⟩) fun _ => ⟨_, rfl⟩
  | undesignate => exact (Frame.designate _ _).andSetOp _
  | release => exact (Frame.releasePort _ _).andSetOp _
  | nullify => exact (Frame.nullHandle _ _).andSetOp _

theorem WaitResult.frame {i : Instr} {p : PortIndex} {form : WaitForm} {s t : State} {x : WPhase}
    (h : WaitResult i p form s x t) : Frame s t := by
  cases h with
  | null => exact Frame.setOp _ _
  | enter => exact Frame.setOp _ _
  | stale => exact Frame.raise _ _
  | satisfied => exact Frame.setOp _ _
  | latched => exact Frame.setOp _ _
  | again => exact Frame.setOp _ _
  | feed => exact (Frame.wdtFeed _).andSetOp _
  | yield => exact (Frame.yield _).andSetOp _
  | clear => exact (Frame.regWrite _ _ _ _).andSetOp _

/-- The frame of a micro-step of the operation that the running context is at. -/
theorem ExecResult.frame {s t : State} {i : Instr} {ph : Phase} (h : ExecResult s i ph t) : Frame s t := by
  cases h with
  | now => exact ((Frame.now _).trans (Frame.setResult _ _) (.inr ⟨rfl, rfl⟩)).andSetOp _
  | delay d x t h => exact delayStep_frame (fun _ _ => ⟨_, rfl⟩) (fun _ => ⟨_, rfl⟩) h
  | wait i p form x t hi h => exact h.frame
  | guarded i p body x t hi h => exact h.frame (fun _ _ => ⟨_, rfl⟩) fun _ => ⟨_, rfl⟩
  | sendBreak p d ph t h => exact h.frame
  | openPort p ph t h =>
    cases h with
    | missing => exact Frame.raise _ _
    | already => exact Frame.raise _ _
    | opened => exact (Frame.openPort _ _).andSetOp _
  | setBaud => exact Frame.refuse _ _
  | endPort p ph t h => exact h.frame
  | getDbgPort => exact (Frame.setResult _ _).andSetOp _
  | setDbgPort => exact (Frame.designate _ _).andSetOp _

/-- The frame of `exec`. -/
theorem exec_frame {s t : State} {i : Instr} (h : exec i s = .next t) : Frame s t := by
  obtain ⟨ph, s₀, hs, hr⟩ := exec_result h
  cases hs with
  | idle => exact (Frame.setOp s _).trans hr.frame (.inl ⟨rfl, rfl⟩)
  | run ph => exact hr.frame

/-- A micro-step from the context's own phase, or from the first phase of the operation it presents. -/
theorem exec_from {s t : State} {i : Instr} (hk : s.runningKnown) (h : exec i s = .next t) :
    ∃ s₀ ph, (s₀ = s ∨ (s.op = .idle ∧ s₀ = s.goto i (firstPhase i))) ∧ s₀.op = .run i ph ∧
      ExecResult s₀ i ph t := by
  obtain ⟨ph, s₀, hs, hr⟩ := exec_result h
  cases hs with
  | idle ho => exact ⟨_, _, .inr ⟨ho, rfl⟩, State.op_goto hk _ _, hr⟩
  | run _ ho => exact ⟨_, _, .inl rfl, ho, hr⟩

end Sys2Proof.Machine
end

