-- ==== Sys2Proof/Laws/Ownership.lean ====
section
/-! SUPPORT. What a micro-step does to each port and to the running context's place in its table: it writes a
configuration field only inside a guarded operation, takes a lock only where it goes inside one, and gives it
back where it leaves. -/

namespace Sys2Proof.Machine

/-- What a micro-step can do to port `q`, and whether the running context is inside a guarded operation on it
before and after. -/
inductive PortMove (s t : State) (q : PortId) : Prop
  /-- Nothing. -/
  | same (h : t.port q = s.port q) (hh : (t.opOf s.running).holds q = s.op.holds q)
  /-- A register write of a guarded operation's body. -/
  | write (f : WField) (v : Nat)
      (h : t.port q = { s.port q with regs := (s.port q).regs.write s.params f v })
      (hs : s.op.holds q = true) (ht : (t.opOf s.running).holds q = true)
  /-- A wait's acknowledgement of its latch. -/
  | clear (v : Nat) (h : t.port q = { s.port q with regs := (s.port q).regs.write s.params .intClr v })
      (hh : (t.opOf s.running).holds q = s.op.holds q) (hs : s.op.holds q = false)
  /-- A successful lock attempt. -/
  | acquire (hv : (s.port q).handle = .valid) (hl : (s.port q).lock = .free)
      (h : t.port q = { s.port q with lock := .held s.running })
      (hs : s.op.holds q = false) (ht : (t.opOf s.running).holds q = true)
  /-- The release at the end of a guarded operation. -/
  | release (h : t.port q = { s.port q with lock := .free })
      (hs : s.op.holds q = true) (ht : (t.opOf s.running).holds q = false)
  /-- `OPEN` of a closed port. -/
  | opened (hn : (s.port q).handle = .null) (h : t.port q = s.openedPort)
      (hq : t.nextQueue = s.nextQueue + 1)
      (hs : s.op.holds q = false) (ht : (t.opOf s.running).holds q = false)
      (hi : ∃ p, portId? p = some q ∧ s.op = .run (.openPort p) .o0)
  /-- Step `e3` of `END`. -/
  | released (h : t.port q = { s.port q with evq := none, lock := .free }) (he : s.op.ending q = true)
      (hs : s.op.holds q = false) (ht : (t.opOf s.running).holds q = false)
  /-- Step `e4` of `END`. -/
  | nulled (h : t.port q = { s.port q with handle := .null })
      (hi : ∃ p, portId? p = some q ∧ s.op = .run (.endPort p) .e4) (he : s.op.ending q = true)
      (hs : s.op.holds q = false) (ht : (t.opOf s.running).holds q = false)

/-- What a micro-step does to every port, and where it leaves the running context. -/
structure Ownership (s t : State) : Prop where
  port : ∀ q, PortMove s t q
  /-- The running context stays at a phase of its operation's table. -/
  fits : (t.opOf s.running).fits s.params s.running = true
  /-- Only a context that held the port's lock, or was past its sub-operation already, is past the
  sub-operation of an `END`. -/
  ending : ∀ q, (t.opOf s.running).ending q = true → s.op.ending q = true ∨ s.op.holds q = true

/-! ### Phases -/

theorem namesPort_eq {i : Instr} {p : PortIndex} {q : PortId} (h : portOperand i = some p) :
    namesPort i q = (portId? p == some q) := by
  unfold namesPort
  rw [h]
  rfl

theorem GPhase.holding_body (k : Nat) : (GPhase.body k).holding = true := by
  match k with
  | 0 => rfl
  | 1 => rfl
  | _ + 2 => rfl

theorem GPhase.holding_afterBody (b : Body) (k : Nat) : (GPhase.afterBody b k).holding = true := by
  unfold GPhase.afterBody
  split
  · exact GPhase.holding_body _
  · rfl

theorem GPhase.fits_afterBody {b : Body} {k : Nat} (hk : k < 3) (hb : k < b.length) (h3 : b.length ≤ 3) :
    (GPhase.afterBody b k).fits b.length = true := by
  unfold GPhase.afterBody
  split
  · match k, hk with
    | 0, _ => simp only [GPhase.body, GPhase.fits, decide_eq_true_eq]; omega
    | 1, _ => simp only [GPhase.body, GPhase.fits, decide_eq_true_eq]; omega
    | 2, _ => omega
  · simp only [GPhase.fits, decide_eq_true_eq]
    omega

theorem physical_of {p : PortIndex} {q : PortId} (h : portId? p = some q) : physical p = true := by
  rw [← portId?_isSome, h]
  rfl

theorem GPhase.entered_of {p : PortIndex} {q : PortId} (h : portId? p = some q) (x : GPhase) :
    x.entered p = true := by
  have := physical_of h
  cases x <;> first | rfl | exact this

/-- A phase outside a guarded operation holds no lock. -/
theorem OpState.holds_of_unguarded {i : Instr} {ph : Phase} (h : ph.guarded = none) (q : PortId) :
    (OpState.run i ph).holds q = false := by
  simp [OpState.holds, h]

/-- The operation state of the running context after an update that leaves the contexts alone. -/
theorem State.opOf_setOp_own {s X : State} (hk : s.ctxs.known s.running) (hc : X.ctxs = s.ctxs)
    (hr : X.running = s.running) (o : OpState) : (X.setOp o).opOf s.running = o := by
  have h := State.op_setOp (s := X) (by rw [hc, hr]; exact hk) o
  unfold State.op at h
  rw [State.setOp_running, hr] at h
  exact h

/-- The same where the result latch was written too. -/
theorem State.opOf_finish_own {s X : State} (hk : s.ctxs.known s.running) (hc : X.ctxs = s.ctxs)
    (hr : X.running = s.running) (v : Micros) : (X.setResult v).finish.opOf s.running = .idle := by
  have h := State.op_setOp (s := X.setResult v) (by
    rw [State.setResult_ctxs, State.setResult_running]
    exact (Ctxs.known_set _ _ _ _).2 (by rw [hc, hr]; exact hk)) .idle
  unfold State.op at h
  rw [State.setOp_running, State.setResult_running, hr] at h
  exact h

/-! ### Micro-steps that touch no port -/

theorem Ownership.plain {s t : State} {o : OpState} (hp : ∀ q, t.port q = s.port q)
    (ho : t.opOf s.running = o) (hs : ∀ q, s.op.holds q = false) (ht : ∀ q, o.holds q = false)
    (hf : o.fits s.params s.running = true) (he : ∀ q, o.ending q = true → s.op.ending q = true) :
    Ownership s t :=
  ⟨fun q => .same (hp q) (by rw [ho, hs, ht]), by rw [ho]; exact hf,
    fun q h => .inl (he q (by rw [ho] at h; exact h))⟩

/-- A micro-step that changes neither the ports nor the contexts. -/
theorem Ownership.unmoved {s t : State} (hp : ∀ q, t.port q = s.port q) (hc : t.ctxs = s.ctxs)
    (hf : s.op.fits s.params s.running = true) : Ownership s t := by
  have ho : t.opOf s.running = s.op := by
    unfold State.op State.opOf
    rw [hc]
  exact ⟨fun q => .same (hp q) (by rw [ho]), by rw [ho]; exact hf, fun q h => .inl (by rw [ho] at h; exact h)⟩

/-! ### Guarded operations -/

section Guarded

variable {s t : State} {p : PortIndex} {body : Body} {G : GPhase → OpState} {D : OpState} {x : GPhase}

/-- A guarded operation's micro-step, alone or as a sub-operation: `G` are the enclosing phases, `D` is where
it goes at its return. -/
theorem GuardedResult.ownership (hk : s.ctxs.known s.running) (hop : s.op = G x)
    (hG : ∀ x q, (G x).holds q = (portId? p == some q && x.holding)) (hD : ∀ q, D.holds q = false)
    (hGe : ∀ x q, (G x).ending q = false) (hDe : ∀ q, D.ending q = true → portId? p = some q)
    (hGf : ∀ x, x.fits body.length = true → x.entered p = true → (G x).fits s.params s.running = true)
    (hDf : (∃ q, portId? p = some q) → D.fits s.params s.running = true)
    (h1 : 1 ≤ body.length) (h3 : body.length ≤ 3) (hfit : s.op.fits s.params s.running = true)
    (h : GuardedResult p body (fun x s => s.setOp (G x)) (fun s => s.setOp D) s x t) : Ownership s t := by
  have hs' : ∀ q, s.op.holds q = (portId? p == some q && x.holding) := fun q => by rw [hop]; exact hG x q
  have ne : ∀ {q q' : PortId}, q ≠ q' → (some q == some q') = false := fun hq =>
    beq_eq_false_iff_ne.2 fun e => hq (Option.some.inj e)
  -- an update of the one port `q`, followed by the phase `o`
  have one : ∀ {q : PortId} (X : State) (o : OpState), portId? p = some q → X.ctxs = s.ctxs →
      X.running = s.running → (∀ q', q ≠ q' → X.port q' = s.port q') →
      (∀ q', q ≠ q' → o.holds q' = false) → o.fits s.params s.running = true →
      (∀ q', o.ending q' = true → s.op.holds q' = true) → PortMove s (X.setOp o) q →
      Ownership s (X.setOp o) := by
    intro q X o hp hc hr hX ho hf he hm
    have e := State.opOf_setOp_own hk hc hr o
    refine ⟨fun q' => ?_, by rw [e]; exact hf, fun q' h => .inr (he q' (by rw [e] at h; exact h))⟩
    by_cases hq : q = q'
    · subst hq
      exact hm
    · refine .same (hX q' hq) ?_
      rw [e, hs', hp, ne hq, ho q' hq]
      rfl
  have others : ∀ {q : PortId} (y : GPhase), portId? p = some q → ∀ q', q ≠ q' → (G y).holds q' = false := by
    intro q y hp q' hq
    rw [hG, hp, ne hq]
    rfl
  have never : ∀ (y : GPhase) q', (G y).ending q' = true → s.op.holds q' = true := fun y q' h => by
    rw [hGe] at h
    cases h
  cases h with
  | null => exact .unmoved (fun _ => rfl) rfl hfit
  | stale => exact .unmoved (fun _ => rfl) rfl hfit
  | spin => exact .unmoved (fun _ => rfl) rfl hfit
  | enter q hp hv =>
    refine one s (G .g1) hp rfl rfl (fun _ _ => rfl) (others _ hp) ?_ (never _) (.same rfl ?_)
    · exact hGf _ (by simpa [GPhase.fits] using h1) (GPhase.entered_of hp _)
    · rw [State.opOf_setOp_own hk rfl rfl, hG, hs']
      rfl
  | acquire q hp hv hl =>
    refine one (s.acquired q) (G .b1) hp rfl rfl (fun q' hq => State.port_setPort_ne s hq _) (others _ hp) ?_
      (never _) (.acquire hv hl (State.acquired_port s q) ?_ ?_)
    · exact hGf _ (by simpa [GPhase.fits] using h1) (GPhase.entered_of hp _)
    · rw [hs']
      simp [GPhase.holding]
    · rw [State.opOf_setOp_own (X := s.acquired q) hk rfl rfl, hG, hp]
      simp [GPhase.holding]
  | write q k f v hp hk3 hb =>
    refine one (s.regWrite q f v) (G (GPhase.afterBody body k)) hp rfl rfl
      (fun q' hq => State.port_setPort_ne s hq _) (others _ hp) ?_ (never _)
      (.write f v (State.regWrite_port s q f v) ?_ ?_)
    · exact hGf _ (GPhase.fits_afterBody hk3 (List.getElem?_eq_some_iff.1 hb).1 h3) (GPhase.entered_of hp _)
    · rw [hs', hp, GPhase.holding_body]
      simp
    · rw [State.opOf_setOp_own (X := s.regWrite q f v) hk rfl rfl, hG, hp, GPhase.holding_afterBody]
      simp
  | release q hp =>
    refine one (s.unlock q) D hp rfl rfl (fun q' hq => State.port_setPort_ne s hq _) (fun q' _ => hD q')
      (hDf ⟨q, hp⟩) ?_ (.release (State.unlock_port s q) ?_ ?_)
    · intro q' h
      rw [hs', hDe q' h]
      simp [GPhase.holding]
    · rw [hs', hp]
      simp [GPhase.holding]
    · rw [State.opOf_setOp_own (X := s.unlock q) hk rfl rfl, hD]

end Guarded

/-- A guarded operation that a context presents. -/
theorem guarded_ownership {s t : State} {i : Instr} {p : PortIndex} {body : Body} {x : GPhase}
    (hop : s.op = .run i (.g x)) (hfit : s.op.fits s.params s.running = true)
    (hi : guardedOf s.params i = some (p, body))
    (h : GuardedResult p body (fun x s => s.goto i (.g x)) State.finish s x t) : Ownership s t := by
  obtain ⟨hlen, hpo⟩ := bodyLength_guarded hi
  have hb : 1 ≤ bodyLength i ∧ bodyLength i ≤ 3 := by
    cases i <;> simp only [guardedOf, reduceCtorEq] at hi <;> simp [bodyLength]
  have hpf : ∀ y, phaseFits s.params s.running i (.g y) =
      (y.fits (bodyLength i) && (portOperand i).any y.entered) := by
    intro y
    cases i <;> simp only [guardedOf, reduceCtorEq] at hi <;> rfl
  refine GuardedResult.ownership (G := fun x => .run i (.g x)) (D := .idle) (p := p) (body := body) (x := x)
    (State.known_of_op hop) hop (fun y q => ?_) (fun _ => rfl) (fun y q => ?_) (fun _ h => by cases h)
    (fun y h1 h2 => ?_) (fun _ => rfl) (hlen ▸ hb.1) (hlen ▸ hb.2) hfit h
  · show (namesPort i q && _) = _
    rw [namesPort_eq hpo]
    rfl
  · cases i <;> rfl
  · show phaseFits _ _ _ _ = true
    rw [hpf, hlen, hpo, h1]
    exact h2

/-! ### The other families -/

theorem delay_ownership {s t : State} {d : BitVec 32} {x : DPhase} (hop : s.op = .run (.delayMicros d) (.d x))
    (hfit : s.op.fits s.params s.running = true)
    (h : delayStep (zextDuration d) x (fun x s => s.goto (.delayMicros d) (.d x)) State.finish s = .next t) :
    Ownership s t := by
  have hk := State.known_of_op hop
  have hs : ∀ q, s.op.holds q = false := by
    rw [hop]
    exact OpState.holds_of_unguarded rfl
  have hx : x.fits (zextDuration d) = true := by rw [hop] at hfit; exact hfit
  rcases delayStep_next hx h with ⟨y, hy, rfl⟩ | ⟨a, b, rfl, hv, rfl⟩
  · exact .plain (fun _ => rfl) (State.opOf_setOp_own hk rfl rfl _) hs (OpState.holds_of_unguarded rfl) hy
      fun _ h => by cases h
  · exact .plain (fun _ => rfl) (State.opOf_setOp_own hk rfl rfl _) hs (fun _ => rfl) rfl
      fun _ h => by cases h

theorem wait_ownership {s t : State} {i : Instr} {p : PortIndex} {form : WaitForm} {x : WPhase}
    (hop : s.op = .run i (.w x)) (hfit : s.op.fits s.params s.running = true)
    (hi : waitOf s.params i = some (p, form)) (h : WaitResult i p form s x t) : Ownership s t := by
  have hk := State.known_of_op hop
  have hs : ∀ q, s.op.holds q = false := by
    rw [hop]
    exact OpState.holds_of_unguarded rfl
  have hf : ∀ y : WPhase, phaseFits s.params s.running i (.w y) =
      ((y != .w4 || form.latch.isSome) && y.entered p) := by
    intro y
    cases i <;> simp only [waitOf, Option.some.injEq, Prod.mk.injEq, reduceCtorEq] at hi <;>
      (obtain ⟨rfl, rfl⟩ := hi; cases y <;> rfl)
  have hx : x ≠ .w0 → physical p = true := by
    intro hx
    have h0 : phaseFits s.params s.running i (.w x) = true := by rw [hop] at hfit; exact hfit
    rw [hf, Bool.and_eq_true] at h0
    cases x <;> first | exact absurd rfl hx | exact h0.2
  have fits : ∀ y : WPhase, physical p = true → (y = .w4 → form.latch.isSome = true) →
      phaseFits s.params s.running i (.w y) = true := by
    intro y hp hy
    rw [hf]
    cases y <;> simp_all [WPhase.entered]
  have go : ∀ (X : State) (y : WPhase), X.ctxs = s.ctxs → X.running = s.running →
      (∀ q, X.port q = s.port q) → physical p = true → (y = .w4 → form.latch.isSome = true) →
      Ownership s (X.goto i (.w y)) := fun X y h1 h2 h3 h4 h5 =>
    .plain h3 (State.opOf_setOp_own hk h1 h2 _) hs (OpState.holds_of_unguarded rfl) (fits y h4 h5)
      fun _ h => by cases i <;> cases h
  have done : ∀ X : State, X.ctxs = s.ctxs → X.running = s.running → (∀ q, X.port q = s.port q) →
      Ownership s X.finish := fun X h1 h2 h3 =>
    .plain h3 (State.opOf_setOp_own hk h1 h2 _) hs (fun _ => rfl) rfl fun _ h => by cases h
  cases h with
  | null => exact done _ rfl rfl fun _ => rfl
  | enter q hp => exact go _ _ rfl rfl (fun _ => rfl) (physical_of hp) (fun h => by cases h)
  | stale => exact .unmoved (fun _ => rfl) rfl hfit
  | satisfied => exact done _ rfl rfl fun _ => rfl
  | latched q b hp hv hsat hl =>
    exact go _ _ rfl rfl (fun _ => rfl) (physical_of hp) (fun _ => by rw [hl]; rfl)
  | again q hp => exact go _ _ rfl rfl (fun _ => rfl) (physical_of hp) (fun h => by cases h)
  | feed => exact go _ _ rfl rfl (fun _ => rfl) (hx (by decide)) (fun h => by cases h)
  | yield => exact go _ _ rfl rfl (fun _ => rfl) (hx (by decide)) (fun h => by cases h)
  | clear q b hp hl =>
    have e : ((s.regWrite q .intClr (bitMask b)).finish).opOf s.running = .idle :=
      State.opOf_setOp_own hk rfl rfl .idle
    refine ⟨fun q' => ?_, by rw [e]; rfl, fun q' h => by rw [e] at h; cases h⟩
    by_cases hq : q = q'
    · subst hq
      exact .clear (bitMask b) (State.regWrite_port s q .intClr (bitMask b)) (by rw [e, hs]; rfl) (hs q)
    · exact .same (State.port_setPort_ne s hq _) (by rw [e, hs]; rfl)

theorem break_ownership {s t : State} {p : PortIndex} {d : BitVec 32} {ph : Phase}
    (hop : s.op = .run (.sendBreak p d) ph) (hfit : s.op.fits s.params s.running = true)
    (hmask : ∀ q, (s.port q).regs.intEna < 2 ^ s.params.intW)
    (h : BreakResult (.sendBreak p d) p (zextDuration d) s ph t) : Ownership s t := by
  have hk := State.known_of_op hop
  have hf : phaseFits s.params s.running (.sendBreak p d) ph = true := by rw [hop] at hfit; exact hfit
  have un : ∀ {y : Phase}, y.guarded = none → ∀ q, (OpState.run (.sendBreak p d) y).holds q = false :=
    fun h => OpState.holds_of_unguarded h
  have hs : ph.guarded = none → ∀ q, s.op.holds q = false := fun h => by rw [hop]; exact un h
  have go : ∀ (X : State) (y : Phase), X.ctxs = s.ctxs → X.running = s.running →
      (∀ q, X.port q = s.port q) → ph.guarded = none →
      (∀ q, OpState.holds q (.run (.sendBreak p d) y) = false) →
      phaseFits s.params s.running (.sendBreak p d) y = true → Ownership s (X.goto (.sendBreak p d) y) :=
    fun X y h1 h2 h3 h4 h5 h6 => .plain h3 (State.opOf_setOp_own hk h1 h2 _) (hs h4) h5 h6
      fun _ h => by cases y <;> cases h
  -- the fits of a phase with the locals `l`
  have mk : ∀ (l : BreakLocals) (b : Bool), s.running = .main → physical p = true →
      l.fits s.params p = true → b = true →
      (s.running == .main && physical p && l.fits s.params p && b) = true := by
    intro l b h1 h2 h3 h4
    rw [h1, h2, h3, h4]
    rfl
  have names : ∀ q, namesPort (.sendBreak p d) q = (portId? p == some q) := fun q => namesPort_eq rfl
  cases h with
  | refused hr =>
    exact .plain (fun _ => rfl) (State.opOf_setOp_own (X := s.markRefused _) hk rfl rfl _) (hs rfl)
      (fun _ => rfl) rfl fun _ h => by cases h
  | null => exact .unmoved (fun _ => rfl) rfl hfit
  | enter q hr hp =>
    refine go _ _ rfl rfl (fun _ => rfl) rfl (un rfl) ?_
    show (s.running == .main && physical p && _) = true
    rw [hr, physical_of hp]
    simp
  | snapshot pin q hp =>
    have hh : (s.running == .main && physical p && pin == txPin s.params p.toNat) = true := hf
    simp only [Bool.and_eq_true, beq_iff_eq] at hh
    refine go _ _ rfl rfl (fun _ => rfl) rfl (fun q => ?_) ?_
    · simp [OpState.holds, Phase.guarded, GPhase.holding]
    · exact mk _ _ hh.1.1 hh.1.2 (decide_eq_true ⟨hh.2, hmask q⟩) rfl
  | disable l x t h =>
    have hh : (s.running == .main && physical p && l.fits s.params p && x.fits 2) = true := hf
    have hh' := hh
    simp only [Bool.and_eq_true, beq_iff_eq] at hh
    refine GuardedResult.ownership (G := fun x => .run (.sendBreak p d) (.s2 l x))
      (D := .run (.sendBreak p d) (.s3 l)) (p := p) (body := disableAllIntsBody s.params) (x := x) hk hop (fun x q => ?_) (un rfl) (fun _ _ => rfl)
      (fun _ h => by cases h) (fun y h1 _ => mk _ _ hh.1.1.1 hh.1.1.2 hh.1.2 h1) (fun _ => ?_)
      (by simp [disableAllIntsBody]) (by simp [disableAllIntsBody]) hfit h
    · show (namesPort _ q && _) = _
      rw [names]
      rfl
    · exact (Bool.and_eq_true_iff.1 hh').1
  | detach l => exact go _ _ rfl rfl (fun _ => rfl) rfl (un rfl) hf
  | output l => exact go _ _ rfl rfl (fun _ => rfl) rfl (un rfl) hf
  | low l =>
    have hh : (s.running == .main && physical p && l.fits s.params p) = true := hf
    simp only [Bool.and_eq_true, beq_iff_eq] at hh
    exact go _ _ rfl rfl (fun _ => rfl) rfl (un rfl) (mk _ _ hh.1.1 hh.1.2 hh.2 rfl)
  | hold l x t h =>
    have hh : (s.running == .main && physical p && l.fits s.params p && x.fits (zextDuration d)) = true := hf
    have hh' := (Bool.and_eq_true_iff.1 hh).1
    simp only [Bool.and_eq_true, beq_iff_eq] at hh
    rcases delayStep_next hh.2 h with ⟨y, hy, rfl⟩ | ⟨a, b, rfl, hv, rfl⟩
    · exact go s.now.2 _ rfl rfl (fun _ => rfl) rfl (un rfl) (mk _ _ hh.1.1.1 hh.1.1.2 hh.1.2 hy)
    · exact go s.now.2 _ rfl rfl (fun _ => rfl) rfl (un rfl) hh'
  | high l => exact go _ _ rfl rfl (fun _ => rfl) rfl (un rfl) hf
  | attach l =>
    have hh : (s.running == .main && physical p && l.fits s.params p) = true := hf
    simp only [Bool.and_eq_true, beq_iff_eq] at hh
    refine go _ _ rfl rfl (fun _ => rfl) rfl (fun q => ?_) (mk _ _ hh.1.1 hh.1.2 hh.2 rfl)
    simp [OpState.holds, Phase.guarded, GPhase.holding]
  | restore l x t h =>
    have hh : (s.running == .main && physical p && l.fits s.params p && x.fits 1) = true := hf
    simp only [Bool.and_eq_true, beq_iff_eq] at hh
    refine GuardedResult.ownership (G := fun x => .run (.sendBreak p d) (.s9 l x)) (D := .idle) (p := p)
      (body := setIntMaskBody l.snap) (x := x) hk hop (fun x q => ?_) (fun _ => rfl) (fun _ _ => rfl) (fun _ h => by cases h)
      (fun y h1 _ => mk _ _ hh.1.1.1 hh.1.1.2 hh.1.2 h1) (fun _ => rfl) (by simp [setIntMaskBody])
      (by simp [setIntMaskBody]) hfit h
    show (namesPort _ q && _) = _
    rw [names]
    rfl

theorem open_ownership {s t : State} {p : PortIndex} {ph : Phase} (hop : s.op = .run (.openPort p) ph)
    (hfit : s.op.fits s.params s.running = true) (h : OpenResult p s ph t) : Ownership s t := by
  have hk := State.known_of_op hop
  cases h with
  | missing => exact .unmoved (fun _ => rfl) rfl hfit
  | already => exact .unmoved (fun _ => rfl) rfl hfit
  | opened q hp hn =>
    have hs : ∀ q, s.op.holds q = false := by
      rw [hop]
      exact OpState.holds_of_unguarded rfl
    have e : (s.openPort q).finish.opOf s.running = .idle := State.opOf_setOp_own hk rfl rfl .idle
    refine ⟨fun q' => ?_, by rw [e]; rfl, fun q' h => by rw [e] at h; cases h⟩
    by_cases hq : q = q'
    · subst hq
      exact .opened hn (State.port_setPort_self s q _) rfl (hs _) (by rw [e]; rfl) ⟨p, hp, hop⟩
    · exact .same (State.port_setPort_ne s hq _) (by rw [e, hs]; rfl)

theorem end_ownership {s t : State} {p : PortIndex} {ph : Phase} (hop : s.op = .run (.endPort p) ph)
    (hfit : s.op.fits s.params s.running = true) (h : EndResult (.endPort p) p s ph t) : Ownership s t := by
  have hk := State.known_of_op hop
  have hf : phaseFits s.params s.running (.endPort p) ph = true := by rw [hop] at hfit; exact hfit
  have un : ∀ {y : Phase}, y.guarded = none → ∀ q, (OpState.run (.endPort p) y).holds q = false :=
    fun h => OpState.holds_of_unguarded h
  have hs : ph.guarded = none → ∀ q, s.op.holds q = false := fun h => by rw [hop]; exact un h
  cases h with
  | null => exact .unmoved (fun _ => rfl) rfl hfit
  | enter q hp hv =>
    refine .plain (fun _ => rfl) (State.opOf_setOp_own hk rfl rfl _) (hs rfl) (fun q => ?_) ?_
      fun _ h => by cases h
    · simp [OpState.holds, Phase.guarded, GPhase.holding]
    · show (physical p && true) = true
      rw [physical_of hp]
      rfl
  | disable x t h =>
    have hh : (physical p && x.fits 2) = true := hf
    rw [Bool.and_eq_true] at hh
    refine GuardedResult.ownership (G := fun x => .run (.endPort p) (.e1 x)) (D := .run (.endPort p) .e2)
      (p := p) (x := x) hk hop (fun x q => ?_) (un rfl) (fun _ _ => rfl)
      (fun q h => by simpa [OpState.ending] using h) (fun y h1 _ => ?_) (fun _ => hh.1)
      (by simp [disableAllIntsBody]) (by simp [disableAllIntsBody]) hfit h
    · show (namesPort _ q && _) = _
      rw [namesPort_eq rfl]
      rfl
    · show (physical p && y.fits 2) = true
      rw [hh.1]
      exact h1
  | undesignate =>
    exact .plain (fun _ => rfl) (State.opOf_setOp_own (X := s.clearDbgPort p) hk rfl rfl _) (hs rfl) (un rfl) hf
      fun _ h => by rw [hop]; exact h
  | release q hp =>
    have e : ((s.releasePort q).goto (.endPort p) .e4).opOf s.running = .run (.endPort p) .e4 :=
      State.opOf_setOp_own hk rfl rfl _
    refine ⟨fun q' => ?_, by rw [e]; exact hf, fun q' h => by rw [e] at h; rw [hop]; exact .inl h⟩
    by_cases hq : q = q'
    · subst hq
      refine .released (State.port_setPort_self s q _) ?_ (hs rfl _) (by rw [e]; exact un rfl _)
      rw [hop]
      simp [OpState.ending, hp]
    · exact .same (State.port_setPort_ne s hq _) (by rw [e, hs rfl]; exact un rfl _)
  | nullify q hp =>
    have e : (s.nullHandle q).finish.opOf s.running = .idle := State.opOf_setOp_own hk rfl rfl .idle
    refine ⟨fun q' => ?_, by rw [e]; rfl, fun q' h => by rw [e] at h; cases h⟩
    by_cases hq : q = q'
    · subst hq
      refine .nulled (State.port_setPort_self s q _) ⟨p, hp, hop⟩ ?_ (hs rfl _) (by rw [e]; rfl)
      rw [hop]
      simp [OpState.ending, hp]
    · exact .same (State.port_setPort_ne s hq _) (by rw [e, hs rfl]; rfl)

/-- What a micro-step of the operation that the running context is at does to every port. -/
theorem ExecResult.ownership {s t : State} {i : Instr} {ph : Phase} (hop : s.op = .run i ph)
    (hfit : s.op.fits s.params s.running = true) (hmask : ∀ q, (s.port q).regs.intEna < 2 ^ s.params.intW)
    (h : ExecResult s i ph t) : Ownership s t := by
  have hk := State.known_of_op hop
  have idle : ∀ X : State, (∀ q, X.port q = s.port q) → X.opOf s.running = .idle → ph.guarded = none →
      Ownership s X := fun X hp ho hg =>
    .plain hp ho (by rw [hop]; exact OpState.holds_of_unguarded hg) (fun _ => rfl) rfl fun _ h => by cases h
  cases h with
  | now => exact idle _ (fun _ => rfl) (State.opOf_finish_own (X := s.now.2) hk rfl rfl _) rfl
  | delay d x t h => exact delay_ownership hop hfit h
  | wait i p form x t hi h => exact wait_ownership hop hfit hi h
  | guarded i p body x t hi h => exact guarded_ownership hop hfit hi h
  | sendBreak p d ph t h => exact break_ownership hop hfit hmask h
  | openPort p ph t h => exact open_ownership hop hfit h
  | setBaud => exact idle _ (fun _ => rfl) (State.opOf_setOp_own (X := s.markRefused _) hk rfl rfl _) rfl
  | endPort p ph t h => exact end_ownership hop hfit h
  | getDbgPort => exact idle _ (fun _ => rfl) (State.opOf_finish_own (X := s) hk rfl rfl _) rfl
  | setDbgPort p v =>
    exact idle _ (fun _ => rfl) (State.opOf_setOp_own (X := { s with dbgPort := _ }) hk rfl rfl _) rfl

end Sys2Proof.Machine
end

