-- ==== Sys2Proof/Laws/PerInstr.lean ====
section
/-! SUPPORT. Statements for every operation, one lemma per constructor: the encoder's words match the
operation's row of the opcode table, and presentation puts a context at a phase of the operation's table. -/

namespace Sys2Proof.Laws

-- One theorem after another: many short theorems at once would each hold a thread and its stack.
set_option Elab.async false

/-- The word that stands for an operation matches its row of spec/opcode_table.json (30_encoding.md R102,
R104): its opcode, and 0 in every must-be-zero field of its format. -/
def EncodeMatchesRow.Statement (i : Instr) : Prop :=
  encode i &&& i.format.mask = Command.ofFields i.opcode 0 0 0

/-- An `en` or `valid` operand is within the bits of `ARGH` that its format leaves open. -/
theorem flagArgh_masked (b : Bool) : flagArgh b &&& 0xFFFE = 0 := by cases b <;> decide

theorem formatN_mask : Format.mask .formatN = Command.ofFields 0xFF 0xFF 0xFFFF 0xFFFFFFFF := by decide
theorem formatD_mask : Format.mask .formatD = Command.ofFields 0xFF 0xFF 0xFFFF 0 := by decide
theorem formatP_mask : Format.mask .formatP = Command.ofFields 0xFF 0 0xFFFF 0xFFFFFFFF := by decide
theorem formatPV_mask : Format.mask .formatPV = Command.ofFields 0xFF 0 0xFFFF 0 := by decide
theorem formatB_mask : Format.mask .formatB = Command.ofFields 0xFF 0 0xFFFE 0 := by decide
theorem formatG_mask : Format.mask .formatG = Command.ofFields 0xFF 0 0xFFFE 0xFFFFFFFF := by decide

theorem EncodeMatchesRow.nowMicros : EncodeMatchesRow.Statement (.nowMicros) := by
  rw [EncodeMatchesRow.Statement, encode, Instr.format, formatN_mask, Command.and_ofFields]
  simp [Instr.opcode]

theorem EncodeMatchesRow.delayMicros (d : BitVec 32) : EncodeMatchesRow.Statement (.delayMicros d) := by
  rw [EncodeMatchesRow.Statement, encode, Instr.format, formatD_mask, Command.and_ofFields]
  simp [Instr.opcode]

theorem EncodeMatchesRow.waitTxfifoEmpty (p : PortIndex) : EncodeMatchesRow.Statement (.waitTxfifoEmpty p) := by
  rw [EncodeMatchesRow.Statement, encode, Instr.format, formatP_mask, Command.and_ofFields]
  simp [Instr.opcode]

theorem EncodeMatchesRow.waitRxfifoEmpty (p : PortIndex) : EncodeMatchesRow.Statement (.waitRxfifoEmpty p) := by
  rw [EncodeMatchesRow.Statement, encode, Instr.format, formatP_mask, Command.and_ofFields]
  simp [Instr.opcode]

theorem EncodeMatchesRow.waitTxDone (p : PortIndex) : EncodeMatchesRow.Statement (.waitTxDone p) := by
  rw [EncodeMatchesRow.Statement, encode, Instr.format, formatP_mask, Command.and_ofFields]
  simp [Instr.opcode]

theorem EncodeMatchesRow.waitTxBrkDone (p : PortIndex) : EncodeMatchesRow.Statement (.waitTxBrkDone p) := by
  rw [EncodeMatchesRow.Statement, encode, Instr.format, formatP_mask, Command.and_ofFields]
  simp [Instr.opcode]

theorem EncodeMatchesRow.setRs485Mode (p : PortIndex) : EncodeMatchesRow.Statement (.setRs485Mode p) := by
  rw [EncodeMatchesRow.Statement, encode, Instr.format, formatP_mask, Command.and_ofFields]
  simp [Instr.opcode]

theorem EncodeMatchesRow.cfgBreakGen (p : PortIndex) (en : Bool) (blen : BitVec 16) (ilen : BitVec 16) : EncodeMatchesRow.Statement (.cfgBreakGen p en blen ilen) := by
  rw [EncodeMatchesRow.Statement, encode, Instr.format, formatB_mask, Command.and_ofFields]
  rw [flagArgh_masked]
  simp [Instr.opcode]

theorem EncodeMatchesRow.forceTwoStopBits (p : PortIndex) : EncodeMatchesRow.Statement (.forceTwoStopBits p) := by
  rw [EncodeMatchesRow.Statement, encode, Instr.format, formatP_mask, Command.and_ofFields]
  simp [Instr.opcode]

theorem EncodeMatchesRow.enableBrkDet (p : PortIndex) : EncodeMatchesRow.Statement (.enableBrkDet p) := by
  rw [EncodeMatchesRow.Statement, encode, Instr.format, formatP_mask, Command.and_ofFields]
  simp [Instr.opcode]

theorem EncodeMatchesRow.disableBrkDet (p : PortIndex) : EncodeMatchesRow.Statement (.disableBrkDet p) := by
  rw [EncodeMatchesRow.Statement, encode, Instr.format, formatP_mask, Command.and_ofFields]
  simp [Instr.opcode]

theorem EncodeMatchesRow.disableAllInts (p : PortIndex) : EncodeMatchesRow.Statement (.disableAllInts p) := by
  rw [EncodeMatchesRow.Statement, encode, Instr.format, formatP_mask, Command.and_ofFields]
  simp [Instr.opcode]

theorem EncodeMatchesRow.setIntMask (p : PortIndex) (v : BitVec 32) : EncodeMatchesRow.Statement (.setIntMask p v) := by
  rw [EncodeMatchesRow.Statement, encode, Instr.format, formatPV_mask, Command.and_ofFields]
  simp [Instr.opcode]

theorem EncodeMatchesRow.clearAllInts (p : PortIndex) : EncodeMatchesRow.Statement (.clearAllInts p) := by
  rw [EncodeMatchesRow.Statement, encode, Instr.format, formatP_mask, Command.and_ofFields]
  simp [Instr.opcode]

theorem EncodeMatchesRow.sendBreak (p : PortIndex) (d : BitVec 32) : EncodeMatchesRow.Statement (.sendBreak p d) := by
  rw [EncodeMatchesRow.Statement, encode, Instr.format, formatPV_mask, Command.and_ofFields]
  simp [Instr.opcode]

theorem EncodeMatchesRow.openPort (p : PortIndex) : EncodeMatchesRow.Statement (.openPort p) := by
  rw [EncodeMatchesRow.Statement, encode, Instr.format, formatP_mask, Command.and_ofFields]
  simp [Instr.opcode]

theorem EncodeMatchesRow.setBaud (p : PortIndex) (v : BitVec 32) : EncodeMatchesRow.Statement (.setBaud p v) := by
  rw [EncodeMatchesRow.Statement, encode, Instr.format, formatPV_mask, Command.and_ofFields]
  simp [Instr.opcode]

theorem EncodeMatchesRow.endPort (p : PortIndex) : EncodeMatchesRow.Statement (.endPort p) := by
  rw [EncodeMatchesRow.Statement, encode, Instr.format, formatP_mask, Command.and_ofFields]
  simp [Instr.opcode]

theorem EncodeMatchesRow.getDbgPort : EncodeMatchesRow.Statement (.getDbgPort) := by
  rw [EncodeMatchesRow.Statement, encode, Instr.format, formatN_mask, Command.and_ofFields]
  simp [Instr.opcode]

theorem EncodeMatchesRow.setDbgPort (p : PortIndex) (valid : Bool) : EncodeMatchesRow.Statement (.setDbgPort p valid) := by
  rw [EncodeMatchesRow.Statement, encode, Instr.format, formatG_mask, Command.and_ofFields]
  rw [flagArgh_masked]
  simp [Instr.opcode]

/-- Presentation sets `OPSTATE` to a phase of the operation's micro-step table, in every context
(10_state.md R23). -/
def FirstPhaseFits.Statement (i : Instr) : Prop :=
  ∀ (P : Params) (c : Machine.Ctx), Machine.phaseFits P c i (Machine.firstPhase i) = true

theorem FirstPhaseFits.nowMicros : FirstPhaseFits.Statement (.nowMicros) := fun _ _ => rfl
theorem FirstPhaseFits.delayMicros (d : BitVec 32) : FirstPhaseFits.Statement (.delayMicros d) := fun _ _ => rfl
theorem FirstPhaseFits.waitTxfifoEmpty (p : PortIndex) : FirstPhaseFits.Statement (.waitTxfifoEmpty p) := fun _ _ => rfl
theorem FirstPhaseFits.waitRxfifoEmpty (p : PortIndex) : FirstPhaseFits.Statement (.waitRxfifoEmpty p) := fun _ _ => rfl
theorem FirstPhaseFits.waitTxDone (p : PortIndex) : FirstPhaseFits.Statement (.waitTxDone p) := fun _ _ => rfl
theorem FirstPhaseFits.waitTxBrkDone (p : PortIndex) : FirstPhaseFits.Statement (.waitTxBrkDone p) := fun _ _ => rfl
theorem FirstPhaseFits.setRs485Mode (p : PortIndex) : FirstPhaseFits.Statement (.setRs485Mode p) := fun _ _ => rfl
theorem FirstPhaseFits.cfgBreakGen (p : PortIndex) (en : Bool) (blen : BitVec 16) (ilen : BitVec 16) : FirstPhaseFits.Statement (.cfgBreakGen p en blen ilen) := fun _ _ => rfl
theorem FirstPhaseFits.forceTwoStopBits (p : PortIndex) : FirstPhaseFits.Statement (.forceTwoStopBits p) := fun _ _ => rfl
theorem FirstPhaseFits.enableBrkDet (p : PortIndex) : FirstPhaseFits.Statement (.enableBrkDet p) := fun _ _ => rfl
theorem FirstPhaseFits.disableBrkDet (p : PortIndex) : FirstPhaseFits.Statement (.disableBrkDet p) := fun _ _ => rfl
theorem FirstPhaseFits.disableAllInts (p : PortIndex) : FirstPhaseFits.Statement (.disableAllInts p) := fun _ _ => rfl
theorem FirstPhaseFits.setIntMask (p : PortIndex) (v : BitVec 32) : FirstPhaseFits.Statement (.setIntMask p v) := fun _ _ => rfl
theorem FirstPhaseFits.clearAllInts (p : PortIndex) : FirstPhaseFits.Statement (.clearAllInts p) := fun _ _ => rfl
theorem FirstPhaseFits.sendBreak (p : PortIndex) (d : BitVec 32) : FirstPhaseFits.Statement (.sendBreak p d) := fun _ _ => rfl
theorem FirstPhaseFits.openPort (p : PortIndex) : FirstPhaseFits.Statement (.openPort p) := fun _ _ => rfl
theorem FirstPhaseFits.setBaud (p : PortIndex) (v : BitVec 32) : FirstPhaseFits.Statement (.setBaud p v) := fun _ _ => rfl
theorem FirstPhaseFits.endPort (p : PortIndex) : FirstPhaseFits.Statement (.endPort p) := fun _ _ => rfl
theorem FirstPhaseFits.getDbgPort : FirstPhaseFits.Statement (.getDbgPort) := fun _ _ => rfl
theorem FirstPhaseFits.setDbgPort (p : PortIndex) (valid : Bool) : FirstPhaseFits.Statement (.setDbgPort p valid) := fun _ _ => rfl

end Sys2Proof.Laws
end

