-- ==== Sys2Proof/Laws/RegMap.lean ====
section
/-! SUPPORT. The register map: a field's bits in a word, and the break-detect enable under its alias. -/

namespace Sys2Proof.Machine

/-- A word into which a field was put shows the field's value at its bits, and is as before elsewhere. -/
theorem insertBits_getLsbD (w : BitVec 32) (lo bits v k : Nat) (hk : k < 32) :
    (insertBits w lo bits v).getLsbD k =
      if lo ≤ k ∧ k < lo + bits then v.testBit (k - lo) else w.getLsbD k := by
  unfold insertBits
  simp only [BitVec.getLsbD_or, BitVec.getLsbD_and, BitVec.getLsbD_not, BitVec.getLsbD_ofNat,
    Nat.testBit_shiftLeft, testBit_allOnes, hk]
  by_cases h1 : lo ≤ k
  · by_cases h2 : k < lo + bits
    · have : k - lo < bits := by omega
      simp [h1, h2, this]
    · have : ¬ k - lo < bits := by omega
      simp [h1, h2, this]
  · simp [h1]

/-- A field's bits of a word, as a quotient and a remainder. -/
theorem fieldBits_eq (w : BitVec 32) (lo bits : Nat) : fieldBits w lo bits = w.toNat / 2 ^ lo % 2 ^ bits := by
  rw [fieldBits, trunc, Nat.shiftRight_eq_div_pow]

/-- Replacing a bit of a mask by itself changes nothing. -/
theorem replaceBit_self {n mask : Nat} (h : mask < 2 ^ n) (b : Nat) :
    replaceBit n mask b (mask.testBit b) = mask := by
  apply Nat.eq_of_testBit_eq
  intro k
  rw [testBit_replaceBit h]
  split
  · next e => rw [e]
  · rfl

/-- The break-detect enable as a field value is the bit of the mask, or the field of its own. -/
theorem brkdet_bit (r : Regs) {P : Params} (ha : P.brkdetAlias = .inMask) :
    r.read P .brkDetEn = r.intEna / 2 ^ P.brkDetBit % 2 := by
  simp only [Regs.read, Regs.brkdet, ha, flagSet, bitNat, Nat.testBit_eq_decide_div_mod_eq, decide_eq_true_eq]
  split <;> omega

end Sys2Proof.Machine
end

