-- ==== Sys2Proof/Tests/Slice0.lean ====
section
/-! SUPPORT. Tests: the smoke test of WellFormed, the decoding of words written out from the spec's encoding
tables, single micro-steps whose results are the vectors of spec/95_test_vectors.md, and for every statement
of the obligations file that has hypotheses a state and operands that meet them together. -/

namespace Sys2Proof.Tests

-- One theorem after another: many short theorems at once would each hold a thread and its stack.
set_option Elab.async false

open Sys2Proof.Machine Sys2Proof.Statements

/-! ## WellFormed -/

/-- 30_encoding.md R105 step 4: the one ill-formed shape is refused. -/
theorem test_wellFormed_refuses : (Instr.setDbgPort 2 false).wellFormed = false := by decide
theorem test_wellFormed_accepts :
    (Instr.setDbgPort 2 true).wellFormed = true ∧ Instr.clrDbgPort.wellFormed = true := by decide

/-! ## Words of 95_test_vectors.md 2.1, written out from 30_encoding.md R101 to R104 -/

theorem test_decode_now_micros : decode 0x0100000000000000 = some .nowMicros := by decide
theorem test_decode_delay_micros : decode 0x02000000000000B0 = some (.delayMicros 176) := by decide
theorem test_decode_delay_micros_largest :
    decode 0x02000000FFFFFFFF = some (.delayMicros 4294967295) := by decide
theorem test_decode_wait_txfifo_empty : decode 0x1001000000000000 = some (.waitTxfifoEmpty 1) := by decide
theorem test_decode_port_255 : decode 0x10FF000000000000 = some (.waitTxfifoEmpty 255) := by decide
theorem test_decode_wait_rxfifo_empty : decode 0x1102000000000000 = some (.waitRxfifoEmpty 2) := by decide
theorem test_decode_wait_tx_done : decode 0x1201000000000000 = some (.waitTxDone 1) := by decide
theorem test_decode_wait_tx_brk_done : decode 0x1302000000000000 = some (.waitTxBrkDone 2) := by decide
theorem test_decode_set_rs485_mode : decode 0x2001000000000000 = some (.setRs485Mode 1) := by decide
theorem test_decode_cfg_break_gen : decode 0x2101000100160003 = some (.cfgBreakGen 1 true 22 3) := by decide
theorem test_decode_cfg_break_gen_long :
    decode 0x21010001012C0401 = some (.cfgBreakGen 1 true 300 1025) := by decide
theorem test_decode_disable_break_gen :
    decode 0x2101000000000000 = some (Instr.disableBreakGen 1) := by decide
theorem test_decode_force_two_stop_bits : decode 0x2202000000000000 = some (.forceTwoStopBits 2) := by decide
theorem test_decode_enable_brk_det : decode 0x2302000000000000 = some (.enableBrkDet 2) := by decide
theorem test_decode_disable_brk_det : decode 0x2402000000000000 = some (.disableBrkDet 2) := by decide
theorem test_decode_disable_all_ints : decode 0x2502000000000000 = some (.disableAllInts 2) := by decide
theorem test_decode_set_int_mask : decode 0x2602000000004080 = some (.setIntMask 2 0x4080) := by decide
theorem test_decode_clear_all_ints : decode 0x2701000000000000 = some (.clearAllInts 1) := by decide
theorem test_decode_send_break : decode 0x30020000000000B0 = some (.sendBreak 2 176) := by decide
theorem test_decode_open : decode 0x4002000000000000 = some (.openPort 2) := by decide
theorem test_decode_set_baud : decode 0x410200000003D090 = some (.setBaud 2 250000) := by decide
theorem test_decode_end : decode 0x4201000000000000 = some (Instr.close 1) := by decide
theorem test_decode_get_dbg_port : decode 0x4300000000000000 = some .getDbgPort := by decide
theorem test_decode_set_dbg_port : decode 0x4401000100000000 = some (.setDbgPort 1 true) := by decide
theorem test_decode_set_dbg_port_255 : decode 0x44FF000100000000 = some (.setDbgPort 255 true) := by decide
theorem test_decode_clr_dbg_port : decode 0x4400000000000000 = some Instr.clrDbgPort := by decide

/-- EN30 to EN34: reserved opcodes (R107). -/
theorem test_decode_reserved :
    [decodeWord 0x0000000000000000, decodeWord 0xFFFFFFFFFFFFFFFF, decodeWord 0x2800000000000000,
      decodeWord 0x1401000000000000, decodeWord 0x4500000000000000].map Except.toOption =
      [none, none, none, none, none] := by decide
/-- EN35 to EN40: a must-be-zero field of each format is not zero (R102). -/
theorem test_decode_nonzero_fields :
    [decode 0x0100000000000001, decode 0x4301000000000000, decode 0x02010000000000B0,
      decode 0x1201000000000001, decode 0x30020001000000B0, decode 0x2101000300160003] =
      [none, none, none, none, none, none] := by decide
/-- EN41: R105 step 4. -/
theorem test_decode_port_without_valid : decode 0x4402000000000000 = none := by decide
/-- EN20 in host memory (20_memory.md R75). -/
theorem test_byte_order :
    decodeBytes [0xB0, 0x00, 0x00, 0x00, 0x00, 0x00, 0x02, 0x30] = some (.sendBreak 2 176) := by decide
theorem test_short_command : decodeBytes [0xB0, 0x00, 0x00, 0x00, 0x00, 0x00, 0x02] = none := by decide
theorem test_decodeTableWord : decodeTableWord 64 0x30020000000000B0 = some (.sendBreak 2 176) := by decide
/-- 30_encoding.md R109: the assembler's line of EN11. -/
theorem test_assembler : (Instr.cfgBreakGen 1 true 22 3).assembler = "CFG_BREAK_GEN 1, 1, 22, 3" := by
  decide +kernel

/-! ## Small states -/

/-- Ports 1 and 2 open with given register fields, port 0 closed; `MAIN` running; parameters `P`. -/
def openState (P : Params) (r : Regs) (o : OpState) : State :=
  { State.resetWith P ResetDraw.zero with
    ports := #v[Port.atReset Regs.zero false, ⟨.valid, .free, some 0, r, true⟩, ⟨.valid, .free, some 1, r, true⟩]
    ctxs := ⟨⟨o, none⟩, []⟩
    nextQueue := 2 }

/-- Register fields that are all different from their reset values. -/
def someRegs : Regs := ⟨3, 2, 0x6001, 0x4080, 0, 0, 200, 1000, 1, 0, 5, 112⟩

/-- The reference instantiation (00_scope.md R6) with `someRegs`. -/
def refState (o : OpState) : State := openState Params.reference someRegs o

/-- `ISR(0)` above `MAIN`. -/
def isrState (main isr : OpState) : State :=
  { refState main with stack := [0], ctxs := ⟨⟨main, none⟩, [⟨isr, none⟩]⟩ }

/-- Port 1's lock held by `c`. -/
def heldBy (c : Ctx) (s : State) : State := s.setPort 1 { s.port 1 with lock := .held c }

/-- A value of the next state, if there is one. -/
def next {α : Type} (r : Result) (f : State → α) : Option α :=
  match r with
  | .next s => some (f s)
  | _ => none

/-! ## Single micro-steps: the vectors of 95_test_vectors.md -/

/-- T2, T4: the division rounds down, and the largest raw value gives `WRAP_US`. -/
theorem test_now_micros_floor :
    next (exec .nowMicros { refState .idle with timeCyc := 239 }) (fun t => t.resultOf .main) = some (some 0) ∧
    next (exec .nowMicros { refState .idle with timeCyc := 4294967295 }) (fun t => t.resultOf .main) =
      some (some 17895697) := by decide +kernel
/-- T7, T10: a wrap of the counter, and of the 64-bit sum. -/
theorem test_now_micros_wrap :
    next (exec .nowMicros { refState .idle with timeCyc := 480, tLast := 4294967295 })
      (fun t => (t.resultOf .main, t.tAcc, t.tLast)) = some (some 17895699, 17895697, 480) ∧
    next (exec .nowMicros { refState .idle with timeCyc := 100, tLast := 5000, tAcc := 18446744073709551615 })
      (fun t => (t.resultOf .main, t.tAcc)) = some (some 17895696, 17895696) := by decide +kernel

/-- DL1: the last two polls. -/
theorem test_delay_micros_target :
    next (exec (.delayMicros 176)
      { refState (.run (.delayMicros 176) (.d (.d2 10 186))) with timeCyc := 44639 }) State.op =
        some (.run (.delayMicros 176) (.d (.d2 10 186))) ∧
    next (exec (.delayMicros 176)
      { refState (.run (.delayMicros 176) (.d (.d2 10 186))) with timeCyc := 44640 }) State.op = some .idle := by
  decide +kernel
/-- DL5: the target wraps, and the first poll waits for the clock to wrap too. -/
theorem test_delay_micros_wrapped :
    next (exec (.delayMicros 200) { refState .idle with timeCyc := 2400, tAcc := 18446744073709551516 })
      State.op = some (.run (.delayMicros 200) (.d (.d1 18446744073709551526 110))) ∧
    next (exec (.delayMicros 200)
      { refState (.run (.delayMicros 200) (.d (.d1 18446744073709551526 110))) with
        timeCyc := 24000, tAcc := 18446744073709551516 }) State.op =
      some (.run (.delayMicros 200) (.d (.d2 18446744073709551526 110))) := by decide +kernel

/-- W2. -/
theorem test_wait_txfifo_empty_missing_port :
    next (exec (.waitTxfifoEmpty 200) (refState .idle)) id = some (refState .idle) := by decide +kernel
/-- W3: an unsatisfied and a satisfied poll. -/
theorem test_wait_txfifo_empty_poll :
    next (exec (.waitTxfifoEmpty 1) (refState (.run (.waitTxfifoEmpty 1) (.w .w1)))) State.op =
      some (.run (.waitTxfifoEmpty 1) (.w .w2)) ∧
    next (exec (.waitTxfifoEmpty 1) (openState Params.reference { someRegs with txfifoCnt := 0 }
      (.run (.waitTxfifoEmpty 1) (.w .w1)))) State.op = some .idle := by decide +kernel
/-- W4: the receive count, not the transmit count. -/
theorem test_wait_rxfifo_empty_poll :
    next (exec (.waitRxfifoEmpty 2) (openState Params.reference { someRegs with rxfifoCnt := 0 }
      (.run (.waitRxfifoEmpty 2) (.w .w1)))) State.op = some .idle := by decide +kernel
/-- W6: bit 14 alone is cleared. -/
theorem test_wait_tx_done_clears :
    next (exec (.waitTxDone 1) (refState (.run (.waitTxDone 1) (.w .w4))))
      (fun t => ((t.port 1).regs.intRaw, t.trace)) = some (0x2001, [.regW 1 .intClr 0x4000]) := by
  decide +kernel
/-- W5: the feed of the third micro-step. -/
theorem test_wait_tx_done_feeds :
    next (exec (.waitTxDone 1) (refState (.run (.waitTxDone 1) (.w .w2)))) (fun t => (t.wdtFeeds, t.trace)) =
      some (1, [.feed .main]) := by decide +kernel
/-- W7: bit 13. -/
theorem test_wait_tx_brk_done_clears :
    next (exec (.waitTxBrkDone 2) (refState (.run (.waitTxBrkDone 2) (.w .w4))))
      (fun t => (t.port 2).regs.intRaw) = some 0x4001 := by decide +kernel
/-- W10: the handle vanished during the wait. -/
theorem test_wait_tx_brk_done_stale :
    next (exec (.waitTxBrkDone 0) (refState (.run (.waitTxBrkDone 0) (.w .w1)))) State.faults =
      some [⟨.main, .stalePort 0⟩] := by decide +kernel

/-- GR1. -/
theorem test_set_rs485_mode_write :
    next (exec (.setRs485Mode 1) (refState (.run (.setRs485Mode 1) (.g .b1))))
      (fun t => ((t.port 1).regs.rs485En, t.trace)) = some (1, [.regW 1 .rs485En 1]) := by decide +kernel
/-- GR20: a null handle. -/
theorem test_set_rs485_mode_null :
    next (exec (.setRs485Mode 0) (refState .idle)) (fun t => (t.faults.map fun f => f.cause.code, t.op)) =
      some ([2], .run (.setRs485Mode 0) (.g .g0)) := by decide +kernel
/-- GR3: the break length is truncated to 8 bits, the idle length to 10. -/
theorem test_cfg_break_gen_truncates :
    next (exec (.cfgBreakGen 1 true 300 1025) (refState (.run (.cfgBreakGen 1 true 300 1025) (.g .b2))))
      (fun t => (t.port 1).regs.brkLen) = some 44 ∧
    next (exec (.cfgBreakGen 1 true 300 1025) (refState (.run (.cfgBreakGen 1 true 300 1025) (.g .b3))))
      (fun t => (t.port 1).regs.idleLen) = some 1 := by decide +kernel
/-- GR4. -/
theorem test_force_two_stop_bits_write :
    next (exec (.forceTwoStopBits 2) (refState (.run (.forceTwoStopBits 2) (.g .b1))))
      (fun t => (t.port 2).regs.stopBits) = some 3 := by decide +kernel
/-- GR5: under `in_mask`, bit 7 of the enable mask. -/
theorem test_enable_brk_det_in_mask :
    next (exec (.enableBrkDet 2) (openState Params.reference { someRegs with intEna := 0x100 }
      (.run (.enableBrkDet 2) (.g .b1)))) (fun t => ((t.port 2).regs.intEna, t.trace)) =
      some (0x180, [.regW 2 .brkDetEn 1]) := by decide +kernel
/-- GR6: under `separate`, a field of its own. -/
theorem test_enable_brk_det_separate :
    next (exec (.enableBrkDet 2) (openState { Params.reference with brkdetAlias := .separate }
      { someRegs with intEna := 0x100 } (.run (.enableBrkDet 2) (.g .b1))))
      (fun t => ((t.port 2).regs.intEna, (t.port 2).regs.brkDetEn)) = some (0x100, 1) := by decide +kernel
/-- GR7. -/
theorem test_disable_brk_det_in_mask :
    next (exec (.disableBrkDet 2) (openState Params.reference { someRegs with intEna := 0x180, intRaw := 0x80 }
      (.run (.disableBrkDet 2) (.g .b1)))) (fun t => ((t.port 2).regs.intEna, (t.port 2).regs.intRaw)) =
      some (0x100, 0x80) := by decide +kernel
/-- GR8: the second write clears every flag. -/
theorem test_disable_all_ints_clears :
    next (exec (.disableAllInts 2) (refState (.run (.disableAllInts 2) (.g .b2))))
      (fun t => ((t.port 2).regs.intRaw, t.trace)) = some (0, [.regW 2 .intClr 0xFFFFFFFF]) := by
  decide +kernel
/-- GR21: a port that does not exist has a null handle. -/
theorem test_disable_all_ints_missing_port :
    next (exec (.disableAllInts 3) (refState .idle)) State.faults = some [⟨.main, .nullPort 3⟩] := by
  decide +kernel
/-- GR11: a 16-bit mask register. -/
theorem test_set_int_mask_narrow :
    next (exec (.setIntMask 2 0x12344080) (openState { Params.reference with intW := 16 } someRegs
      (.run (.setIntMask 2 0x12344080) (.g .b1)))) (fun t => (t.port 2).regs.intEna) = some 0x4080 := by
  decide +kernel
/-- GR22: the interrupted context holds the lock. -/
theorem test_set_int_mask_spins :
    let s := heldBy .main (isrState (.run (.setRs485Mode 1) (.g .b1)) (.run (.setIntMask 1 0) (.g .g1)))
    next (exec (.setIntMask 1 0) s) id = some s := by decide +kernel
/-- GR12 with `CLR_ALL_MASK` overridden. -/
theorem test_clear_all_ints_override :
    next (exec (.clearAllInts 1) (openState { Params.reference with clrAllMask := 0x6000 } someRegs
      (.run (.clearAllInts 1) (.g .b1)))) (fun t => ((t.port 1).regs.intRaw, (t.port 1).regs.intEna)) =
      some (0x0001, 0x4080) := by decide +kernel

/-- BK3: refused in an interrupt context, whatever the handle. -/
theorem test_send_break_outside_main :
    next (exec (.sendBreak 0 176) (isrState .idle .idle)) (fun t => (t.refused, t.faults, t.op)) =
      some (true, [], .idle) := by decide +kernel
/-- P1, steps 14 and 20: pin 17 driven low, and attached again. -/
theorem test_send_break_pin :
    next (exec (.sendBreak 2 176) (refState (.run (.sendBreak 2 176) (.s5 ⟨17, 0x4080⟩))))
      (fun t => (t.pin 17, t.trace)) = some (⟨.detached, .input, false, 0⟩, [.line 17 false]) ∧
    next (exec (.sendBreak 2 176) (refState (.run (.sendBreak 2 176) (.s8 ⟨17, 0x4080⟩))))
      (fun t => ((t.pin 17).mux, t.trace)) =
      some (.attached (.uartTx 2), [.mux 17 (.attached (.uartTx 2))]) := by decide +kernel
/-- FA1: the handle, the lock and the timer, whatever the free values are. -/
theorem test_open_handle :
    next (exec (.openPort 0) (refState .idle)) (fun t => ((t.port 0).handle, (t.port 0).evq, t.tLast)) =
      some (.valid, some 2, 0) := by rfl
/-- FA2, FA3: an open port, a port that does not exist. -/
theorem test_open_faults :
    next (exec (.openPort 2) (refState .idle)) State.faults = some [⟨.main, .portAlreadyOpen 2⟩] ∧
    next (exec (.openPort 3) (refState .idle)) State.faults = some [⟨.main, .badPort 3⟩] := by decide +kernel
/-- FA4. -/
theorem test_set_baud_refused :
    next (exec (.setBaud 0 250000) (refState .idle)) (fun t => (t.refused, t.refusals, t.op)) =
      some (true, [⟨.main, .baudNotInBlock⟩], .idle) := by decide +kernel
/-- FA5, FA6: the designation is cleared only when it points at this port. -/
theorem test_end_designation :
    next (exec (.endPort 1) { refState (.run (.endPort 1) .e2) with dbgPort := some 1 }) State.dbgPort =
      some none ∧
    next (exec (.endPort 1) { refState (.run (.endPort 1) .e2) with dbgPort := some 2 }) State.dbgPort =
      some (some 2) := by decide +kernel
/-- FA5: the last micro-step. -/
theorem test_end_handle :
    next (exec (.endPort 1) (refState (.run (.endPort 1) .e4)))
      (fun t => ((t.port 1).handle, (t.port 2).handle, t.op)) = some (.null, .valid, .idle) := by decide +kernel
/-- FA9, FA11. -/
theorem test_get_dbg_port_values :
    next (exec .getDbgPort { refState .idle with dbgPort := some 2 }) (fun t => t.resultOf .main) =
      some (some 0x102) ∧
    next (exec .getDbgPort (refState .idle)) (fun t => t.resultOf .main) = some (some 0) ∧
    next (exec .getDbgPort { refState .idle with dbgPort := some 255 }) (fun t => t.resultOf .main) =
      some (some 0x1FF) := by decide +kernel
/-- FA10. -/
theorem test_set_dbg_port_values :
    next (exec (.setDbgPort 1 true) (refState .idle)) State.dbgPort = some (some 1) ∧
    next (exec (.setDbgPort 0 false) { refState .idle with dbgPort := some 1 }) State.dbgPort = some none := by
  decide +kernel

/-! ## Steps of the machine -/

/-- IX1, IX3, IX4: port 1 requests, `ISR(0)` is pushed, and the flag stays. -/
theorem test_interrupt_entry :
    next (step { refState .idle with moves := [.interrupt (.uart 1)] })
      (fun t => (t.ctxStack, (t.port 1).regs.intRaw, t.resultOf (.isr 0))) =
      some ([.main, .isr 0], 0x6001, none) := by decide +kernel
/-- IX5: with a depth bound of 2 contexts the entry is refused; R242: the wait of `ISR(0)` ends, `MAIN`'s
operation does not. -/
theorem test_interrupt_depth :
    next (step { isrState (.run (.setRs485Mode 1) (.g .b1)) (.run (.waitTxDone 1) (.w .w3)) with
      params := { Params.reference with depthBound := some 2 }, moves := [.interrupt .external] })
      (fun t => (t.refused, t.refusals, t.stack, t.op, t.opOf .main)) =
      some (true, [⟨.isr 0, .nestingTooDeep⟩], [0], .idle, .run (.setRs485Mode 1) (.g .b1)) := by decide +kernel
/-- IX6: no step after a fault. -/
theorem test_quiescent :
    step { refState .idle with faults := [⟨.main, .nullPort 0⟩], moves := [.interrupt .external] } =
      .fault (.quiescent .main (.nullPort 0)) := by rfl
/-- The first instruction after reset, for every value of the open parameters. -/
theorem test_first_step :
    next (step (State.reset.withFetchWord 64 0x4300000000000000)) (fun t => (t.resultOf .main, t.op)) =
      some (some 0, .idle) := by rfl
theorem test_first_step_guarded :
    next (step (State.reset.withFetchWord 64 0x2602000000004080)) State.faults =
      some [⟨.main, .nullPort 2⟩] := by rfl

/-! ## The invariant of a concrete state -/

/-- Every context that a state has a place for. -/
def knownCtxs (s : State) : List Ctx := .main :: (List.range s.ctxs.isrs.length).map .isr

/-- The clauses of `Inv` on the contexts that a state has a place for. -/
def invChecks (s : State) : Bool :=
  decide s.stack.Nodup && s.stack.all (fun n => decide (n < s.ctxs.isrs.length)) &&
  (List.range s.ctxs.isrs.length).all (fun n => decide (n ∈ s.stack) || decide (s.opOf (.isr n) = .idle)) &&
  (knownCtxs s).all (fun c => (s.opOf c).fits s.params c) && decide (s.tCrit = .free) &&
  decide (s.tLast < 2 ^ s.params.cycW) &&
  (List.finRange nports).all (fun q => decide ((s.port q).regs.fit s.params = (s.port q).regs) &&
    (knownCtxs s).all (fun c => (s.opOf c).holds q == decide ((s.port q).lock = .held c)) &&
    (match (s.port q).lock with
      | .free => true
      | .held c => decide (c ∈ knownCtxs s) && decide ((s.port q).handle = .valid))) &&
  Pins.wf s.pins && (s.refused == !s.refusals.isEmpty) &&
  (List.finRange nports).all (fun q => s.ctxList.all fun c => !(s.opOf c).ending q) &&
  (List.finRange nports).all (fun q => decide (∀ k ∈ (s.port q).evq, k < s.nextQueue)) &&
  s.trace.all (fun e => match e with
    | .intEnter (.isr n) _ => decide (n < s.ctxs.isrs.length)
    | _ => true)

theorem mem_knownCtxs_or_idle (s : State) (c : Ctx) : c ∈ knownCtxs s ∨ s.opOf c = .idle := by
  cases c with
  | main => exact .inl (List.mem_cons_self ..)
  | isr n =>
    by_cases h : n < s.ctxs.isrs.length
    · exact .inl (List.mem_cons_of_mem _ (List.mem_map.2 ⟨n, List.mem_range.2 h, rfl⟩))
    · refine .inr ?_
      show ((s.ctxs.isrs[n]?).getD CtxState.fresh).op = .idle
      rw [List.getElem?_eq_none (by omega)]
      rfl

/-- The checks are enough for `Inv`. -/
theorem inv_of_checks {s : State} (hP : s.params.Valid) (h : invChecks s = true) : Inv s := by
  unfold invChecks at h
  simp only [Bool.and_eq_true, decide_eq_true_eq, List.all_eq_true, Bool.or_eq_true, beq_iff_eq] at h
  obtain ⟨⟨⟨⟨⟨⟨⟨⟨⟨⟨⟨h1, h2⟩, h3⟩, h4⟩, h5⟩, h6⟩, h7⟩, h8⟩, h9⟩, h10⟩, h11⟩, h12⟩ := h
  have hc : ∀ q c, (s.opOf c).holds q = decide ((s.port q).lock = .held c) := by
    intro q c
    rcases mem_knownCtxs_or_idle s c with hm | hi
    · exact (h7 q (List.mem_finRange q)).1.2 c hm
    · rw [hi]
      have h := (h7 q (List.mem_finRange q)).2
      cases hl : (s.port q).lock with
      | free => rfl
      | held c' =>
        rw [hl] at h
        simp only [Bool.and_eq_true, decide_eq_true_eq] at h
        by_cases hcc : c' = c
        · subst hcc
          have := (h7 q (List.mem_finRange q)).1.2 c' h.1
          rw [hi, hl] at this
          simpa using this
        · simp [hcc, OpState.holds]
  refine ⟨hP, h1, h2, ?_, ?_, h5, h6, fun q => (h7 q (List.mem_finRange q)).1.1, h8, ?_, ?_, ?_, ?_, h9,
    fun q k hk => h11 q (List.mem_finRange q) k hk, fun n k hm => by simpa using h12 _ hm⟩
  · intro n hn
    rcases mem_knownCtxs_or_idle s (.isr n) with hm | hi
    · rcases List.mem_cons.1 hm with e | e
      · cases e
      · obtain ⟨k, hk, e⟩ := List.mem_map.1 e
        cases e
        exact (h3 n hk).resolve_left hn
    · exact hi
  · intro c
    rcases mem_knownCtxs_or_idle s c with hm | hi
    · exact h4 c hm
    · rw [hi]; rfl
  · intro _ q c hl
    rw [hc, hl]; simp
  · intro q c hh
    rw [hc] at hh; simpa using hh
  · intro q c hh
    have hl : (s.port q).lock = .held c := by rw [hc] at hh; simpa using hh
    have h := (h7 q (List.mem_finRange q)).2
    rw [hl] at h
    simp only [Bool.and_eq_true, decide_eq_true_eq] at h
    exact h.2
  · refine List.Pairwise.imp_of_mem ?_ (List.pairwise_of_forall (R := fun _ _ => True) (fun _ _ => trivial))
    intro a b ha hb _ q he
    have := h10 q (List.mem_finRange q) a ha
    rw [he] at this; cases this

/-! ## Concrete states -/

theorem test_reference_valid : Params.reference.Valid := by decide +kernel

/-- A state with only `MAIN` and an idle running context is ready. -/
theorem ready_of {s : State} (hs : s.stack = []) (ho : s.op = .idle) : s.ready :=
  ⟨fun n hn => (by rw [hs] at hn; cases hn), ho⟩

/-- The cycle counter at `c`. -/
def clockState (c : Nat) : State := { refState .idle with timeCyc := c }

/-- `ISR(0)` idle above a `MAIN` inside its guarded operation on port 1. -/
def lockedState : State := heldBy .main (isrState (.run (.setRs485Mode 1) (.g .b1)) .idle)

/-- `ISR(0)` at the acquire phase, `MAIN` holding the lock (GR22). -/
def spinState : State :=
  heldBy .main (isrState (.run (.setRs485Mode 1) (.g .b1)) (.run (.setIntMask 1 0) (.g .g1)))

/-- `MAIN` in the hold of `SEND_BREAK 2` with pin 17 as `s3` to `s5` leave it. -/
def holdState (ph : Phase) : State :=
  { refState (.run (.sendBreak 2 176) ph) with pins := [(17, ⟨.detached, .output, false, 0⟩)] }

theorem test_inv_idle : Inv (refState .idle) := inv_of_checks test_reference_valid (by decide +kernel)
theorem test_inv_locked : Inv lockedState := inv_of_checks test_reference_valid (by decide +kernel)
theorem test_inv_hold (x : Bool) :
    Inv (holdState (.s6 ⟨17, 0x4080⟩ (if x then .d0 else .d2 1000 1176))) :=
  inv_of_checks test_reference_valid (by cases x <;> decide +kernel)
theorem test_ready : (refState .idle).ready := ready_of rfl rfl
theorem test_ready_isr : (isrState .idle .idle).ready :=
  ⟨fun n hn => (by cases hn; exact Nat.zero_lt_one), rfl⟩
theorem test_open_1 : (refState .idle).isOpen 1 1 := ⟨by decide, by decide⟩
theorem test_open_2 : (refState .idle).isOpen 2 2 := ⟨by decide, by decide⟩

/-! ## A state and operands for every statement with hypotheses -/

theorem test_witness_DecodeOfEncode :
    (Instr.setDbgPort 255 true).wellFormed = true ∧ (Instr.setDbgPort 0 false).wellFormed = true := by decide
theorem test_witness_EncodeOfDecode : decode 0x2101000100160003 = some (.cfgBreakGen 1 true 22 3) := by decide
/-- Each range of R107 at both its ends. -/
theorem test_witness_ReservedOpcodesRejected :
    ∀ o ∈ [0x00, 0x03, 0x0F, 0x14, 0x1F, 0x28, 0x2F, 0x31, 0x3F, 0x45, 0xFF],
      ((Command.ofFields (BitVec.ofNat 8 o) 0 0 0).extractLsb' 56 8).toNat = o ∧
        decode (Command.ofFields (BitVec.ofNat 8 o) 0 0 0) = none := by decide
theorem test_witness_IllegalCommandRaises :
    (refState .idle).faults = [] ∧ (refState .idle).op = .idle ∧ decode 0x4402000000000000 = none := by decide
theorem test_witness_StepRunsTheOperation :
    ((refState .idle).faults = [] ∧ (refState .idle).op = .idle ∧ decode 0x4300000000000000 = some .getDbgPort) ∧
    ((refState (.run .getDbgPort .q0)).faults = [] ∧
      (refState (.run .getDbgPort .q0)).op = .run .getDbgPort .q0) := by decide
theorem test_witness_NowMicrosDeliversTimer : (refState .idle).ready ∧ (isrState .idle .idle).ready :=
  ⟨test_ready, test_ready_isr⟩
theorem test_witness_WrapConstantFacts : Params.reference.Valid ∧ 4294967295 < 2 ^ Params.reference.cycW :=
  ⟨test_reference_valid, by decide⟩
/-- T4 and T5: two samples across the wrap of the counter. -/
theorem test_witness_TimerMonotone :
    let s := { refState .idle with timeCyc := 4294967295 }
    let s' := { s.now.2 with timeCyc := 4294967296 }
    s.params.Valid ∧ s'.params = s.params ∧ s'.tLast = s.now.2.tLast ∧ s'.tAcc = s.now.2.tAcc ∧
      s'.tAcc.toNat + wrapUs s.params + s'.ccount / s.params.cyclesPerUs < 2 ^ 64 :=
  ⟨test_reference_valid, by decide +kernel, by decide +kernel, by decide +kernel, by decide +kernel⟩
/-- T11, samples 3 and 4 (a wrap between them), and samples 1 and 2 (none). -/
theorem test_witness_TimerStepAccuracy :
    (∀ c ∈ [4294967280, 4294966800], (clockState c).params.Valid ∧ 240 < 2 ^ (clockState c).params.cycW ∧
      (clockState c).now.2.tAcc.toNat + wrapUs (clockState c).params + wrapUs (clockState c).params < 2 ^ 64) ∧
    ((clockState 4294967280).now.2.advance 240).ccount < (clockState 4294967280).ccount ∧
    ¬ ((clockState 4294966800).now.2.advance 240).ccount < (clockState 4294966800).ccount :=
  ⟨fun c hc => by
    simp only [List.mem_cons, List.not_mem_nil, or_false] at hc
    rcases hc with rfl | rfl <;> exact ⟨test_reference_valid, by decide +kernel, by decide +kernel⟩,
    by decide +kernel, by decide +kernel⟩
theorem test_witness_ClockNeverAheadKept :
    Inv (refState .idle) ∧ ClockBehind (refState .idle) ∧ step (refState .idle) = .next (refState .idle) :=
  ⟨test_inv_idle, ⟨0, by decide +kernel, by decide +kernel⟩, rfl⟩
theorem test_witness_DelayMicroSteps :
    (refState .idle).ready ∧
    (refState (.run (.delayMicros 200) (.d (.d1 18446744073709551526 110)))).op =
      .run (.delayMicros 200) (.d (.d1 18446744073709551526 110)) ∧
    (∀ c ∈ [44639, 44640],
      { refState (.run (.delayMicros 176) (.d (.d2 10 186))) with timeCyc := c }.op =
        .run (.delayMicros 176) (.d (.d2 10 186))) ∧
    { refState (.run (.delayMicros 176) (.d (.d2 10 186))) with timeCyc := 44639 }.now.1 < 186 ∧
    { refState (.run (.delayMicros 176) (.d (.d2 10 186))) with timeCyc := 44640 }.now.1 ≥ 186 :=
  ⟨test_ready, by decide +kernel, by decide +kernel, by decide +kernel, by decide +kernel⟩
theorem test_witness_DelayZeroTwoSteps : (refState .idle).ready := test_ready
theorem test_witness_DelayMinimumDuration :
    let s := { refState (.run (.delayMicros 176) (.d (.d2 10 186))) with timeCyc := 44640 }
    Inv s ∧ s.op = .run (.delayMicros 176) (.d (.d2 10 186)) ∧
      next (exec (.delayMicros 176) s) State.op = some .idle ∧ (10 : Micros).toNat + 176 < 2 ^ 64 :=
  ⟨inv_of_checks test_reference_valid (by decide +kernel), by decide +kernel, by decide +kernel, by decide⟩
theorem test_witness_WaitNullPortReturns :
    (refState .idle).ready ∧ (refState .idle).handle 0 = .null ∧ (refState .idle).handle 3 = .null ∧
      (refState .idle).handle 255 = .null := ⟨test_ready, by decide, by decide, by decide⟩
/-- Every clause, for the wait that has a latch. -/
theorem test_witness_WaitMicroSteps :
    (refState .idle).ready ∧ (refState .idle).isOpen 1 1 ∧
    (waitTable Params.reference 1)[2]?.map (fun r => (r.instr, r.sat someRegs, r.latch)) =
      some (.waitTxDone 1, true, some 14) ∧
    (waitTable Params.reference 1)[0]?.map (fun r => (r.instr, r.sat someRegs, r.latch)) =
      some (.waitTxfifoEmpty 1, false, none) ∧
    (∀ x ∈ [WPhase.w1, .w2, .w3, .w4], (refState (.run (.waitTxDone 1) (.w x))).op =
      .run (.waitTxDone 1) (.w x)) ∧
    (refState (.run (.waitTxDone 0) (.w .w1))).op = .run (.waitTxDone 0) (.w .w1) ∧
    (refState (.run (.waitTxDone 0) (.w .w1))).handle 0 = .null :=
  ⟨test_ready, test_open_1, by decide, by decide, by decide, by decide, by decide⟩
theorem test_witness_WaitFifoEmptyCompletes :
    let s := openState Params.reference { someRegs with txfifoCnt := 0, rxfifoCnt := 0 } .idle
    s.ready ∧ s.isOpen 2 2 ∧ (s.port 2).regs.txfifoCnt = 0 ∧ (s.port 2).regs.rxfifoCnt = 0 :=
  ⟨ready_of rfl rfl, ⟨by decide, by decide⟩, by decide, by decide⟩
theorem test_witness_WaitLatchClears :
    Inv (refState .idle) ∧ (refState .idle).ready ∧ (refState .idle).isOpen 1 1 ∧
      (waitTable Params.reference 1).map WaitRow.latch = [none, none, some 14, some 13] ∧
      ((refState .idle).port 1).regs.intRaw.testBit 14 = true ∧
      ((refState .idle).port 1).regs.intRaw.testBit 13 = true :=
  ⟨test_inv_idle, test_ready, test_open_1, by decide, by decide, by decide⟩
theorem test_witness_WaitUnsatisfiedTurn :
    (refState (.run (.waitTxfifoEmpty 1) (.w .w1))).isOpen 1 1 ∧
      (waitTable Params.reference 1)[0]?.map (fun r => (r.instr, r.sat someRegs)) =
        some (.waitTxfifoEmpty 1, false) ∧
      (refState (.run (.waitTxfifoEmpty 1) (.w .w1))).op = .run (.waitTxfifoEmpty 1) (.w .w1) :=
  ⟨⟨by decide, by decide⟩, by decide, by decide⟩
/-- Every clause, for a body of three writes. -/
theorem test_witness_GuardedMicroSteps :
    (refState .idle).ready ∧ (refState .idle).handle 3 = .null ∧ (refState .idle).isOpen 1 1 ∧
    ((refState .idle).port 1).lock = .free ∧ (spinState.port 1).lock = .held .main ∧
    (guardedTable Params.reference 1 true 22 3 0)[1]?.map Prod.fst = some (.cfgBreakGen 1 true 22 3) ∧
    (∀ x ∈ [GPhase.g1, bodyPhase 0, bodyPhase 1, bodyPhase 2, .gR],
      (refState (.run (.cfgBreakGen 1 true 22 3) (.g x))).op = .run (.cfgBreakGen 1 true 22 3) (.g x)) ∧
    (refState (.run (.setRs485Mode 0) (.g .g1))).handle 0 = .null :=
  ⟨test_ready, by decide, test_open_1, by decide, by decide, by decide, by decide, by decide⟩
theorem test_witness_SetRs485ModeCompletes :
    (refState .idle).ready ∧ (refState .idle).isOpen 1 1 ∧ ((refState .idle).port 1).lock = .free :=
  ⟨test_ready, test_open_1, by decide⟩
theorem test_witness_CfgBreakGenCompletes :
    (refState .idle).ready ∧ (refState .idle).isOpen 1 1 ∧ ((refState .idle).port 1).lock = .free :=
  ⟨test_ready, test_open_1, by decide⟩
theorem test_witness_DisableAllIntsCompletes :
    (refState .idle).ready ∧ (refState .idle).isOpen 1 1 ∧ ((refState .idle).port 1).lock = .free :=
  ⟨test_ready, test_open_1, by decide⟩
theorem test_witness_SetIntMaskCompletes :
    (refState .idle).ready ∧ (refState .idle).isOpen 1 1 ∧ ((refState .idle).port 1).lock = .free :=
  ⟨test_ready, test_open_1, by decide⟩
theorem test_witness_ForceTwoStopBitsCompletes :
    (refState .idle).params.Valid ∧ (refState .idle).ready ∧ (refState .idle).isOpen 2 2 ∧
      ((refState .idle).port 2).lock = .free := ⟨test_reference_valid, test_ready, test_open_2, by decide⟩
theorem test_witness_EnableBrkDetCompletes :
    (refState .idle).params.Valid ∧ (refState .idle).ready ∧ (refState .idle).isOpen 2 2 ∧
      ((refState .idle).port 2).lock = .free := ⟨test_reference_valid, test_ready, test_open_2, by decide⟩
theorem test_witness_DisableBrkDetCompletes :
    Inv (refState .idle) ∧ (refState .idle).ready ∧ (refState .idle).isOpen 2 2 ∧
      ((refState .idle).port 2).lock = .free := ⟨test_inv_idle, test_ready, test_open_2, by decide⟩
theorem test_witness_ClearAllIntsCompletes :
    Inv (refState .idle) ∧ (refState .idle).ready ∧ (refState .idle).isOpen 2 2 ∧
      ((refState .idle).port 2).lock = .free := ⟨test_inv_idle, test_ready, test_open_2, by decide⟩

/-- The spin: `ISR(0)` at its acquire phase on port 1, whose lock `MAIN` holds. -/
theorem test_witness_LockSpinUnchanged :
    ((refState .idle).port 1).lock = .free ∧ (spinState.port 1).lock = .held .main ∧
      SpinsOnLock spinState 1 ∧ spinState.op = .run (.setIntMask 1 0) (.g .g1) :=
  ⟨by decide, by decide, ⟨_, _, .main, rfl, rfl, by decide, by decide, by decide, by decide⟩, by decide⟩
/-- The spin meets a step of the hardware. -/
theorem test_witness_LockSpinPersists :
    let s := { spinState with moves := [.advance 240] }
    SpinsOnLock s 1 ∧ (∀ k ms, s.moves ≠ .interrupt k :: ms) ∧
      step s = .next { spinState with moves := [], timeCyc := 240 } :=
  ⟨⟨_, _, .main, rfl, rfl, by decide, by decide, by decide, by decide⟩, fun k ms h => (by cases h), rfl⟩
/-- A field of its own, the break-detect enable, and `INT_CLR`. -/
theorem test_witness_RegWriteChangesOneField :
    Inv (refState .idle) ∧ stored .brkLen = some .brkLen ∧ touches Params.reference .brkLen .idleLen = false ∧
      touches Params.reference .brkDetEn .intEna = true ∧ (0 : Nat) ≠ Params.reference.brkDetBit ∧
      stored .intClr = none := ⟨test_inv_idle, by decide, by decide, by decide, by decide, by decide⟩
theorem test_witness_IntClrClearsWrittenOnes :
    Inv (refState .idle) ∧ 0xFFFFFFFF < 2 ^ (refState .idle).params.intW := ⟨test_inv_idle, by decide⟩
/-- `MAIN` holds the lock of port 1, and `ISR(0)` presents an operation. -/
theorem test_witness_LockedConfigStable :
    let s := { lockedState with moves := [.issue 0x1001000000000000] }
    Inv s ∧ (s.opOf .main).holds 1 = true ∧ (s.refused = false ∧ (s.port 1).lock = .held .main) ∧
      Ctx.main ≠ s.running ∧ (next (step s) id).isSome = true :=
  ⟨inv_of_checks test_reference_valid (by decide +kernel), by decide, by decide, by decide, by decide +kernel⟩
/-- Every clause of the break's micro-steps. -/
theorem test_witness_SendBreakMicroSteps :
    (refState .idle).ready ∧ (refState .idle).running = .main ∧ (refState .idle).handle 7 = .null ∧
    (refState .idle).isOpen 2 2 ∧ portId? 2 = some 2 ∧
    (∀ ph ∈ [Phase.s1 17, .s3 ⟨17, 0x4080⟩, .s4 ⟨17, 0x4080⟩, .s5 ⟨17, 0x4080⟩, .s6 ⟨17, 0x4080⟩ .d0,
        .s6 ⟨17, 0x4080⟩ (.d1 18446744073709551526 110), .s6 ⟨17, 0x4080⟩ (.d2 1000 1176), .s7 ⟨17, 0x4080⟩,
        .s8 ⟨17, 0x4080⟩],
      (refState (.run (.sendBreak 2 176) ph)).op = .run (.sendBreak 2 176) ph) ∧
    (clockState 282240).now.1 ≥ 1176 ∧ (clockState 282239).now.1 < 1176 :=
  ⟨test_ready, by decide, by decide, test_open_2, by decide, by decide, by decide +kernel, by decide +kernel⟩
/-- Every clause, in `END 1` and, for a null handle, in `SEND_BREAK 0`. -/
theorem test_witness_SubOperationMicroSteps :
    (subTable Params.reference 1 176 ⟨10, 0x4080⟩)[2]?.map (fun r => (r.instr, r.phase .g0, r.after, r.body)) =
      some (.endPort 1, .e1 .g0, .run (.endPort 1) .e2, [(.intEna, 0), (.intClr, 0xFFFFFFFF)]) ∧
    (∀ x ∈ [GPhase.g0, .g1, .b1, .b2, .gR], (refState (.run (.endPort 1) (.e1 x))).op =
      .run (.endPort 1) (.e1 x)) ∧
    (refState (.run (.endPort 1) (.e1 .g1))).isOpen 1 1 ∧
    ((refState (.run (.endPort 1) (.e1 .g1))).port 1).lock = .free ∧
    ((heldBy .main (isrState (.run (.setRs485Mode 1) (.g .b1)) (.run (.endPort 1) (.e1 .g1)))).port 1).lock =
      .held .main ∧
    (∀ x ∈ [GPhase.g0, .g1], (refState (.run (.sendBreak 0 176) (.s9 ⟨1, 0⟩ x))).op =
      .run (.sendBreak 0 176) (.s9 ⟨1, 0⟩ x)) ∧ (refState .idle).handle 0 = .null :=
  ⟨by decide, by decide, ⟨by decide, by decide⟩, by decide, by decide, by decide, by decide⟩
theorem test_witness_SendBreakOutsideMainRefused :
    (isrState .idle .idle).ready ∧ (isrState .idle .idle).running ≠ .main := ⟨test_ready_isr, by decide⟩
theorem test_witness_SendBreakReachesHold :
    Pins.wf (refState .idle).pins = true ∧ (refState .idle).ready ∧ (refState .idle).running = .main ∧
      (refState .idle).isOpen 2 2 ∧ ((refState .idle).port 2).lock = .free :=
  ⟨by decide, test_ready, by decide, test_open_2, by decide⟩
theorem test_witness_SendBreakRestores :
    let s := holdState (.s7 ⟨17, 0x4080⟩)
    Pins.wf s.pins = true ∧ s.op = .run (.sendBreak 2 176) (.s7 ⟨17, 0x4080⟩) ∧ 0x4080 < 2 ^ s.params.intW ∧
      s.isOpen 2 2 ∧ (s.port 2).lock = .free :=
  ⟨by decide, by decide, by decide, ⟨by decide, by decide⟩, by decide⟩
theorem test_witness_SendBreakZeroCompletes :
    Inv (refState .idle) ∧ (refState .idle).ready ∧ (refState .idle).running = .main ∧
      (refState .idle).isOpen 2 2 ∧ ((refState .idle).port 2).lock = .free :=
  ⟨test_inv_idle, test_ready, by decide, test_open_2, by decide⟩
/-- In the hold, `MAIN` takes a poll. -/
theorem test_witness_LineLowInHold :
    let s := holdState (.s6 ⟨17, 0x4080⟩ .d0)
    Inv s ∧ LowInHold s ∧ (∀ p, s.nextInstr = some (.openPort p) → (s.opOf .main).pinDetached p = false) ∧
      (next (step s) id).isSome = true ∧ portId? 2 = some 2 ∧ (s.opOf .main).inHold 2 = true := by
  refine ⟨test_inv_hold true, fun p q hq => ?_, fun p hp => (by cases hp), by decide +kernel, by decide, by decide⟩
  by_cases hp : p = 2
  · subst hp
    cases hq
    exact ⟨fun _ => by decide, fun _ => by decide, fun _ => by decide⟩
  · have hb : ((2 : PortIndex) == p) = false := by simpa using Ne.symm hp
    exact ⟨fun h => absurd (hb.symm.trans h) (by decide), fun h => absurd (hb.symm.trans h) (by decide),
      fun h => absurd (hb.symm.trans h) (by decide)⟩
theorem test_witness_OpenPortEffect :
    (refState .idle).ready ∧ nports ≤ (3 : PortIndex).toNat ∧ (refState .idle).isOpen 2 2 ∧
      portId? 0 = some 0 ∧ ((refState .idle).port 0).handle = .null ∧ Inv (refState .idle) :=
  ⟨test_ready, by decide, test_open_2, by decide, by decide, test_inv_idle⟩
theorem test_witness_SetBaudRefused : (refState .idle).ready := test_ready
theorem test_witness_EndMicroSteps :
    (refState .idle).ready ∧ (refState .idle).handle 0 = .null ∧ (refState .idle).isOpen 1 1 ∧
      ∀ ph ∈ [Phase.e2, .e3, .e4], (refState (.run (.endPort 1) ph)).op = .run (.endPort 1) ph :=
  ⟨test_ready, by decide, test_open_1, by decide⟩
theorem test_witness_EndPortCompletes :
    (refState .idle).ready ∧ (refState .idle).isOpen 1 1 ∧ ((refState .idle).port 1).lock = .free :=
  ⟨test_ready, test_open_1, by decide⟩
theorem test_witness_GetDbgPortDelivers : (refState .idle).ready := test_ready
theorem test_witness_SetDbgPortWrites : (refState .idle).ready := test_ready
/-- An `OPEN` of port 0 and the last micro-step of an `END` of port 1. -/
theorem test_witness_HandleLifecycle :
    (((refState .idle).port 0).handle = .null ∧
      next (step { refState .idle with moves := [.issue 0x4000000000000000] }) (fun t => (t.port 0).handle) =
        some .valid) ∧
    (((refState (.run (.endPort 1) .e4)).port 1).handle = .valid ∧
      next (step (refState (.run (.endPort 1) .e4))) (fun t => (t.port 1).handle) = some .null) :=
  ⟨⟨by decide, by rfl⟩, by decide, by decide +kernel⟩
/-- A port that requests and one that does not, without a depth bound and with one of 1 and 2. -/
theorem test_witness_InterruptEntry :
    (refState .idle).faults = [] ∧
    (((refState .idle).port 1).regs.intRaw &&& ((refState .idle).port 1).regs.intEna) ≠ 0 ∧
    (((refState .idle).port 0).regs.intRaw &&& ((refState .idle).port 0).regs.intEna) = 0 ∧
    Params.reference.depthBound = none ∧
    1 < (refState .idle).ctxStack.length + 1 ∧ ¬ 2 < (refState .idle).ctxStack.length + 1 := by decide
/-- The premise of the freshness clause, with a context on the stack and its entry on record. -/
theorem test_witness_InterruptEntry_fresh :
    let s := { isrState .idle .idle with trace := [.intEnter (.isr 0) .external] }
    Inv s ∧ s.faults = [] ∧ Ctx.isr 0 ∈ s.ctxStack :=
  ⟨inv_of_checks test_reference_valid (by decide +kernel), rfl, by decide⟩
theorem test_witness_InterruptExit :
    ((isrState .idle .idle).faults = [] ∧ (isrState .idle .idle).stack = [0] ∧
      (isrState .idle .idle).op = .idle) ∧
    ((refState .idle).faults = [] ∧ (refState .idle).stack = []) ∧ (spinState.faults = [] ∧ spinState.op ≠ .idle) := by
  decide
theorem test_witness_FaultedMachineIsQuiescent :
    { refState .idle with faults := [⟨.main, .nullPort 0⟩] }.faults = ⟨.main, .nullPort 0⟩ :: [] ∧
      step (refState .idle) = .next (refState .idle) ∧
      { refState .idle with refused := true }.refused = true := ⟨rfl, rfl, rfl⟩
theorem test_witness_UartHardwareStep : (refState .idle).faults = [] := rfl
theorem test_witness_CounterAdvances : (refState .idle).faults = [] := rfl
theorem test_witness_ResetValues : ResetDraw.zero.Fits Params.reference :=
  ⟨by decide, by decide, by decide⟩
theorem test_witness_EveryStepKeepsInv :
    let s := { refState .idle with moves := [.issue 0x2602000000004080] }
    Inv s ∧ (next (step s) State.op) = some (.run (.setIntMask 2 0x4080) (.g .g1)) :=
  ⟨inv_of_checks test_reference_valid (by decide +kernel), by decide +kernel⟩
theorem test_witness_InvAtReset : Params.reference.Valid ∧ ResetDraw.zero.Fits Params.reference :=
  ⟨test_reference_valid, test_witness_ResetValues⟩
theorem test_witness_EveryMicroStepAnswersNext :
    (Inv (refState .idle) ∧ (refState .idle).op = .idle) ∧
    (Inv (holdState (.s6 ⟨17, 0x4080⟩ (.d2 1000 1176))) ∧
      (holdState (.s6 ⟨17, 0x4080⟩ (.d2 1000 1176))).op =
        .run (.sendBreak 2 176) (.s6 ⟨17, 0x4080⟩ (.d2 1000 1176))) :=
  ⟨⟨test_inv_idle, rfl⟩, test_inv_hold false, rfl⟩
theorem test_witness_LockHolderUnique :
    Inv lockedState ∧ step lockedState = .next lockedState ∧ (lockedState.opOf .main).holds 1 = true :=
  ⟨test_inv_locked, rfl, by decide⟩
theorem test_witness_RegisterMapAccess :
    Inv (refState .idle) ∧ (∀ off ∈ [0x00, 0x04, 0x0C, 0x10, 0x18, 0x1C, 0x20, 0x24, 0x40, 0x44, 0x80],
      off % 4 = 0) ∧ (2 % 4 ≠ 0 ∨ 4 ≠ 4) ∧ (4 % 4 ≠ 0 ∨ 2 ≠ 4) :=
  ⟨test_inv_idle, by decide, by decide, by decide⟩
/-- 20_memory.md R71: `CONF0` holds the stop bits at [5:4] and the break enable at [8]. -/
theorem test_mem_write_conf0 :
    next ((refState .idle).memWrite 1 0x20 4 0x130) (fun t => ((t.port 1).regs.stopBits, (t.port 1).regs.txdBrkEn)) =
      some (3, 1) := by decide +kernel

end Sys2Proof.Tests
end

section
/-! The totality of `exec` under `Inv` (00_scope.md R15, 10_state.md R23): each operation's micro-step answers a
next state at every phase of its table, and the invariant keeps every context at such a phase. -/

namespace Sys2Proof.Machine

/-! ### Port operands past their entry check -/

theorem exists_portId?_of_physical {p : PortIndex} (h : physical p = true) : ∃ q, portId? p = some q :=
  Option.isSome_iff_exists.1 (portId?_isSome.trans h)

theorem withPort_answers {p : PortIndex} (h : physical p = true) (f : PortId → State) :
    ∃ t, withPort p (fun q => .next (f q)) = .next t := by
  obtain ⟨q, hq⟩ := exists_portId?_of_physical h
  exact ⟨f q, withPort_some hq _⟩

theorem GPhase.entered_of_physical {p : PortIndex} (h : physical p = true) (x : GPhase) : x.entered p = true := by
  obtain ⟨_, hq⟩ := exists_portId?_of_physical h
  exact GPhase.entered_of hq x

/-! ### The tables of phases -/

/-- The laws of `FirstPhaseFits`, for every operation: presentation puts a context at a phase of the table. -/
theorem phaseFits_firstPhase (P : Params) (c : Ctx) (i : Instr) : phaseFits P c i (firstPhase i) = true := by
  cases i <;> rfl

section Tables

variable {P : Params} {c : Ctx} {i : Instr} {ph : Phase} {p : PortIndex}

theorem phaseFits_g (x : GPhase) :
    phaseFits P c i (.g x) = (x.fits (bodyLength i) && (portOperand i).any x.entered) := by
  cases i <;> rfl

/-- An operation without a body stands at no phase of the guarded operations. -/
theorem not_phaseFits_g_of_bodyless (hi : bodyLength i = 0) (x : GPhase) : ¬ phaseFits P c i (.g x) = true := by
  rw [phaseFits_g, hi]
  cases x <;> exact Bool.false_ne_true

/-- A guarded operation is at a phase of its body, past its entry check with a physical port only. -/
theorem phaseFits_guarded {body : Body} (hi : guardedOf P i = some (p, body)) (hf : phaseFits P c i ph = true) :
    ∃ x : GPhase, ph = .g x ∧ x.fits body.length = true ∧ x.entered p = true := by
  obtain ⟨hlen, hport⟩ := bodyLength_guarded hi
  have hph : ∃ x : GPhase, ph = .g x := by
    cases i <;> simp only [guardedOf, reduceCtorEq] at hi <;>
      (cases ph with
        | g x => exact ⟨x, rfl⟩
        | _ => cases hf)
  obtain ⟨x, rfl⟩ := hph
  rw [phaseFits_g, hlen, hport, Bool.and_eq_true] at hf
  exact ⟨x, rfl, hf⟩

/-- A wait is at one of the phases `w0` to `w4`, and at `w4` with a physical port and a latch to clear only. -/
theorem phaseFits_wait {form : WaitForm} (hi : waitOf P i = some (p, form)) (hf : phaseFits P c i ph = true) :
    ∃ x : WPhase, ph = .w x ∧ (x = .w4 → physical p = true ∧ ∃ b, form.latch = some b) := by
  have hw4 : phaseFits P c i (.w .w4) = (form.latch.isSome && physical p) := by
    cases i <;> simp only [waitOf, Option.some.injEq, Prod.mk.injEq, reduceCtorEq] at hi <;>
      (obtain ⟨rfl, rfl⟩ := hi; rfl)
  have hph : ∃ x : WPhase, ph = .w x := by
    cases i <;> simp only [waitOf, reduceCtorEq] at hi <;>
      (cases ph with
        | w x => exact ⟨x, rfl⟩
        | g x => exact absurd hf (not_phaseFits_g_of_bodyless rfl x)
        | _ => cases hf)
  obtain ⟨x, rfl⟩ := hph
  refine ⟨x, rfl, ?_⟩
  rintro rfl
  rw [hw4, Bool.and_eq_true] at hf
  exact ⟨hf.2, Option.isSome_iff_exists.1 hf.1⟩

/-- Past `s0`, `SEND_BREAK` has a physical port (43_break.md R201). -/
theorem physical_of_phaseFits_sendBreak {d : BitVec 32} (hf : phaseFits P c (.sendBreak p d) ph = true)
    (hs : ph ≠ .s0) : physical p = true := by
  cases ph with
  | s0 => exact absurd rfl hs
  | g x => exact absurd hf (not_phaseFits_g_of_bodyless rfl x)
  | s1 | s3 | s4 | s5 | s7 | s8 =>
    obtain ⟨hcp, _⟩ := Bool.and_eq_true_iff.1 hf
    exact (Bool.and_eq_true_iff.1 hcp).2
  | s2 | s6 | s9 =>
    obtain ⟨hl, _⟩ := Bool.and_eq_true_iff.1 hf
    obtain ⟨hcp, _⟩ := Bool.and_eq_true_iff.1 hl
    exact (Bool.and_eq_true_iff.1 hcp).2
  | _ => cases hf

end Tables

/-! ### Each operation's micro-step answers a next state at the phases of its table -/

section Answers

variable {P : Params} {c : Ctx} {i : Instr} {ph : Phase} {p : PortIndex}

theorem guardedOperation_answers {body : Body} (hi : guardedOf P i = some (p, body))
    (hf : phaseFits P c i ph = true) (s : State) : ∃ t, guardedOperation i p body ph s = .next t := by
  obtain ⟨x, rfl, hx, he⟩ := phaseFits_guarded hi hf
  simp only [guardedOperation]
  exact guardedStep_answers _ _ s hx he

theorem waitOperation_answers {form : WaitForm} (hi : waitOf P i = some (p, form))
    (hf : phaseFits P c i ph = true) (s : State) : ∃ t, waitOperation i p form ph s = .next t := by
  obtain ⟨x, rfl, hx⟩ := phaseFits_wait hi hf
  simp only [waitOperation]
  cases x with
  | w0 => simp only [waitStep]; split <;> exact ⟨_, rfl⟩
  | w1 =>
    simp only [waitStep]
    split
    · exact ⟨_, rfl⟩
    · split
      · split <;> exact ⟨_, rfl⟩
      · exact ⟨_, rfl⟩
  | w2 => exact ⟨_, rfl⟩
  | w3 => exact ⟨_, rfl⟩
  | w4 =>
    obtain ⟨hp, b, hb⟩ := hx rfl
    simp only [waitStep, hb]
    exact withPort_answers hp _

theorem breakEntry_answers (i : Instr) (p : PortIndex) (s : State) : ∃ t, breakEntry i p s = .next t := by
  unfold breakEntry
  split
  · split <;> exact ⟨_, rfl⟩
  · exact ⟨_, rfl⟩

theorem breakStep_answers {d : BitVec 32} (hf : phaseFits P c (.sendBreak p d) ph = true) (s : State) :
    ∃ t, breakStep (.sendBreak p d) p (zextDuration d) ph s = .next t := by
  have hp := physical_of_phaseFits_sendBreak hf
  have entered (hs : ph ≠ .s0) (x : GPhase) : x.entered p = true := x.entered_of_physical (hp hs)
  cases ph with
  | s0 => exact breakEntry_answers _ p s
  | s1 pin => exact withPort_answers (hp (by simp)) _
  | s2 l x =>
    have hx : x.fits 2 = true := (Bool.and_eq_true_iff.1 hf).2
    simp only [breakStep]
    exact guardedStep_answers _ _ s hx (entered (by simp) x)
  | s6 l x => simp only [breakStep]; exact delayStep_answers _ x _ _ s
  | s9 l x =>
    have hx : x.fits 1 = true := (Bool.and_eq_true_iff.1 hf).2
    simp only [breakStep]
    exact guardedStep_answers _ _ s hx (entered (by simp) x)
  | s3 | s4 | s5 | s7 | s8 => exact ⟨_, rfl⟩
  | g x => exact absurd hf (not_phaseFits_g_of_bodyless rfl x)
  | _ => cases hf

theorem endStep_answers (hf : phaseFits P c (.endPort p) ph = true) (s : State) :
    ∃ t, endStep (.endPort p) p ph s = .next t := by
  cases ph with
  | e0 => simp only [endStep]; split <;> exact ⟨_, rfl⟩
  | e1 x =>
    obtain ⟨hp, hx⟩ := Bool.and_eq_true_iff.1 hf
    simp only [endStep]
    exact guardedStep_answers _ _ s hx (x.entered_of_physical hp)
  | e2 => exact ⟨_, rfl⟩
  | e3 => exact withPort_answers hf _
  | e4 => exact withPort_answers hf _
  | g x => exact absurd hf (not_phaseFits_g_of_bodyless rfl x)
  | _ => cases hf

theorem openStep_answers (hf : phaseFits P c (.openPort p) ph = true) (s : State) :
    ∃ t, openStep p ph s = .next t := by
  cases ph with
  | o0 =>
    simp only [openStep]
    split
    · exact ⟨_, rfl⟩
    · split <;> exact ⟨_, rfl⟩
  | g x => exact absurd hf (not_phaseFits_g_of_bodyless rfl x)
  | _ => cases hf

theorem delayOperation_answers {d : BitVec 32} (hf : phaseFits P c (.delayMicros d) ph = true) (s : State) :
    ∃ t, delayOperation (.delayMicros d) (zextDuration d) ph s = .next t := by
  cases ph with
  | d x => simp only [delayOperation]; exact delayStep_answers _ x _ _ s
  | g x => exact absurd hf (not_phaseFits_g_of_bodyless rfl x)
  | _ => cases hf

theorem nowStep_answers (hf : phaseFits P c .nowMicros ph = true) (s : State) : ∃ t, nowStep ph s = .next t := by
  cases ph with
  | n0 => exact ⟨_, rfl⟩
  | g x => exact absurd hf (not_phaseFits_g_of_bodyless rfl x)
  | _ => cases hf

theorem setBaudStep_answers {v : BitVec 32} (hf : phaseFits P c (.setBaud p v) ph = true) (s : State) :
    ∃ t, setBaudStep ph s = .next t := by
  cases ph with
  | u0 => exact ⟨_, rfl⟩
  | g x => exact absurd hf (not_phaseFits_g_of_bodyless rfl x)
  | _ => cases hf

theorem getDbgPortStep_answers (hf : phaseFits P c .getDbgPort ph = true) (s : State) :
    ∃ t, getDbgPortStep ph s = .next t := by
  cases ph with
  | q0 => exact ⟨_, rfl⟩
  | g x => exact absurd hf (not_phaseFits_g_of_bodyless rfl x)
  | _ => cases hf

theorem setDbgPortStep_answers {valid : Bool} (hf : phaseFits P c (.setDbgPort p valid) ph = true) (s : State) :
    ∃ t, setDbgPortStep p valid ph s = .next t := by
  cases ph with
  | t0 => exact ⟨_, rfl⟩
  | g x => exact absurd hf (not_phaseFits_g_of_bodyless rfl x)
  | _ => cases hf

end Answers

/-! ### `exec` -/

/-- An operation whose micro-step answers at every phase of its table answers from an idle context and from a
context at such a phase. -/
theorem operate_answers {P : Params} {c : Ctx} {i : Instr} {s : State} {m : Phase → State → Result}
    (hs : s.op = .idle ∨ ∃ ph, s.op = .run i ph ∧ phaseFits P c i ph = true)
    (hm : ∀ {ph}, phaseFits P c i ph = true → ∀ s, ∃ t, m ph s = .next t) : ∃ t, operate i s m = .next t := by
  rcases hs with ho | ⟨ph, ho, hf⟩
  · rw [operate_idle ho]
    exact hm (phaseFits_firstPhase P c i) _
  · rw [operate_run ho]
    exact hm hf s

theorem exec_answers {c : Ctx} {i : Instr} {s : State}
    (hs : s.op = .idle ∨ ∃ ph, s.op = .run i ph ∧ phaseFits s.params c i ph = true) :
    ∃ t, exec i s = .next t := by
  have waits : ∀ p form, waitOf s.params i = some (p, form) → ∃ t, exec i s = .next t := by
    intro p form hi
    rw [exec_wait hi]
    exact operate_answers hs (waitOperation_answers hi)
  have guards : ∀ p body, guardedOf s.params i = some (p, body) → ∃ t, exec i s = .next t := by
    intro p body hi
    rw [exec_guarded hi]
    exact operate_answers hs (guardedOperation_answers hi)
  cases i with
  | nowMicros => exact operate_answers hs nowStep_answers
  | delayMicros d => exact operate_answers hs delayOperation_answers
  | waitTxfifoEmpty | waitRxfifoEmpty | waitTxDone | waitTxBrkDone => exact waits _ _ rfl
  | setRs485Mode | cfgBreakGen | forceTwoStopBits | enableBrkDet | disableBrkDet | disableAllInts | setIntMask
  | clearAllInts => exact guards _ _ rfl
  | sendBreak p d => exact operate_answers hs breakStep_answers
  | openPort p => exact operate_answers hs openStep_answers
  | setBaud p v => exact operate_answers hs setBaudStep_answers
  | endPort p => exact operate_answers hs endStep_answers
  | getDbgPort => exact operate_answers hs getDbgPortStep_answers
  | setDbgPort p valid => exact operate_answers hs setDbgPortStep_answers

/-- The invariant keeps a running context at a phase of its operation's table. -/
theorem Inv.phaseFits_running {s : State} (h : Inv s) {i : Instr} {ph : Phase} (ho : s.op = .run i ph) :
    phaseFits s.params s.running i ph = true := by
  have hfit : s.op.fits s.params s.running = true := h.phases_fit s.running
  rw [ho] at hfit
  exact hfit

/-- Settles O58: the invariant keeps the running context at a phase of its operation's table, where the
operation's micro-step answers; an idle context presents at such a phase. -/
theorem everyMicroStepAnswersNext : Obligations.EveryMicroStepAnswersNext := by
  intro s i hinv hs
  exact exec_answers (hs.imp_right fun ⟨ph, ho⟩ => ⟨ph, ho, hinv.phaseFits_running ho⟩)

end Sys2Proof.Machine
end

section
/-! The invariant of every step (10_state.md R22, R23, R33; 20_memory.md R82; 42_guarded_regops.md R171;
44_facade.md R227): it holds at reset, a micro-step keeps it by its frame and by what it does to each port, and
every other move of an agent keeps it. -/

namespace Sys2Proof.Machine

/-! ### The contexts of the stack -/

theorem State.mem_stack_of_running {s : State} {n : Nat} (h : s.running = .isr n) : n ∈ s.stack := by
  unfold State.running at h
  split at h
  · cases h
  · next m ms hs =>
    cases h
    rw [hs]
    exact List.mem_cons_self

/-- The running context is the first of the list (10_state.md R22). -/
theorem State.ctxList_eq_cons (s : State) : ∃ lower, s.ctxList = s.running :: lower := by
  unfold State.ctxList State.running
  cases s.stack with
  | nil => exact ⟨[], rfl⟩
  | cons n ns => exact ⟨ns.map Ctx.isr ++ [.main], rfl⟩

theorem OpState.ne_idle_of_holds {o : OpState} {q : PortId} (h : o.holds q = true) : o ≠ .idle := by
  rintro rfl
  cases h

section Discipline

variable {s t : State} {q : PortId} {c c' : Ctx}

theorem Inv.ctxList_nodup (h : Inv s) : s.ctxList.Nodup := by
  refine List.Nodup.append (h.stack_nodup.map fun _ _ e => Ctx.isr.inj e) (List.nodup_singleton _) ?_
  simp [List.disjoint_singleton]

/-- A context that runs an operation is on the stack. -/
theorem Inv.mem_ctxList_of_busy (h : Inv s) (hc : s.opOf c ≠ .idle) : c ∈ s.ctxList := by
  cases c with
  | main => simp [State.ctxList]
  | isr n =>
    have hn : n ∈ s.stack := by_contra fun hn => hc (h.off_stack_idle n hn)
    simp [State.ctxList, hn]

theorem Inv.known_running (h : Inv s) : s.ctxs.known s.running :=
  s.runningKnown_iff.1 fun n hn => h.stack_entered n (List.mem_of_head? hn)

/-- At most one context is inside a guarded operation on a port (20_memory.md R82 (a)). -/
theorem Inv.holder_unique (h : Inv s) (hc : (s.opOf c).holds q = true) (hc' : (s.opOf c').holds q = true) :
    c = c' := by
  have hl : Lock.held c = Lock.held c' := (h.holder_locks q c hc).symm.trans (h.holder_locks q c' hc')
  exact Lock.held.inj hl

/-- While the running context is past the sub-operation of an `END`, no other context is inside a guarded
operation on its port (44_facade.md R227). -/
theorem Inv.not_holds_of_ending (h : Inv s) (he : s.op.ending q = true) (hc : c ≠ s.running) :
    (s.opOf c).holds q = false := by
  refine Bool.eq_false_iff.2 fun hh => ?_
  obtain ⟨lower, hl⟩ := s.ctxList_eq_cons
  have hm : c ∈ lower := by
    have hmem := h.mem_ctxList_of_busy (OpState.ne_idle_of_holds hh)
    rw [hl] at hmem
    exact (List.mem_cons.1 hmem).resolve_left hc
  have hclear := h.ending_clear
  unfold endingClear at hclear
  rw [hl] at hclear
  exact Bool.eq_false_iff.1 (List.rel_of_pairwise_cons hclear hm q he) hh

/-! ### What a micro-step keeps -/

/-- A context that does not run keeps its operation state. -/
theorem Frame.opOf_other (hf : Frame s t) (hc : c ≠ s.running) : t.opOf c = s.opOf c :=
  congrArg CtxState.op (hf.others c hc)

/-- Under another context's guarded operation a micro-step changes neither the port's lock nor its handle
(42_guarded_regops.md R171, 44_facade.md R227). -/
theorem PortMove.kept_under_holder (h : Inv s) (hm : PortMove s t q) (hc : c ≠ s.running)
    (hh : (s.opOf c).holds q = true) :
    (t.port q).lock = (s.port q).lock ∧ (t.port q).handle = (s.port q).handle := by
  have hlock := h.holder_locks q c hh
  have hvalid := h.holder_valid q c hh
  have not_ending : ¬ s.op.ending q = true := fun he => Bool.eq_false_iff.1 (h.not_holds_of_ending he hc) hh
  cases hm with
  | same e => rw [e]; exact ⟨rfl, rfl⟩
  | write f v e => rw [e]; exact ⟨rfl, rfl⟩
  | clear v e => rw [e]; exact ⟨rfl, rfl⟩
  | acquire _ hl => rw [hlock] at hl; cases hl
  | release _ hs => exact absurd (h.holder_unique hh hs) hc
  | opened hn => rw [hvalid] at hn; cases hn
  | released _ he => exact absurd he not_ending
  | nulled _ _ he => exact absurd he not_ending

/-- After a micro-step a context inside a guarded operation holds the port's lock under a valid handle. -/
theorem PortMove.holder_kept (h : Inv s) (hf : Frame s t) (hm : PortMove s t q)
    (hh : (t.opOf c).holds q = true) : (t.port q).lock = .held c ∧ (t.port q).handle = .valid := by
  by_cases hc : c = s.running
  · subst hc
    have before : s.op.holds q = true → (s.port q).lock = .held s.running ∧ (s.port q).handle = .valid :=
      fun hs => ⟨h.holder_locks q _ hs, h.holder_valid q _ hs⟩
    cases hm with
    | same e hheld => rw [e]; exact before (hheld ▸ hh)
    | write f v e hs => rw [e]; exact before hs
    | clear v e hheld => rw [e]; exact before (hheld ▸ hh)
    | acquire hv _ e => rw [e]; exact ⟨rfl, hv⟩
    | release _ _ ht => rw [ht] at hh; cases hh
    | opened _ _ _ _ ht => rw [ht] at hh; cases hh
    | released _ _ _ ht => rw [ht] at hh; cases hh
    | nulled _ _ _ _ ht => rw [ht] at hh; cases hh
  · rw [hf.opOf_other hc] at hh
    obtain ⟨hlock, hhandle⟩ := hm.kept_under_holder h hc hh
    exact ⟨hlock.trans (h.holder_locks q c hh), hhandle.trans (h.holder_valid q c hh)⟩

/-- After a micro-step of a run that is not refused, a held lock is held by a context inside a guarded operation
(20_memory.md R80, R81). -/
theorem PortMove.owner_kept (h : Inv s) (hf : Frame s t) (hm : PortMove s t q) (hr : t.refused = false)
    (hl : (t.port q).lock = .held c) : (t.opOf c).holds q = true := by
  have hr' : s.refused = false := by
    cases hs : s.refused with
    | false => rfl
    | true => rw [hf.refused hs] at hr; cases hr
  -- where the lock was held before, its owner is still inside
  have still : (s.op.holds q = true → (t.opOf s.running).holds q = true) → (s.port q).lock = .held c →
      (t.opOf c).holds q = true := by
    intro hrun hl
    have hown := h.lock_owner hr' q c hl
    by_cases hc : c = s.running
    · subst hc
      exact hrun hown
    · rw [hf.opOf_other hc]
      exact hown
  cases hm with
  | same e hheld => exact still (fun hs => hheld.trans hs) (e ▸ hl)
  | write f v e _ ht => rw [e] at hl; exact still (fun _ => ht) hl
  | clear v e hheld => rw [e] at hl; exact still (fun hs => hheld.trans hs) hl
  | acquire _ _ e _ ht => rw [e] at hl; cases hl; exact ht
  | release e => rw [e] at hl; cases hl
  | opened _ e => rw [e] at hl; cases hl
  | released e => rw [e] at hl; cases hl
  | nulled e _ _ hs => rw [e] at hl; exact still (fun hs' => by rw [hs] at hs'; cases hs') hl

/-- A port's event-queue token was there before a micro-step, or it is the fresh one of an `OPEN`
(44_facade.md R221). -/
theorem PortMove.token_given (hf : Frame s t) (hm : PortMove s t q)
    (hs : ∀ k, (s.port q).evq = some k → k < s.nextQueue) {k : Nat} (hk : (t.port q).evq = some k) :
    k < t.nextQueue := by
  have old : (s.port q).evq = some k → k < t.nextQueue := fun hk => (hs k hk).trans_le hf.tokens
  cases hm with
  | same e => exact old (e ▸ hk)
  | write f v e => rw [e] at hk; exact old hk
  | clear v e => rw [e] at hk; exact old hk
  | acquire _ _ e => rw [e] at hk; exact old hk
  | release e => rw [e] at hk; exact old hk
  | opened _ e hq => rw [e] at hk; cases hk; rw [hq]; exact Nat.lt_succ_self _
  | released e => rw [e] at hk; cases hk
  | nulled e => rw [e] at hk; exact old hk

/-- Only the running context moves, and it is past the sub-operation of an `END` only where it held the lock or
was past it already: no lower context holds the lock (44_facade.md R227). -/
theorem Ownership.endingClear_kept (h : Inv s) (hf : Frame s t) (ho : Ownership s t) : endingClear t := by
  obtain ⟨lower, hl⟩ := s.ctxList_eq_cons
  have hlt : t.ctxList = s.running :: lower := by
    unfold State.ctxList at hl ⊢
    rw [hf.stack, hl]
  have hnodup := h.ctxList_nodup
  have hclear := h.ending_clear
  unfold endingClear at hclear ⊢
  rw [hl] at hnodup hclear
  rw [hlt]
  obtain ⟨hnotin, -⟩ := List.nodup_cons.1 hnodup
  have other : ∀ c ∈ lower, c ≠ s.running := fun c hc e => hnotin (e ▸ hc)
  refine List.pairwise_cons.2 ⟨fun c hc q he => ?_, (List.pairwise_cons.1 hclear).2.imp_of_mem ?_⟩
  · rw [hf.opOf_other (other c hc)]
    rcases ho.ending q he with he | hh
    · exact h.not_holds_of_ending he (other c hc)
    · exact Bool.eq_false_iff.2 fun hhc => other c hc (h.holder_unique hhc hh)
  · intro a b ha hb hab
    rw [hf.opOf_other (other a ha), hf.opOf_other (other b hb)]
    exact hab

/-- A micro-step keeps the invariant, by what it leaves alone and what it does to each port. -/
theorem Inv.of_frame_ownership (h : Inv s) (hf : Frame s t) (ho : Ownership s t) : Inv t where
  params_valid := hf.params ▸ h.params_valid
  stack_nodup := hf.stack ▸ h.stack_nodup
  stack_entered := by
    rw [hf.stack, hf.entered]
    exact h.stack_entered
  off_stack_idle := fun n hn => by
    rw [hf.stack] at hn
    rw [hf.opOf_other fun e => hn (State.mem_stack_of_running e.symm)]
    exact h.off_stack_idle n hn
  phases_fit := fun c => by
    rw [hf.params]
    by_cases hc : c = s.running
    · rw [hc]
      exact ho.fits
    · rw [hf.opOf_other hc]
      exact h.phases_fit c
  crit_free := hf.crit h.crit_free
  last_fits := by
    rw [hf.params]
    rcases hf.clock with ⟨-, hlast⟩ | ⟨-, hlast⟩
    · exact hlast ▸ h.last_fits
    · exact hlast ▸ trunc_lt _ _
  regs_fit := fun q => by
    rw [hf.params]
    exact Regs.fit_eq_self.2 (hf.widths h.params_valid (fun q => Regs.fit_eq_self.1 (h.regs_fit q)) q)
  pins_wf := hf.pins h.pins_wf
  lock_owner := fun hr q _ hl => (ho.port q).owner_kept h hf hr hl
  holder_locks := fun q _ hh => ((ho.port q).holder_kept h hf hh).1
  holder_valid := fun q _ hh => ((ho.port q).holder_kept h hf hh).2
  ending_clear := ho.endingClear_kept h hf
  refused_iff := hf.marked h.refused_iff
  tokens_given := fun q _ hk => (ho.port q).token_given hf (h.tokens_given q) hk
  entries_known := fun n k hm => hf.entered ▸ h.entries_known n k (hf.entries _ k hm)

end Discipline

/-! ### Micro-steps and presentations -/

theorem OpState.holds_firstPhase (i : Instr) (q : PortId) : (OpState.run i (firstPhase i)).holds q = false := by
  cases i <;> simp [OpState.holds, firstPhase, Phase.guarded, GPhase.holding]

theorem OpState.ending_firstPhase (i : Instr) (q : PortId) :
    (OpState.run i (firstPhase i)).ending q = false := by
  cases i <;> rfl

/-- A presentation to an idle context keeps the invariant (10_state.md R23). -/
theorem Inv.present {s : State} (h : Inv s) (ho : s.op = .idle) (i : Instr) :
    Inv (s.goto i (firstPhase i)) := by
  refine h.of_frame_ownership (Frame.setOp s _) (.plain (o := .run i (firstPhase i)) (fun _ => rfl) ?_ ?_
    (OpState.holds_firstPhase i) (phaseFits_firstPhase _ _ i) fun q he => ?_)
  · exact State.opOf_setOp_own h.known_running rfl rfl _
  · rw [ho]
    exact fun _ => rfl
  · rw [OpState.ending_firstPhase] at he
    cases he

/-- A raise keeps the invariant: it changes the record of faults only (60_exceptions.md R242). -/
theorem Inv.raise {s : State} (h : Inv s) (cause : FaultCause) : Inv (s.raise cause) :=
  h.of_frame_ownership (Frame.raise s cause) (.unmoved (fun _ => rfl) rfl (h.phases_fit s.running))

/-- Every micro-step keeps the invariant. -/
theorem Inv.of_exec {s t : State} {i : Instr} (h : Inv s) (he : exec i s = .next t) : Inv t := by
  have at_phase : ∀ {s₀ : State} {ph : Phase}, Inv s₀ → s₀.op = .run i ph → ExecResult s₀ i ph t → Inv t :=
    fun h₀ ho hr => h₀.of_frame_ownership hr.frame
      (hr.ownership ho (h₀.phases_fit _) fun q => (Regs.fit_eq_self.1 (h₀.regs_fit q)).intEna)
  obtain ⟨s₀, ph, rfl | ⟨hidle, rfl⟩, ho, hr⟩ := exec_from (s.runningKnown_iff.2 h.known_running) he
  · exact at_phase h ho hr
  · exact at_phase (h.present hidle i) ho hr

/-! ### The other moves -/

/-- The moves still to come do not matter to the invariant. -/
theorem Inv.setMoves {s : State} (h : Inv s) (ms : List Move) : Inv { s with moves := ms } := { h with }

theorem Inv.advance {s : State} (h : Inv s) (k : Nat) : Inv (s.advance k) := { h with }

/-- The UART hardware changes status fields and the transmit signal of one port: lock, handle and token of every
port stay (10_state.md R52). -/
theorem State.uartStep_discipline (s : State) (q q' : PortId) (tx rx set : Nat) (line : Bool) :
    ((s.uartStep q tx rx set line).port q').lock = (s.port q').lock ∧
      ((s.uartStep q tx rx set line).port q').handle = (s.port q').handle ∧
      ((s.uartStep q tx rx set line).port q').evq = (s.port q').evq := by
  unfold State.uartStep
  rw [State.port_setPort]
  split
  · next e => subst e; exact ⟨rfl, rfl, rfl⟩
  · exact ⟨rfl, rfl, rfl⟩

/-- The status fields that the UART hardware writes stay within their widths (10_state.md R38, R52). -/
theorem Frame.uartStep (s : State) (q : PortId) (tx rx set : Nat) (line : Bool) :
    Frame s (s.uartStep q tx rx set line) :=
  Frame.setPort s q _ fun _ h =>
    { h with
      txfifoCnt := trunc_lt _ _
      rxfifoCnt := trunc_lt _ _
      intRaw := setFlags_lt h.intRaw set }

theorem Inv.uartStep {s : State} (h : Inv s) (q : PortId) (tx rx set : Nat) (line : Bool) :
    Inv (s.uartStep q tx rx set line) :=
  have kept := fun q' => s.uartStep_discipline q q' tx rx set line
  { h with
    regs_fit := fun q' => Regs.fit_eq_self.2 ((Frame.uartStep s q tx rx set line).widths h.params_valid
      (fun q => Regs.fit_eq_self.1 (h.regs_fit q)) q')
    lock_owner := fun hr q' c hl => h.lock_owner hr q' c ((kept q').1 ▸ hl)
    holder_locks := fun q' c hh => (kept q').1.trans (h.holder_locks q' c hh)
    holder_valid := fun q' c hh => (kept q').2.1.trans (h.holder_valid q' c hh)
    tokens_given := fun q' k hk => h.tokens_given q' k ((kept q').2.2 ▸ hk) }

/-- The context that an interrupt entry pushes is idle before and after, and every other one is as before. -/
theorem State.opOf_pushIsr (s : State) (k : Cause) (c : Ctx) : (s.pushIsr k).opOf c = s.opOf c := by
  cases c with
  | main => rfl
  | isr n =>
    show (((s.ctxs.isrs ++ [CtxState.fresh])[n]?).getD .fresh).op = ((s.ctxs.isrs[n]?).getD .fresh).op
    rcases Nat.lt_trichotomy n s.ctxs.isrs.length with hn | hn | hn
    · rw [List.getElem?_append_left hn]
    · subst hn
      simp
    · rw [List.getElem?_eq_none (by simp; omega), List.getElem?_eq_none (by omega)]

/-- A context not entered yet is idle. -/
theorem State.opOf_isr_of_length_le {s : State} {n : Nat} (hn : s.ctxs.isrs.length ≤ n) :
    s.opOf (.isr n) = .idle := by
  show ((s.ctxs.isrs[n]?).getD .fresh).op = .idle
  rw [List.getElem?_eq_none hn]
  rfl

/-- Interrupt entry keeps the invariant: the pushed context is new and idle (60_exceptions.md R257). -/
theorem Inv.pushIsr {s : State} (h : Inv s) (k : Cause) : Inv (s.pushIsr k) := by
  have grown : (s.pushIsr k).ctxs.isrs.length = s.ctxs.isrs.length + 1 := List.length_append
  have hop := s.opOf_pushIsr k
  have hnew : s.ctxs.isrs.length ∉ s.stack := fun hm => Nat.lt_irrefl _ (h.stack_entered _ hm)
  exact
    { h with
      stack_nodup := List.nodup_cons.2 ⟨hnew, h.stack_nodup⟩
      stack_entered := fun n hn => by
        rw [grown]
        rcases List.mem_cons.1 hn with rfl | hn
        · exact Nat.lt_succ_self _
        · exact Nat.lt_succ_of_lt (h.stack_entered n hn)
      off_stack_idle := fun n hn => by
        rw [hop]
        exact h.off_stack_idle n fun hm => hn (List.mem_cons_of_mem _ hm)
      phases_fit := fun c => by rw [hop]; exact h.phases_fit c
      lock_owner := fun hr q c hl => by rw [hop]; exact h.lock_owner hr q c hl
      holder_locks := fun q c hh => h.holder_locks q c (hop c ▸ hh)
      holder_valid := fun q c hh => h.holder_valid q c (hop c ▸ hh)
      ending_clear := by
        unfold endingClear
        simp only [hop]
        refine List.pairwise_cons.2 ⟨fun c _ q he => ?_, h.ending_clear⟩
        rw [State.opOf_isr_of_length_le le_rfl] at he
        cases he
      entries_known := fun n k' hm => by
        rw [grown]
        rcases List.mem_append.1 hm with hm | hm
        · exact Nat.lt_succ_of_lt (h.entries_known n k' hm)
        · cases List.mem_singleton.1 hm
          exact Nat.lt_succ_self _ }

/-- A refusal of the running context's operation keeps the invariant: the lock that the operation may have held
stays held, in a run that is refused from then on (60_exceptions.md R242, log entry 16). -/
theorem Inv.refuse {s : State} (h : Inv s) (reason : RefusalReason) : Inv (s.refuse reason) := by
  have hf := Frame.refuse s reason
  have hop := State.opOf_refuse h.known_running reason
  -- the operation of every context ends or stays
  have still : ∀ {c : Ctx} {q : PortId}, ((s.refuse reason).opOf c).holds q = true →
      (s.opOf c).holds q = true := by
    intro c q hh
    rw [hop] at hh
    split at hh
    · cases hh
    · exact hh
  exact
    { h with
      stack_entered := by rw [hf.entered]; exact h.stack_entered
      off_stack_idle := fun n hn => by
        rw [hop]
        split
        · rfl
        · exact h.off_stack_idle n hn
      phases_fit := fun c => by
        rw [hop]
        split
        · rfl
        · exact h.phases_fit c
      lock_owner := fun hr => by cases hr
      holder_locks := fun q c hh => h.holder_locks q c (still hh)
      holder_valid := fun q c hh => h.holder_valid q c (still hh)
      ending_clear := by
        refine List.Pairwise.imp (fun {upper lower} hclear q he => ?_) h.ending_clear
        have he' : (s.opOf upper).ending q = true := by
          rw [hop] at he
          split at he
          · cases he
          · exact he
        exact Bool.eq_false_iff.2 fun hh => Bool.eq_false_iff.1 (hclear q he') (still hh)
      refused_iff := hf.marked h.refused_iff
      entries_known := fun n k hm => by rw [hf.entered]; exact h.entries_known n k hm }

/-- Interrupt exit keeps the invariant: the context that leaves the stack is idle (60_exceptions.md R259). -/
theorem Inv.exitIsr {s : State} (h : Inv s) {n : Nat} {rest : List Nat} (hs : s.stack = n :: rest)
    (ho : s.op = .idle) :
    Inv { s with stack := rest, trace := s.trace ++ [.intExit (.isr n)] } := by
  have hrun : s.running = .isr n := by
    unfold State.running
    rw [hs]
  have hnodup := h.stack_nodup
  have hentered := h.stack_entered
  have hclear := h.ending_clear
  unfold endingClear State.ctxList at hclear
  rw [hs] at hnodup hentered hclear
  exact
    { h with
      stack_nodup := (List.nodup_cons.1 hnodup).2
      stack_entered := fun m hm => hentered m (List.mem_cons_of_mem _ hm)
      off_stack_idle := fun m hm => by
        by_cases hmn : m = n
        · rw [hmn, ← hrun]
          exact ho
        · refine h.off_stack_idle m ?_
          rw [hs]
          exact fun hm' => hm ((List.mem_cons.1 hm').resolve_left hmn)
      ending_clear := (List.pairwise_cons.1 hclear).2
      entries_known := fun m k hm => h.entries_known m k (entry_of_append (e := .intExit (.isr n)) nofun _ _ hm) }

/-- Settles O56: by the one inversion of `step`, each move of each agent keeps the invariant. -/
theorem everyStepKeepsInv : Obligations.EveryStepKeepsInv := by
  intro s t h hstep
  obtain ⟨-, hres⟩ := step_result hstep
  cases hres with
  | stay => exact h
  | micro ms i t _ _ he => exact (h.setMoves ms).of_exec he
  | illegal ms w => exact (h.setMoves ms).raise _
  | present ms w i ho => exact (h.setMoves ms).present ho i
  | uart ms q tx rx set line => exact (h.setMoves ms).uartStep q tx rx set line
  | advance ms k => exact (h.setMoves ms).advance k
  | enter ms k => exact (h.setMoves ms).pushIsr k
  | tooDeep ms k => exact (h.setMoves ms).refuse _
  | exit ms n rest hs ho => exact (h.setMoves ms).exitIsr hs ho

end Sys2Proof.Machine
end

section
/-! The rules of the state apart from the invariant: the reset values (10_state.md R60), the write of `INT_CLR`
(R42), the moves of the UART hardware and of the cycle counter (R52, R53, R30), and the step that runs an operation
(R23). -/

namespace Sys2Proof.Machine

/-! ### The write of `INT_CLR` and the hardware's moves -/

theorem step_moves_cons {s : State} (hf : s.faults = []) (m : Move) (ms : List Move) :
    step { s with moves := m :: ms } = State.take { s with moves := ms } m :=
  step_cons (s := { s with moves := m :: ms }) hf rfl

theorem step_moves_nil {s : State} (hf : s.faults = []) :
    step { s with moves := [] } = State.undriven { s with moves := [] } :=
  step_nil (s := { s with moves := [] }) hf rfl

/-- Settles O34: the operand is within the mask's width, so the flags are cleared by the operand itself. -/
theorem intClrClearsWrittenOnes : Obligations.IntClrClearsWrittenOnes := by
  intro s q v h hv
  have hraw : (s.port q).regs.intRaw < 2 ^ s.params.intW := (Regs.fit_eq_self.1 (h.regs_fit q)).intRaw
  have hstored : storedValue s.params .intClr v = v := trunc_of_lt hv
  rw [State.regWrite_port]
  refine ⟨fun k => ?_, rfl⟩
  show (clearFlags s.params.intW (s.port q).regs.intRaw (storedValue s.params .intClr v)).testBit k = _
  rw [hstored, testBit_clearFlags hraw]

/-- Settles O53: the move is `State.uartStep`, whose flags are the old ones and the ones set. -/
theorem uartHardwareStep : Obligations.UartHardwareStep := by
  intro s q tx rx m line ms hf
  have hport : ((State.uartStep { s with moves := ms } q tx rx m line).port q).regs.intRaw =
      setFlags s.params.intW (s.port q).regs.intRaw m :=
    congrArg (fun x => x.regs.intRaw) (State.port_setPort_self { s with moves := ms } q _)
  refine ⟨State.uartStep { s with moves := ms } q tx rx m line, step_moves_cons hf _ ms, ?_, fun k => ?_⟩
  · rw [hport]
    rfl
  · rw [hport, testBit_setFlags]

/-- Settles O54: `CCOUNT` is the ghost time modulo the period, before and after. -/
theorem counterAdvances : Obligations.CounterAdvances := by
  intro s k ms hf
  refine ⟨State.advance { s with moves := ms } k, step_moves_cons hf _ ms, rfl, ?_⟩
  show (s.timeCyc + k) % 2 ^ s.params.cycW = (s.timeCyc % 2 ^ s.params.cycW + k) % 2 ^ s.params.cycW
  rw [Nat.mod_add_mod]

/-! ### The step that runs an operation -/

theorem State.issue_of_decode {s : State} {w : Command} {i : Instr} (ho : s.op = .idle)
    (hd : decode w = some i) : s.issue w = exec i s := by
  simp [State.issue, ho, hd]

theorem State.present_of_decode {s : State} {w : Command} {i : Instr} (ho : s.op = .idle)
    (hd : decode w = some i) : s.present w = .next (s.goto i (firstPhase i)) := by
  simp [State.present, ho, hd]

theorem State.micro_of_run {s : State} {i : Instr} {ph : Phase} (ho : s.op = .run i ph) :
    s.micro = exec i s := by
  simp [State.micro, ho]

theorem State.undriven_of_run {s : State} {i : Instr} {ph : Phase} (ho : s.op = .run i ph) :
    s.undriven = exec i s := by
  simp [State.undriven, ho]

/-- Settles O7: the step takes the move, and the move is a micro-step of the decoded or running operation. -/
theorem stepRunsTheOperation : Obligations.StepRunsTheOperation := by
  intro s i w ph ms hf
  refine ⟨fun ho hd => ⟨?_, ?_⟩, fun ho => ⟨?_, ?_⟩⟩
  · exact (step_moves_cons hf _ ms).trans (State.issue_of_decode (s := { s with moves := ms }) ho hd)
  · exact (step_moves_cons hf _ ms).trans (State.present_of_decode (s := { s with moves := ms }) ho hd)
  · exact (step_moves_cons hf _ ms).trans (State.micro_of_run (s := { s with moves := ms }) ho)
  · exact (step_moves_nil hf).trans (State.undriven_of_run (s := { s with moves := [] }) ho)

/-! ### Reset -/

section Reset

variable (P : Params) (draw : ResetDraw)

theorem State.resetWith_port (q : PortId) :
    (State.resetWith P draw).port q = Port.atReset draw.regs[q] draw.uTx[q] := by
  match q with
  | 0 => rfl
  | 1 => rfl
  | 2 => rfl

theorem State.resetWith_ctx (c : Ctx) : (State.resetWith P draw).ctxs.get c = .fresh := by
  cases c <;> rfl

theorem State.resetWith_opOf (c : Ctx) : (State.resetWith P draw).opOf c = .idle :=
  congrArg CtxState.op (State.resetWith_ctx P draw c)

theorem State.resetWith_handle (p : PortIndex) : (State.resetWith P draw).handle p = .null := by
  unfold State.handle
  cases portId? p with
  | none => rfl
  | some q => exact congrArg Port.handle (State.resetWith_port P draw q)

/-- Settles O55, port by port and context by context. -/
theorem resetValues : Obligations.ResetValues := by
  intro P draw hfit
  refine ⟨rfl, fun c => ⟨State.resetWith_opOf P draw c, ?_⟩, rfl, rfl, rfl, rfl, trunc_of_lt hfit.ccount_fits,
    rfl, rfl, rfl, rfl, State.resetWith_handle P draw, fun q => ?_, fun q => ?_, rfl, rfl, rfl⟩
  · exact congrArg CtxState.result (State.resetWith_ctx P draw c)
  · rw [State.resetWith_port]
    exact ⟨rfl, rfl⟩
  · rw [State.resetWith_port]
    exact ⟨rfl, rfl⟩

variable {P draw}

/-- The invariant at reset: every context is idle and every lock free (10_state.md R60). -/
theorem Inv.resetWith (hP : P.Valid) (hfit : draw.Fits P) : Inv (State.resetWith P draw) := by
  have no_holder : ∀ q c, ¬ ((State.resetWith P draw).opOf c).holds q = true := fun q c hh =>
    OpState.ne_idle_of_holds hh (State.resetWith_opOf P draw c)
  exact
    { params_valid := hP
      stack_nodup := List.nodup_nil
      stack_entered := nofun
      off_stack_idle := fun n _ => State.resetWith_opOf P draw (.isr n)
      phases_fit := fun c => by rw [State.resetWith_opOf]; rfl
      crit_free := rfl
      last_fits := Nat.two_pow_pos _
      regs_fit := fun q => by rw [State.resetWith_port]; exact hfit.regs_fit q
      pins_wf := hfit.pins_wf
      lock_owner := fun _ q c hl => by rw [State.resetWith_port] at hl; cases hl
      holder_locks := fun q c hh => absurd hh (no_holder q c)
      holder_valid := fun q c hh => absurd hh (no_holder q c)
      ending_clear := List.pairwise_singleton _ _
      refused_iff := rfl
      tokens_given := fun q k hk => by rw [State.resetWith_port] at hk; cases hk
      entries_known := nofun }

/-- The reset state is final (70_reset_and_hazards.md R283). -/
theorem Final.resetWith : Final (State.resetWith P draw) where
  no_fault := rfl
  not_refused := rfl
  only_main := rfl
  main_idle := rfl
  locks_free := fun q => by rw [State.resetWith_port]; rfl
  crit_free := rfl
  no_command := nofun

end Reset

/-- The reference parameters meet 00_scope.md R7. -/
theorem Params.reference_valid : Params.reference.Valid := by decide

theorem Config.platform_valid : Config.platform.Valid := by
  unfold Config.platform
  split
  · assumption
  · exact Params.reference_valid

theorem Regs.fit_zero (P : Params) : Regs.zero.fit P = Regs.zero :=
  Regs.fit_eq_self.2
    { txfifoCnt := Nat.two_pow_pos _, rxfifoCnt := Nat.two_pow_pos _, intRaw := Nat.two_pow_pos _
      intEna := Nat.two_pow_pos _, rs485En := Nat.two_pow_pos _, txdBrkEn := Nat.two_pow_pos _
      brkLen := Nat.two_pow_pos _, idleLen := Nat.two_pow_pos _, stopBits := Nat.two_pow_pos _
      brkDetEn := Nat.two_pow_pos _, brkDetAlias := fun _ => rfl, autobaud := Nat.two_pow_pos _
      rxfifoThrhd := Nat.two_pow_pos _ }

/-- The values that the model names for what reset leaves unspecified fit every platform. -/
theorem ResetDraw.zero_fits (P : Params) : ResetDraw.zero.Fits P where
  ccount_fits := Nat.two_pow_pos _
  regs_fit := fun q => by
    have hzero : ResetDraw.zero.regs[q] = Regs.zero := by
      match q with
      | 0 => rfl
      | 1 => rfl
      | 2 => rfl
    rw [hzero]
    exact Regs.fit_zero P
  pins_wf := rfl

/-- Settles O57, for every draw and then for the model's own. -/
theorem invAtReset : Obligations.InvAtReset :=
  ⟨fun _ _ hP hfit => ⟨.resetWith hP hfit, .resetWith⟩,
    .resetWith Config.platform_valid (ResetDraw.zero_fits _), .resetWith⟩

end Sys2Proof.Machine
end

section
/-! The port locks (20_memory.md R80 to R82, R77): an attempt on a held lock changes nothing, at most one context is
inside a guarded operation on a port, and no step of another agent changes the port's configuration under it. -/

namespace Sys2Proof.Machine

/-! ### A spin on a lock (20_memory.md R80) -/

/-- An attempt on a held lock leaves the operation at its acquire phase in the same state, alone or inside another
operation. -/
theorem guardedStep_spin {s : State} {p : PortIndex} {q : PortId} {c : Ctx} (hp : portId? p = some q)
    (hv : (s.port q).handle = .valid) (hl : (s.port q).lock = .held c) (body : Body)
    (goto : GPhase → State → State) (done : State → State) : guardedStep p body .g1 goto done s = .next s := by
  simp only [guardedStep, State.livePort?_eq_some.2 ⟨hp, hv⟩, State.lockTry_held hl]

theorem portOperand_of_namesPort {i : Instr} {q : PortId} (h : namesPort i q = true) :
    ∃ p, portOperand i = some p ∧ portId? p = some q :=
  Option.bind_eq_some_iff.1 (beq_iff_eq.1 h)

/-- An operation whose table has a body is a guarded operation. -/
theorem guardedOf_of_bodyLength {P : Params} {i : Instr} (h : bodyLength i ≠ 0) :
    ∃ p body, guardedOf P i = some (p, body) := by
  cases i with
  | setRs485Mode | cfgBreakGen | forceTwoStopBits | enableBrkDet | disableBrkDet | disableAllInts | setIntMask
  | clearAllInts => exact ⟨_, _, rfl⟩
  | _ => exact absurd rfl h

/-- A micro-step of an operation that spins on a lock, presented by a context or in place inside `SEND_BREAK` or
`END`, answers the same state. -/
theorem SpinsOnLock.exec_eq {s : State} {q : PortId} (h : SpinsOnLock s q) {i : Instr} {ph : Phase}
    (ho : s.op = .run i ph) : exec i s = .next s := by
  obtain ⟨j, ph', c, ho', hg, hn, hf, hv, hl⟩ := h
  obtain ⟨rfl, rfl⟩ : j = i ∧ ph' = ph := OpState.run.inj (ho'.symm.trans ho)
  obtain ⟨p, hport, hp⟩ := portOperand_of_namesPort hn
  have spin := fun body goto done => guardedStep_spin hp hv hl body goto done
  cases ph' with
  | g x =>
    cases hg
    have hbody : bodyLength j ≠ 0 := fun hb => not_phaseFits_g_of_bodyless hb _ hf
    obtain ⟨p', body, hi⟩ := guardedOf_of_bodyLength (P := s.params) hbody
    obtain rfl : p' = p := Option.some.inj ((bodyLength_guarded hi).2.symm.trans hport)
    rw [exec_guarded hi, operate_run ho]
    simp only [guardedOperation, spin]
  | s2 l x | s9 l x =>
    cases hg
    cases j with
    | sendBreak p' d =>
      cases hport
      exact (operate_run ho).trans (by simp only [breakStep, spin])
    | _ => cases hf
  | e1 x =>
    cases hg
    cases j with
    | endPort p' =>
      cases hport
      exact (operate_run ho).trans (by simp only [endStep, spin])
    | _ => cases hf
  | _ => cases hg

/-- Settles O31: the attempt by the lock's two cases, the spin by induction on the number of micro-steps. -/
theorem lockSpinUnchanged : Obligations.LockSpinUnchanged := by
  intro s q
  refine ⟨fun hl => State.lockTry_free hl, fun c hl => State.lockTry_held hl, fun hs i ph ho n => ?_⟩
  induction n with
  | zero => rfl
  | succ n ih => exact (execTimes_next (hs.exec_eq ho)).trans ih

/-! ### The port under a context's guarded operation (20_memory.md R77, R82; 42_guarded_regops.md R183) -/

/-- Settles O59: the state after the step meets the invariant, where the holder is unique and the handle valid. -/
theorem lockHolderUnique : Obligations.LockHolderUnique := by
  intro s t q c c' h hstep hc hc'
  have ht : Inv t := everyStepKeepsInv s t h hstep
  exact ⟨ht.holder_unique hc hc', ht.holder_valid q c hc⟩

/-- Register values with every configuration field of `r`; the FIFO counts and the flags may differ. -/
def Regs.SameConfig (r r' : Regs) : Prop :=
  r' = { r with txfifoCnt := r'.txfifoCnt, rxfifoCnt := r'.rxfifoCnt, intRaw := r'.intRaw }

/-- What a context inside a guarded operation on a port relies on: the port's lock, handle and configuration. -/
structure Port.SameHeld (x x' : Port) : Prop where
  lock : x'.lock = x.lock
  handle : x'.handle = x.handle
  config : x.regs.SameConfig x'.regs

theorem Port.SameHeld.refl (x : Port) : x.SameHeld x := ⟨rfl, rfl, rfl⟩

/-- Under another context's guarded operation a micro-step writes no configuration field of the port. -/
theorem PortMove.sameHeld {s t : State} {q : PortId} {c : Ctx} (h : Inv s) (hm : PortMove s t q)
    (hc : c ≠ s.running) (hh : (s.opOf c).holds q = true) : (s.port q).SameHeld (t.port q) := by
  obtain ⟨hlock, hhandle⟩ := hm.kept_under_holder h hc hh
  refine ⟨hlock, hhandle, ?_⟩
  cases hm with
  | same e => rw [e]; rfl
  | write _ _ _ hs => exact absurd (h.holder_unique hh hs) hc
  | clear v e => rw [e]; rfl
  | acquire _ _ e => rw [e]; rfl
  | release e => rw [e]; rfl
  | opened hn => rw [h.holder_valid q c hh] at hn; cases hn
  | released e => rw [e]; rfl
  | nulled e => rw [e]; rfl

/-- Every micro-step leaves the port of another context's guarded operation alone. -/
theorem Inv.sameHeld_of_exec {s t : State} {q : PortId} {c : Ctx} {i : Instr} (h : Inv s)
    (he : exec i s = .next t) (hc : c ≠ s.running) (hh : (s.opOf c).holds q = true) :
    (s.port q).SameHeld (t.port q) := by
  have at_phase : ∀ {s₀ : State} {ph : Phase}, Inv s₀ → c ≠ s₀.running → (s₀.opOf c).holds q = true →
      s₀.op = .run i ph → ExecResult s₀ i ph t → (s₀.port q).SameHeld (t.port q) :=
    fun h₀ hc₀ hh₀ ho hr => PortMove.sameHeld h₀
      ((hr.ownership ho (h₀.phases_fit _) fun q => (Regs.fit_eq_self.1 (h₀.regs_fit q)).intEna).port q) hc₀ hh₀
  obtain ⟨s₀, ph, rfl | ⟨hidle, rfl⟩, ho, hr⟩ := exec_from (s.runningKnown_iff.2 h.known_running) he
  · exact at_phase h hc hh ho hr
  · have hother : (s.goto i (firstPhase i)).opOf c = s.opOf c := State.opOf_setOp_ne hc.symm _
    exact at_phase (s₀ := s.goto i (firstPhase i)) (h.present hidle i) hc (hother ▸ hh) ho hr

/-- The UART hardware writes the FIFO counts and the flags of one port (10_state.md R52). -/
theorem State.uartStep_sameHeld (s : State) (q q' : PortId) (tx rx set : Nat) (line : Bool) :
    (s.port q').SameHeld ((s.uartStep q tx rx set line).port q') := by
  unfold State.uartStep
  rw [State.port_setPort]
  split
  · next e => subst e; exact ⟨rfl, rfl, rfl⟩
  · exact .refl _

/-- Every step leaves the port of another context's guarded operation alone. -/
theorem Inv.sameHeld_of_step {s t : State} {q : PortId} {c : Ctx} (h : Inv s) (hstep : step s = .next t)
    (hc : c ≠ s.running) (hh : (s.opOf c).holds q = true) : (s.port q).SameHeld (t.port q) := by
  obtain ⟨-, hres⟩ := step_result hstep
  cases hres with
  | micro ms i t _ _ he => exact (h.setMoves ms).sameHeld_of_exec he hc hh
  | uart ms q' tx rx set line => exact State.uartStep_sameHeld { s with moves := ms } q' q tx rx set line
  | stay | illegal | present | advance | enter | tooDeep | exit => exact .refl _

/-- Settles O35: the context is inside a guarded operation, so it holds the lock under a valid handle, and no step
of another agent takes that away. -/
theorem lockedConfigStable : Obligations.LockedConfigStable := by
  intro s t q c h hheld hc hstep
  have hh : (s.opOf c).holds q = true := hheld.elim id fun ⟨hr, hl⟩ => h.lock_owner hr q c hl
  have hlock := h.holder_locks q c hh
  obtain ⟨lock, handle, config⟩ := h.sameHeld_of_step hstep hc hh
  exact ⟨hlock, lock.trans hlock, handle.trans (h.holder_valid q c hh), config⟩

end Sys2Proof.Machine
end

section
/-! The register block: the write of one field (20_memory.md R74) and the 32-bit accesses of the register map (R71,
R72, R75). -/

namespace Sys2Proof.Machine

open Sys2Proof.Statements

/-! ### The write of one register field (20_memory.md R74) -/

/-- A one-bit value is the truth value of its bit. -/
theorem bitNat_ne_zero_of_lt {v : Nat} (h : v < 2 ^ 1) : bitNat (v != 0) = v := by
  obtain rfl | rfl : v = 0 ∨ v = 1 := by omega
  · rfl
  · rfl

/-- The field a write stores reads back as the operand within the field's width. -/
theorem Regs.read_write_stored {P : Params} {r : Regs} (hr : r.InWidth P) {f : WField} {g : Field}
    (h : stored f = some g) (v : Nat) : (r.write P f v).read P g = v % 2 ^ f.width P := by
  cases f with
  | intClr => cases h
  | brkDetEn =>
    cases h
    show bitNat ((r.setBrkdet P (v % 2 ^ 1 != 0)).brkdet P) = v % 2 ^ 1
    rw [Regs.brkdet_setBrkdet hr.intEna]
    exact bitNat_ne_zero_of_lt (Nat.mod_lt _ (by decide))
  | _ => cases h; rfl

/-- A write of the break-detect enable changes the enable mask or the enable's own field, and nothing else
(10_state.md R46). -/
theorem Regs.read_setBrkdet {P : Params} {g : Field} (hg : g ≠ .intEna) (hg' : g ≠ .brkDetEn) (r : Regs)
    (b : Bool) : (r.setBrkdet P b).read P g = r.read P g := by
  unfold Regs.setBrkdet
  cases g with
  | intEna => exact absurd rfl hg
  | brkDetEn => exact absurd rfl hg'
  | _ => cases P.brkdetAlias <;> rfl

/-- The mask and the break-detect enable share no bit only where the enable is a field of its own (10_state.md
R46). -/
theorem separate_of_not_touches {P : Params} {f : WField} {g : Field} (h : touches P f g = false)
    (hfg : (f = .intEna ∧ g = .brkDetEn) ∨ (f = .brkDetEn ∧ g = .intEna)) : P.brkdetAlias = .separate := by
  cases ha : P.brkdetAlias with
  | separate => rfl
  | inMask => rcases hfg with ⟨rfl, rfl⟩ | ⟨rfl, rfl⟩ <;> simp [touches, ha] at h

/-- A field that shares no bit with what a write changes reads as before. -/
theorem Regs.read_write_of_not_touches {P : Params} {f : WField} {g : Field} (h : touches P f g = false)
    (r : Regs) (v : Nat) : (r.write P f v).read P g = r.read P g := by
  cases f with
  | intEna =>
    cases g with
    | intEna => cases h
    | brkDetEn =>
      have ha := separate_of_not_touches h (.inl ⟨rfl, rfl⟩)
      simp only [Regs.read, Regs.brkdet, ha, Regs.write]
    | _ => rfl
  | brkDetEn =>
    cases g with
    | brkDetEn => cases h
    | intEna =>
      have ha := separate_of_not_touches h (.inr ⟨rfl, rfl⟩)
      simp only [Regs.write, Regs.setBrkdet, ha, Regs.read]
    | _ => exact Regs.read_setBrkdet (by decide) (by decide) r _
  | _ => cases g <;> first | rfl | cases h

/-- The break-detect write leaves every other bit of the enable mask (10_state.md R46). -/
theorem Regs.testBit_intEna_setBrkdet {P : Params} {r : Regs} (hr : r.InWidth P) {k : Nat} (hk : k ≠ P.brkDetBit)
    (b : Bool) : (r.setBrkdet P b).intEna.testBit k = r.intEna.testBit k := by
  unfold Regs.setBrkdet
  cases P.brkdetAlias with
  | inMask => rw [testBit_replaceBit hr.intEna, if_neg hk.symm]
  | separate => rfl

theorem State.regRead_regWrite (s : State) (q : PortId) (f : WField) (v : Nat) (g : Field) :
    (s.regWrite q f v).regRead q g = ((s.port q).regs.write s.params f v).read s.params g := by
  unfold State.regRead
  rw [State.regWrite_port, State.regWrite_params]

/-- Settles O33: each clause is a read of the register block after the write. -/
theorem regWriteChangesOneField : Obligations.RegWriteChangesOneField := by
  intro s q f v h
  have hr : (s.port q).regs.InWidth s.params := Regs.fit_eq_self.1 (h.regs_fit q)
  refine ⟨fun g hg => ?_, fun g hg => ?_, fun k hk hf => ?_, ?_⟩
  · rw [State.regRead_regWrite, Regs.read_write_stored hr hg]
  · rw [State.regRead_regWrite, Regs.read_write_of_not_touches hg]
    rfl
  · subst hf
    rw [State.regRead_regWrite]
    exact Regs.testBit_intEna_setBrkdet hr hk _
  · rw [State.regWrite_port]
    rfl

/-! ### The 32-bit register accesses (20_memory.md R71, R72, R75) -/

section RegisterMap

variable {P : Params}

/-- The rows of each register of the map, by its offset; the break-detect enable is a bit of the register of
`INT_ENA` or has a register of its own (20_memory.md R71). -/
def registerRows (P : Params) : Nat → List MapRow
  | 0x04 => [⟨some .intRaw, none, 0x04, 0, P.intW⟩]
  | 0x0C => ⟨some .intEna, some .intEna, 0x0C, 0, P.intW⟩ ::
    match P.brkdetAlias with
    | .inMask => [⟨some .brkDetEn, some .brkDetEn, 0x0C, P.brkDetBit, 1⟩]
    | .separate => []
  | 0x10 => [⟨none, some .intClr, 0x10, 0, P.intW⟩]
  | 0x18 => [⟨some .autobaud, some .autobaud, 0x18, 0, P.abW⟩]
  | 0x1C => [⟨some .rxfifoCnt, none, 0x1C, 0, 8⟩, ⟨some .txfifoCnt, none, 0x1C, 16, 8⟩]
  | 0x20 => [⟨some .stopBits, some .stopBits, 0x20, 4, 2⟩, ⟨some .txdBrkEn, some .txdBrkEn, 0x20, 8, 1⟩]
  | 0x24 => [⟨some .rxfifoThrhd, some .rxfifoThrhd, 0x24, 0, 7⟩]
  | 0x40 => [⟨some .idleLen, some .idleLen, 0x40, 10, 10⟩, ⟨some .brkLen, some .brkLen, 0x40, 20, 8⟩]
  | 0x44 => [⟨some .rs485En, some .rs485En, 0x44, 0, 1⟩]
  | 0x80 =>
    match P.brkdetAlias with
    | .inMask => []
    | .separate => [⟨some .brkDetEn, some .brkDetEn, 0x80, 0, 1⟩]
  | _ => []

/-- The rows of a register are those of the map with its offset. -/
theorem rowsAt_eq_registerRows (P : Params) (off : Nat) : rowsAt P off = registerRows P off := by
  unfold registerRows
  split
  -- an offset of no register
  case h_11 =>
    unfold rowsAt regMap brkDetRow
    cases P.brkdetAlias <;>
    · simp only [List.filter_eq_nil_iff, List.forall_mem_cons, beq_iff_eq]
      grind
  all_goals
    unfold rowsAt regMap brkDetRow
    cases P.brkdetAlias <;> rfl

/-! A read: each field is put at its bits, and no later field of the register changes them. -/

theorem showsIn_insertBits (off lo bits v : Nat) (w : BitVec 32) :
    (MapField.mk off lo bits v).showsIn (insertBits w lo bits v) := by
  intro k hk h32
  rw [insertBits_getLsbD _ _ _ _ _ h32, if_pos ⟨Nat.le_add_right _ _, Nat.add_lt_add_left hk _⟩,
    Nat.add_sub_cancel_left]

/-- Bits put into a word leave a field that shows in it, where they agree with it on the bits they share. -/
theorem showsIn_insertBits_of_agree {x : MapField} {w : BitVec 32} {lo bits v : Nat} (hx : x.showsIn w)
    (h : ∀ k, k < x.bits → lo ≤ x.lo + k → x.lo + k < lo + bits →
      v.testBit (x.lo + k - lo) = x.value.testBit k) :
    x.showsIn (insertBits w lo bits v) := by
  intro k hk h32
  rw [insertBits_getLsbD _ _ _ _ _ h32]
  split
  · next hin => exact h k hk hin.1 hin.2
  · exact hx k hk h32

theorem showsIn_insertBits_of_le {x : MapField} {w : BitVec 32} {lo : Nat} (hx : x.showsIn w)
    (h : x.lo + x.bits ≤ lo) (bits v : Nat) : x.showsIn (insertBits w lo bits v) :=
  showsIn_insertBits_of_agree hx fun k hk h1 h2 => by omega

/-- Under `in_mask` the break-detect enable is the bit of the mask. -/
theorem Regs.testBit_read_brkDetEn (r : Regs) (ha : P.brkdetAlias = .inMask) :
    (r.read P .brkDetEn).testBit 0 = r.intEna.testBit P.brkDetBit := by
  simp only [Regs.read, Regs.brkdet, ha, flagSet, bitNat]
  cases r.intEna.testBit P.brkDetBit <;> rfl

/-- The break-detect enable of its own reads as it is stored. -/
theorem Regs.read_brkDetEn_separate {r : Regs} (hr : r.InWidth P) (ha : P.brkdetAlias = .separate) :
    r.read P .brkDetEn = r.brkDetEn := by
  simp only [Regs.read, Regs.brkdet, ha]
  exact bitNat_ne_zero_of_lt hr.brkDetEn

/-- Every readable field shows at its bits of its register's word (20_memory.md R71). -/
theorem readMap_showsIn {r : Regs} (hr : r.InWidth P) {x : MapField} (hx : x ∈ readMap P r) (u : BitVec 32) :
    x.showsIn ((rowsAt P x.off).foldl (readRow P r) u) := by
  rw [rowsAt_eq_registerRows]
  simp only [readMap, List.mem_cons, List.not_mem_nil, or_false] at hx
  rcases hx with rfl | rfl | rfl | rfl | rfl | rfl | rfl | rfl | rfl | rfl | rfl | rfl
  -- `INT_RAW`
  · exact showsIn_insertBits _ _ _ _ _
  -- `INT_ENA`
  · simp only [registerRows]
    cases ha : P.brkdetAlias with
    | inMask =>
      refine showsIn_insertBits_of_agree (showsIn_insertBits _ _ _ _ _) fun k hk h1 h2 => ?_
      obtain rfl : k = P.brkDetBit := by simp only at h1 h2; omega
      simpa using r.testBit_read_brkDetEn ha
    | separate => exact showsIn_insertBits _ _ _ _ _
  -- `AUTOBAUD`
  · exact showsIn_insertBits _ _ _ _ _
  -- `RXFIFO_CNT`
  · exact showsIn_insertBits_of_le (showsIn_insertBits _ _ _ _ _) (by simp) _ _
  -- `TXFIFO_CNT`
  · exact showsIn_insertBits _ _ _ _ _
  -- `STOP_BITS`
  · exact showsIn_insertBits_of_le (showsIn_insertBits _ _ _ _ _) (by simp) _ _
  -- `TXD_BRK_EN`
  · exact showsIn_insertBits _ _ _ _ _
  -- `RXFIFO_THRHD`
  · exact showsIn_insertBits _ _ _ _ _
  -- `IDLE_LEN`
  · exact showsIn_insertBits_of_le (showsIn_insertBits _ _ _ _ _) (by simp) _ _
  -- `BRK_LEN`
  · exact showsIn_insertBits _ _ _ _ _
  -- `RS485_EN`
  · exact showsIn_insertBits _ _ _ _ _
  -- `BRK_DET_EN`
  · cases ha : P.brkdetAlias with
    | inMask =>
      simp only [registerRows, ha, ← brkdet_bit r ha]
      exact showsIn_insertBits _ _ _ _ _
    | separate =>
      simp only [registerRows, ha]
      rw [← Regs.read_brkDetEn_separate hr ha]
      exact showsIn_insertBits _ _ _ _ _

/-- A field at the bottom of a word is the word within the field's width. -/
theorem mod_eq_of_showsIn {off bits v : Nat} {w : BitVec 32} (h32 : bits ≤ 32) (hv : v < 2 ^ bits)
    (h : (MapField.mk off 0 bits v).showsIn w) : w.toNat % 2 ^ bits = v := by
  apply Nat.eq_of_testBit_eq
  intro k
  rw [Nat.testBit_mod_two_pow]
  by_cases hk : k < bits
  · have hbit := h k hk (by simp only; omega)
    rw [Nat.zero_add, ← BitVec.testBit_toNat] at hbit
    simpa [hk] using hbit
  · simp [hk, testBit_of_lt hv (Nat.le_of_not_lt hk)]

/-! A write: each field takes its bits of the word. -/

theorem storedValue_fieldBits (f : WField) (w : BitVec 32) (lo bits : Nat) :
    storedValue P f (fieldBits w lo bits) = w.toNat / 2 ^ lo % 2 ^ bits % 2 ^ f.width P := by
  rw [storedValue, fieldBits_eq]
  rfl

/-- The break-detect enable takes one bit of the word. -/
theorem storedValue_brkDetEn_fieldBits (w : BitVec 32) (lo : Nat) :
    (storedValue P .brkDetEn (fieldBits w lo 1) != 0) = w.toNat.testBit lo := by
  rw [storedValue_fieldBits, Nat.testBit_eq_decide_div_mod_eq]
  rcases Nat.mod_two_eq_zero_or_one (w.toNat / 2 ^ lo) with h | h <;> simp [WField.width, h]

/-- A break-detect enable of its own takes the lowest bit of the operand. -/
theorem Regs.write_brkDetEn_separate (ha : P.brkdetAlias = .separate) (r : Regs) (v : Nat) :
    r.write P .brkDetEn v = { r with brkDetEn := v % 2 } := by
  have hv : bitNat (storedValue P .brkDetEn v != 0) = v % 2 := bitNat_ne_zero_of_lt (trunc_lt 1 v)
  simp only [Regs.write, Regs.setBrkdet, ha, hv]

/-- Under `in_mask` a write of a word to the mask and then of the enable's bit of that word is the write to
the mask alone (10_state.md R46). -/
theorem Regs.write_brkDetEn_after_intEna (ha : P.brkdetAlias = .inMask) (hb : P.brkDetBit < P.intW) (r : Regs)
    (w : BitVec 32) :
    Regs.write P { r with intEna := w.toNat % 2 ^ P.intW } .brkDetEn (fieldBits w P.brkDetBit 1) =
      { r with intEna := w.toNat % 2 ^ P.intW } := by
  have hbit : w.toNat.testBit P.brkDetBit = (w.toNat % 2 ^ P.intW).testBit P.brkDetBit := by
    simp [Nat.testBit_mod_two_pow, hb]
  simp only [Regs.write, Regs.setBrkdet, ha]
  rw [storedValue_brkDetEn_fieldBits, hbit, replaceBit_self (Nat.mod_lt _ (Nat.two_pow_pos _))]

/-- What a 32-bit write leaves in the register block, register by register (20_memory.md R72). -/
theorem foldl_writeRow_eq_regsWritten (hb : P.brkDetBit < P.intW) (r : Regs) (off : Nat) (w : BitVec 32) :
    (rowsAt P off).foldl (writeRow P w) r = regsWritten P r off w := by
  rw [rowsAt_eq_registerRows]
  unfold registerRows
  split
  -- the read-only registers, and an offset of no register
  case h_1 | h_5 => rfl
  case h_11 => simp [regsWritten, *]
  -- the register of the enable mask
  case h_2 =>
    have hmask : writeRow P w r ⟨some .intEna, some .intEna, 0x0C, 0, P.intW⟩ =
        { r with intEna := w.toNat % 2 ^ P.intW } := by
      simp [writeRow, Regs.write, storedValue_fieldBits, WField.width]
    rw [List.foldl_cons, hmask]
    cases ha : P.brkdetAlias with
    | inMask => exact Regs.write_brkDetEn_after_intEna ha hb r w
    | separate => rfl
  -- `INT_CLR`
  case h_3 =>
    simp [regsWritten, writeRow, Regs.write, storedValue_fieldBits, WField.width, clearFlags, complement, trunc]
  -- the register of a break-detect enable of its own
  case h_10 =>
    simp only [regsWritten]
    cases ha : P.brkdetAlias with
    | inMask => rfl
    | separate =>
      refine (Regs.write_brkDetEn_separate ha r _).trans ?_
      simp [fieldBits_eq]
  -- the other registers: each field takes its bits
  all_goals simp [regsWritten, writeRow, Regs.write, storedValue_fieldBits, WField.width]

/-- The flags after a write of `INT_CLR` (10_state.md R42). -/
theorem testBit_regsWritten_intClr {r : Regs} (hr : r.InWidth P) (w : BitVec 32) (k : Nat) :
    (regsWritten P r 0x10 w).intRaw.testBit k = (r.intRaw.testBit k && !w.toNat.testBit k) :=
  testBit_clearFlags hr.intRaw w.toNat k

end RegisterMap

section Access

variable {s : State} {q : PortId} {off : Nat}

theorem isRegisterAccess_iff {off size : Nat} : isRegisterAccess off size = true ↔ off % 4 = 0 ∧ size = 4 := by
  simp [isRegisterAccess]

theorem State.memRead_aligned (h : off % 4 = 0) :
    s.memRead q off 4 =
      .ok ((rowsAt s.params off).foldl (readRow s.params (s.port q).regs) (Config.unspecifiedBits s.draws off)) :=
  if_pos (isRegisterAccess_iff.2 ⟨h, rfl⟩)

/-- A read of one whole aligned word shows every readable field of its register (20_memory.md R72). -/
theorem Inv.memRead_showsIn (h : Inv s) (q : PortId) (hoff : off % 4 = 0) :
    ∃ w, s.memRead q off 4 = .ok w ∧
      ∀ x ∈ readMap s.params (s.port q).regs, x.off = off → x.showsIn w := by
  refine ⟨_, State.memRead_aligned hoff, ?_⟩
  rintro x hx rfl
  exact readMap_showsIn (Regs.fit_eq_self.1 (h.regs_fit q)) hx _

/-- A write of one whole aligned word sets the writable fields of its register (20_memory.md R72). -/
theorem State.memWrite_aligned (hb : s.params.brkDetBit < s.params.intW) (h : off % 4 = 0) (w : BitVec 32) :
    s.memWrite q off 4 w =
      .next (s.setPort q { s.port q with regs := regsWritten s.params (s.port q).regs off w }) := by
  rw [← foldl_writeRow_eq_regsWritten hb]
  exact if_pos (isRegisterAccess_iff.2 ⟨h, rfl⟩)

/-- A mask fits a word (00_scope.md R7). -/
theorem Inv.intW_le (h : Inv s) : s.params.intW ≤ 32 := by
  obtain ⟨-, ⟨-, -, hle⟩, -⟩ := h.params_valid
  exact hle

/-- The break-detect bit is a bit of the mask (00_scope.md R7). -/
theorem Inv.brkDetBit_lt (h : Inv s) : s.params.brkDetBit < s.params.intW := by
  obtain ⟨-, -, -, ⟨-, -, hlt⟩, -⟩ := h.params_valid
  exact hlt

/-- Settles O60: an aligned access is the fold over the rows of its register, which puts every readable field at its
bits and sets every writable one from them. -/
theorem registerMapAccess : Obligations.RegisterMapAccess := by
  intro s q h
  have hr : (s.port q).regs.InWidth s.params := Regs.fit_eq_self.1 (h.regs_fit q)
  have hwrite := fun off w (hoff : off % 4 = 0) => State.memWrite_aligned (q := q) h.brkDetBit_lt hoff w
  refine ⟨?_, ?_, fun off => h.memRead_showsIn q, hwrite, fun w => ⟨_, hwrite 0x10 w (by decide), fun k => ?_⟩,
    fun off size hbad => ?_⟩
  · obtain ⟨w, hw, hshows⟩ := h.memRead_showsIn q (off := 0x04) (by decide)
    exact ⟨w, hw, mod_eq_of_showsIn h.intW_le hr.intRaw (hshows _ (by simp [readMap]) rfl)⟩
  · obtain ⟨w, hw, hshows⟩ := h.memRead_showsIn q (off := 0x0C) (by decide)
    exact ⟨w, hw, mod_eq_of_showsIn h.intW_le hr.intEna (hshows _ (by simp [readMap]) rfl)⟩
  · rw [State.port_setPort_self]
    exact testBit_regsWritten_intClr hr w k
  · have hno : ¬ isRegisterAccess off size = true := by
      rw [isRegisterAccess_iff]
      omega
    exact ⟨if_neg hno, fun w => if_neg hno⟩

end Access

end Sys2Proof.Machine
end

section
/-! The command word (30_encoding.md R101 to R107): a row of the opcode map gives the operation whose encoding is the
word that keeps the bits its format leaves open, so decoding and encoding are inverse, and the legal words are those
that match a row of the opcode table. -/

namespace Sys2Proof

open Sys2Proof.Statements

/-! ### Flags and halves of an operand field (30_encoding.md R103) -/

/-- A one-bit operand is read back from its `ARGH`. -/
@[simp] theorem getElem_zero_flagArgh (b : Bool) : (flagArgh b)[0] = b := by
  cases b <;> rfl

/-- An `ARGH` that is 0 above its lowest bit holds a one-bit operand and nothing else. -/
theorem flagArgh_getLsbD_zero {a : BitVec 16} (h : a &&& 0xFFFE = 0) : flagArgh (a.getLsbD 0) = a := by
  rw [show (0xFFFE : BitVec 16) = ~~~1#16 by decide] at h
  apply BitVec.eq_of_getLsbD_eq
  intro k hk
  cases k with
  | zero => simp
  | succ k =>
    have habove : a.getLsbD (k + 1) = false := by
      have hbit := congrArg (fun v => v.getLsbD (k + 1)) h
      simp only [BitVec.getLsbD_and, BitVec.getLsbD_not, BitVec.getLsbD_one] at hbit
      simpa [hk] using hbit
    rw [habove]
    cases a.getLsbD 0 <;> simp [flagArgh]

/-- The two halves of `ARGL` make it up. -/
theorem halves_append (v : BitVec 32) : v.extractLsb' 16 16 ++ v.extractLsb' 0 16 = v :=
  (BitVec.extractLsb'_append_extractLsb'_eq_extractLsb' (by decide)).trans BitVec.extractLsb'_eq_self

/-! ### The bits a format leaves open (30_encoding.md R102) -/

/-- The word of a format with opcode `opc` and, in the bits that the format leaves open, those of `w`. -/
def Format.fill (fmt : Format) (opc : BitVec 8) (w : Command) : Command :=
  match fmt with
  | .formatN => Command.ofFields opc 0 0 0
  | .formatD => Command.ofFields opc 0 0 w.argl
  | .formatP => Command.ofFields opc w.port 0 0
  | .formatPV => Command.ofFields opc w.port 0 w.argl
  | .formatB => Command.ofFields opc w.port (flagArgh (w.argh.getLsbD 0)) w.argl
  | .formatG => Command.ofFields opc w.port (flagArgh (w.argh.getLsbD 0)) 0

theorem and_ones_of_width_8 (a : BitVec 8) : a &&& 0xFF = a := BitVec.and_allOnes
theorem and_ones_of_width_16 (a : BitVec 16) : a &&& 0xFFFF = a := BitVec.and_allOnes
theorem and_ones_of_width_32 (a : BitVec 32) : a &&& 0xFFFFFFFF = a := BitVec.and_allOnes

/-- A word that is 0 in its format's must-be-zero fields is its opcode and the open bits. -/
theorem Format.fill_of_masked {fmt : Format} {w : Command} (h : w &&& fmt.mask = Command.ofFields w.opc 0 0 0) :
    fmt.fill w.opc w = w := by
  refine Eq.trans ?_ (Command.ofFields_fields w)
  rw [← Command.ofFields_fields w] at h
  cases fmt <;>
    simp only [Laws.formatN_mask, Laws.formatD_mask, Laws.formatP_mask, Laws.formatPV_mask, Laws.formatB_mask,
      Laws.formatG_mask, Command.and_ofFields, Command.ofFields_inj, Command.opc_ofFields, and_ones_of_width_8,
      and_ones_of_width_16, and_ones_of_width_32] at h <;>
    obtain ⟨-, hport, hargh, hargl⟩ := h
  case formatN => rw [Format.fill, hport, hargh, hargl]
  case formatD => rw [Format.fill, hport, hargh]
  case formatP => rw [Format.fill, hargh, hargl]
  case formatPV => rw [Format.fill, hargh]
  case formatB => rw [Format.fill, flagArgh_getLsbD_zero hargh]
  case formatG => rw [Format.fill, flagArgh_getLsbD_zero hargh, hargl]

/-- The opcode is inside every mask (30_encoding.md R105). -/
theorem Format.opc_and_mask (fmt : Format) (w : Command) : (w &&& fmt.mask).opc = w.opc := by
  have hmask : fmt.mask.opc = BitVec.allOnes 8 := by cases fmt <;> decide
  calc (w &&& fmt.mask).opc = w.opc &&& fmt.mask.opc := BitVec.extractLsb'_and
    _ = w.opc := by rw [hmask, BitVec.and_allOnes]

/-! ### The rows of the opcode map (30_encoding.md R104) -/

/-- The operation that a row of the opcode map gives has the row's opcode and format, and its encoding keeps the bits
of the word that the format leaves open. -/
theorem opcodeRow_some {o : Nat} {w : Command} {fmt : Format} {i : Instr} (h : opcodeRow o w = some (fmt, i)) :
    i.opcode.toNat = o ∧ i.format = fmt ∧ encode i = fmt.fill i.opcode w := by
  unfold opcodeRow at h
  split at h <;> cases h
  -- `CFG_BREAK_GEN`, whose two lengths are the halves of `ARGL`
  case h_8 =>
    refine ⟨rfl, rfl, ?_⟩
    simp only [encode, halves_append]
    rfl
  all_goals exact ⟨rfl, rfl, rfl⟩

/-- The check of R105 step 4, for the operation that a row gives. -/
theorem wellFormed_iff_of_opcodeRow {o : Nat} {w : Command} {fmt : Format} {i : Instr}
    (h : opcodeRow o w = some (fmt, i)) :
    i.wellFormed = true ↔ ¬ (o = 0x44 ∧ w.argh.getLsbD 0 = false ∧ w.port ≠ 0) := by
  unfold opcodeRow at h
  split at h <;> cases h
  -- `SET_DBG_PORT`
  case h_20 => simp [Instr.wellFormed, or_iff_not_imp_left]
  all_goals simp [Instr.wellFormed]

/-- An operation's opcode selects a row of its format, whatever the other fields. -/
theorem exists_opcodeRow (i : Instr) (w : Command) : ∃ j, opcodeRow i.opcode.toNat w = some (i.format, j) := by
  cases i <;> exact ⟨_, rfl⟩

/-- The row of an operation's opcode reads the operation back from its encoding. -/
theorem opcodeRow_encode (i : Instr) : opcodeRow i.opcode.toNat (encode i) = some (i.format, i) := by
  cases i <;> simp [opcodeRow, encode, Instr.opcode, Instr.format]
  case cfgBreakGen => exact ⟨BitVec.extractLsb'_append_eq_left, BitVec.extractLsb'_append_eq_right⟩

/-- The laws of `EncodeMatchesRow`, for every operation. -/
theorem encodeMatchesRow (i : Instr) : Laws.EncodeMatchesRow.Statement i := by
  cases i with
  | nowMicros => exact Laws.EncodeMatchesRow.nowMicros
  | delayMicros d => exact Laws.EncodeMatchesRow.delayMicros d
  | waitTxfifoEmpty p => exact Laws.EncodeMatchesRow.waitTxfifoEmpty p
  | waitRxfifoEmpty p => exact Laws.EncodeMatchesRow.waitRxfifoEmpty p
  | waitTxDone p => exact Laws.EncodeMatchesRow.waitTxDone p
  | waitTxBrkDone p => exact Laws.EncodeMatchesRow.waitTxBrkDone p
  | setRs485Mode p => exact Laws.EncodeMatchesRow.setRs485Mode p
  | cfgBreakGen p en blen ilen => exact Laws.EncodeMatchesRow.cfgBreakGen p en blen ilen
  | forceTwoStopBits p => exact Laws.EncodeMatchesRow.forceTwoStopBits p
  | enableBrkDet p => exact Laws.EncodeMatchesRow.enableBrkDet p
  | disableBrkDet p => exact Laws.EncodeMatchesRow.disableBrkDet p
  | disableAllInts p => exact Laws.EncodeMatchesRow.disableAllInts p
  | setIntMask p v => exact Laws.EncodeMatchesRow.setIntMask p v
  | clearAllInts p => exact Laws.EncodeMatchesRow.clearAllInts p
  | sendBreak p d => exact Laws.EncodeMatchesRow.sendBreak p d
  | openPort p => exact Laws.EncodeMatchesRow.openPort p
  | setBaud p v => exact Laws.EncodeMatchesRow.setBaud p v
  | endPort p => exact Laws.EncodeMatchesRow.endPort p
  | getDbgPort => exact Laws.EncodeMatchesRow.getDbgPort
  | setDbgPort p valid => exact Laws.EncodeMatchesRow.setDbgPort p valid

theorem opc_encode (i : Instr) : (encode i).opc = i.opcode := by
  rw [← i.format.opc_and_mask, encodeMatchesRow i, Command.opc_ofFields]

/-! ### Decoding (30_encoding.md R105) -/

theorem decode_eq_some_iff_decodeWord {w : Command} {i : Instr} : decode w = some i ↔ decodeWord w = .ok i := by
  unfold decode
  cases decodeWord w <;> simp

/-- A word decodes to an operation exactly when the row of its opcode gives the operation, its must-be-zero fields are
0 and the operation is well-formed. -/
theorem decode_eq_some_iff {w : Command} {i : Instr} :
    decode w = some i ↔ ∃ fmt, opcodeRow w.opc.toNat w = some (fmt, i) ∧
      w &&& fmt.mask = Command.ofFields w.opc 0 0 0 ∧ i.wellFormed = true := by
  rw [decode_eq_some_iff_decodeWord, decodeWord]
  constructor
  · intro h
    split at h
    · cases h
    · next fmt j hrow =>
      split at h
      · next hmask =>
        split at h
        · next hwf => cases h; exact ⟨fmt, hrow, hmask, hwf⟩
        · cases h
      · cases h
  · rintro ⟨fmt, hrow, hmask, hwf⟩
    simp only [hrow, if_pos hmask, if_pos hwf]

/-- A word that decodes carries the opcode of its operation. -/
theorem opc_of_decode {w : Command} {i : Instr} (h : decode w = some i) : w.opc = i.opcode := by
  obtain ⟨_, hrow, -⟩ := decode_eq_some_iff.1 h
  exact (BitVec.eq_of_toNat_eq (opcodeRow_some hrow).1).symm

/-- Settles O1: the opcode selects the operation's row, which reads the operation back, and the encoding is 0 in the
must-be-zero fields. -/
theorem decodeOfEncode : Obligations.DecodeOfEncode := by
  intro i hwf
  refine decode_eq_some_iff.2 ⟨i.format, ?_, ?_, hwf⟩
  · rw [opc_encode]
    exact opcodeRow_encode i
  · rw [opc_encode]
    exact encodeMatchesRow i

/-- Settles O2: the encoding keeps the word's opcode and open bits, and the mask leaves nothing else. -/
theorem encodeOfDecode : Obligations.EncodeOfDecode := by
  intro w i h
  obtain ⟨fmt, hrow, hmask, hwf⟩ := decode_eq_some_iff.1 h
  obtain ⟨-, -, hfill⟩ := opcodeRow_some hrow
  rw [hfill, ← opc_of_decode h]
  exact ⟨Format.fill_of_masked hmask, hwf⟩

/-! ### The opcode table -/

/-- The row of the opcode table for an operation: `match` and `mask` (30_encoding.md R102, R104). -/
def Instr.tableRow (i : Instr) : Command × Command := (Command.ofFields i.opcode 0 0 0, i.format.mask)

theorem Instr.tableRow_mem (i : Instr) : i.tableRow ∈ opcodeRows := by
  cases i <;> simp only [tableRow, Instr.opcode, Instr.format] <;> decide

/-- One operation for each row of the table, in the order of 30_encoding.md R104. -/
def tableOperations : List Instr :=
  [.nowMicros, .delayMicros 0, .waitTxfifoEmpty 0, .waitRxfifoEmpty 0, .waitTxDone 0, .waitTxBrkDone 0,
   .setRs485Mode 0, .disableBreakGen 0, .forceTwoStopBits 0, .enableBrkDet 0, .disableBrkDet 0, .disableAllInts 0,
   .setIntMask 0 0, .clearAllInts 0, .sendBreak 0 0, .openPort 0, .setBaud 0 0, .endPort 0, .getDbgPort, .clrDbgPort]

theorem map_tableRow_tableOperations : tableOperations.map Instr.tableRow = opcodeRows := by
  decide

theorem mem_opcodeRows_iff {r : Command × Command} : r ∈ opcodeRows ↔ ∃ i : Instr, i.tableRow = r := by
  constructor
  · intro hr
    rw [← map_tableRow_tableOperations] at hr
    obtain ⟨i, -, hi⟩ := List.mem_map.1 hr
    exact ⟨i, hi⟩
  · rintro ⟨i, rfl⟩
    exact i.tableRow_mem

/-- A word matches a row of the table exactly when its opcode has a row whose must-be-zero fields are 0 in it. -/
theorem matches_opcodeRows_iff {w : Command} :
    (∃ r ∈ opcodeRows, w &&& r.2 = r.1) ↔
      ∃ fmt i, opcodeRow w.opc.toNat w = some (fmt, i) ∧ w &&& fmt.mask = Command.ofFields w.opc 0 0 0 := by
  constructor
  · rintro ⟨r, hr, hmatch⟩
    obtain ⟨j, rfl⟩ := mem_opcodeRows_iff.1 hr
    have hmask : w &&& j.format.mask = Command.ofFields j.opcode 0 0 0 := hmatch
    have hopc : w.opc = j.opcode := by rw [← j.format.opc_and_mask, hmask, Command.opc_ofFields]
    obtain ⟨i, hi⟩ := exists_opcodeRow j w
    rw [hopc]
    exact ⟨j.format, i, hi, hmask⟩
  · rintro ⟨fmt, i, hrow, hmask⟩
    obtain ⟨hopc, hfmt, -⟩ := opcodeRow_some hrow
    refine ⟨i.tableRow, i.tableRow_mem, ?_⟩
    simp only [Instr.tableRow, hfmt, BitVec.eq_of_toNat_eq hopc, hmask]

/-- Settles O3: a word decodes when it matches the row of its opcode and the row's operation is well-formed, which is
the check on the port. -/
theorem decodeMatchesOpcodeTable : Obligations.DecodeMatchesOpcodeTable := by
  intro w
  have hvalid : w.getLsbD 32 = w.argh.getLsbD 0 := by simp [Command.argh]
  have hopc : w.extractLsb' 56 8 = 0x44 ↔ w.opc.toNat = 0x44 := BitVec.toNat_inj.symm
  rw [Option.isSome_iff_exists, matches_opcodeRows_iff, hvalid, hopc]
  constructor
  · rintro ⟨i, hd⟩
    obtain ⟨fmt, hrow, hmask, hwf⟩ := decode_eq_some_iff.1 hd
    exact ⟨⟨fmt, i, hrow, hmask⟩, (wellFormed_iff_of_opcodeRow hrow).1 hwf⟩
  · rintro ⟨⟨fmt, i, hrow, hmask⟩, hport⟩
    exact ⟨i, decode_eq_some_iff.2 ⟨fmt, hrow, hmask, (wellFormed_iff_of_opcodeRow hrow).2 hport⟩⟩

/-! ### Reserved opcodes (30_encoding.md R107) -/

/-- The opcodes of R104 by family. -/
theorem Instr.opcode_assigned (i : Instr) :
    (0x01 ≤ i.opcode.toNat ∧ i.opcode.toNat ≤ 0x02) ∨ (0x10 ≤ i.opcode.toNat ∧ i.opcode.toNat ≤ 0x13) ∨
      (0x20 ≤ i.opcode.toNat ∧ i.opcode.toNat ≤ 0x27) ∨ i.opcode.toNat = 0x30 ∨
      (0x40 ≤ i.opcode.toNat ∧ i.opcode.toNat ≤ 0x44) := by
  cases i <;> simp [Instr.opcode]

/-- Settles O5: a word that decodes carries an opcode of R104, and none of those is in a reserved range. -/
theorem reservedOpcodesRejected : Obligations.ReservedOpcodesRejected := by
  intro w hreserved
  refine Option.eq_none_iff_forall_ne_some.2 fun i hd => ?_
  have hopc : w.extractLsb' 56 8 = i.opcode := opc_of_decode hd
  have hassigned := i.opcode_assigned
  rw [hopc] at hreserved
  omega

end Sys2Proof
end

section
/-! The presentation of an illegal word (30_encoding.md R108, 60_exceptions.md R242). -/

namespace Sys2Proof.Machine

theorem State.present_of_illegal {s : State} {w : Command} (ho : s.op = .idle) (hd : decode w = none) :
    s.present w = .next (s.raise (.illegalCommand w)) := by
  simp [State.present, ho, hd]

theorem State.issue_of_illegal {s : State} {w : Command} (ho : s.op = .idle) (hd : decode w = none) :
    s.issue w = .next (s.raise (.illegalCommand w)) := by
  simp [State.issue, ho, hd]

/-- The first fault of a run is the whole record. -/
theorem State.raise_of_faultless {s : State} (hf : s.faults = []) (c : FaultCause) :
    s.raise c = { s with faults := [⟨s.running, c⟩] } := by
  rw [State.raise, hf, List.nil_append]

/-- Settles O6: either move raises `IllegalCommand` in the state with the move taken, whose record is empty. -/
theorem illegalCommandRaises : Obligations.IllegalCommandRaises := by
  intro s w ms hf ho hd
  have hraise : State.raise { s with moves := ms } (.illegalCommand w) =
      { s with moves := ms, faults := [⟨s.running, .illegalCommand w⟩] } :=
    State.raise_of_faultless (s := { s with moves := ms }) hf _
  rw [step_moves_cons hf, step_moves_cons hf, ← hraise]
  exact ⟨State.present_of_illegal (s := { s with moves := ms }) ho hd,
    State.issue_of_illegal (s := { s with moves := ms }) ho hd⟩

end Sys2Proof.Machine
end

section
/-! The timer (40_timer.md R130 to R134): the arithmetic of `WRAP_US`, the value of a timer step without its 64-bit
overflow, and the clock against the ghost time. -/

namespace Sys2Proof.Machine

/-! ### The arithmetic of `WRAP_US` (40_timer.md R132) -/

theorem div_le_wrapUs {P : Params} {raw : Nat} (h : raw < 2 ^ P.cycW) : raw / P.cyclesPerUs ≤ wrapUs P :=
  Nat.div_le_div_right (Nat.le_sub_one_of_lt h)

/-- A counter period has at least one cycle more than the whole microseconds of `WRAP_US`. -/
theorem wrapUs_mul_lt (P : Params) : wrapUs P * P.cyclesPerUs < 2 ^ P.cycW :=
  Nat.lt_of_le_pred (Nat.two_pow_pos _) (Nat.div_mul_le_self _ _)

/-- A counter period is at most one microsecond longer than `WRAP_US`. -/
theorem two_pow_le_wrapUs_mul_add {P : Params} (hC : 0 < P.cyclesPerUs) :
    2 ^ P.cycW ≤ wrapUs P * P.cyclesPerUs + P.cyclesPerUs :=
  Nat.le_of_pred_lt (Nat.lt_div_mul_add hC)

/-- Settles O10: the quotient of `WRAP_US` is monotone, and its remainder is below `CYCLES_PER_US`. -/
theorem wrapConstantFacts : Obligations.WrapConstantFacts := by
  intro P hP
  obtain ⟨⟨-, hC, -⟩, -⟩ := hP
  have hlow := wrapUs_mul_lt P
  have hhigh := two_pow_le_wrapUs_mul_add hC
  exact ⟨fun _ h => div_le_wrapUs h, rfl, by omega, by omega, by omega⟩

/-! ### The timer step (40_timer.md R130) -/

/-- Settles O8 by the two laws of the timer step. -/
theorem timerStepEffect : Obligations.TimerStepEffect :=
  fun s => Prod.ext s.now_value s.now_state

theorem State.ccount_lt (s : State) : s.ccount < 2 ^ s.params.cycW := trunc_lt _ _

/-- The value of a timer step is formed from the accumulator that the step leaves. -/
theorem State.now_value_eq (s : State) :
    s.now.1 = s.now.2.tAcc + microsOf (s.ccount / s.params.cyclesPerUs) := rfl

theorem State.toNat_now_le (s : State) :
    s.now.1.toNat ≤ s.now.2.tAcc.toNat + s.ccount / s.params.cyclesPerUs := by
  rw [s.now_value_eq, microsOf, BitVec.toNat_add, BitVec.toNat_ofNat, Nat.add_mod_mod]
  exact Nat.mod_le _ _

/-! Where no 64-bit sum overflows (log entry 25), the accumulator and the value are sums of naturals. -/

theorem toNat_add_microsOf {a : Micros} {n : Nat} (h : a.toNat + n < 2 ^ 64) :
    (a + microsOf n).toNat = a.toNat + n := by
  rw [microsOf, BitVec.toNat_add, BitVec.toNat_ofNat, Nat.add_mod_mod, Nat.mod_eq_of_lt h]

theorem State.toNat_now_tAcc {s : State} (h : s.tAcc.toNat + wrapUs s.params < 2 ^ 64) :
    s.now.2.tAcc.toNat = s.tAcc.toNat + if s.ccount < s.tLast then wrapUs s.params else 0 := by
  rw [State.now_tAcc]
  split
  · exact toNat_add_microsOf h
  · rfl

theorem State.toNat_now {s : State} (h : s.now.2.tAcc.toNat + s.ccount / s.params.cyclesPerUs < 2 ^ 64) :
    s.now.1.toNat = s.now.2.tAcc.toNat + s.ccount / s.params.cyclesPerUs :=
  toNat_add_microsOf h

/-- The value of a timer step in cycles: what it leaves out of the raw value is the rest of a microsecond. -/
theorem State.now_cycles {s : State} (h : s.now.2.tAcc.toNat + wrapUs s.params < 2 ^ 64) :
    s.now.1.toNat * s.params.cyclesPerUs + s.ccount % s.params.cyclesPerUs =
      s.now.2.tAcc.toNat * s.params.cyclesPerUs + s.ccount := by
  rw [State.toNat_now ((Nat.add_le_add_left (div_le_wrapUs s.ccount_lt) _).trans_lt h), Nat.add_mul, Nat.add_assoc,
    Nat.div_add_mod']

/-! ### Two successive timer steps (40_timer.md R133, R134 (c)) -/

/-- The next timer step after the one from `s` is the one from `s'`: the timer state is as the first one left it. -/
structure SampledNext (s s' : State) : Prop where
  params : s'.params = s.params
  last : s'.tLast = s.now.2.tLast
  acc : s'.tAcc = s.now.2.tAcc

theorem SampledNext.advance (s : State) (e : Nat) : SampledNext s (s.now.2.advance e) := ⟨rfl, rfl, rfl⟩

section SampledNext

variable {s s' : State} (h : SampledNext s s')
include h

theorem SampledNext.toNat_tAcc (hfit : s.now.2.tAcc.toNat + wrapUs s.params < 2 ^ 64) :
    s'.now.2.tAcc.toNat = s.now.2.tAcc.toNat + if s'.ccount < s.ccount then wrapUs s.params else 0 := by
  rw [State.toNat_now_tAcc (by rw [h.params, h.acc]; exact hfit), h.params, h.last, h.acc, State.now_tLast]

theorem SampledNext.toNat_now
    (hfit : s.now.2.tAcc.toNat + wrapUs s.params + s'.ccount / s.params.cyclesPerUs < 2 ^ 64) :
    s'.now.1.toNat = s.now.2.tAcc.toNat + (if s'.ccount < s.ccount then wrapUs s.params else 0) +
      s'.ccount / s.params.cyclesPerUs := by
  have hacc := h.toNat_tAcc ((Nat.le_add_right _ _).trans_lt hfit)
  have hle : s'.now.2.tAcc.toNat ≤ s.now.2.tAcc.toNat + wrapUs s.params := by
    rw [hacc]
    split <;> omega
  rw [← hacc, ← h.params]
  exact State.toNat_now ((Nat.add_le_add_right hle _).trans_lt (h.params ▸ hfit))

/-- A raw value below the previous one adds `WRAP_US`, which is no less than the microseconds of any raw value. -/
theorem SampledNext.now_le
    (hfit : s.now.2.tAcc.toNat + wrapUs s.params + s'.ccount / s.params.cyclesPerUs < 2 ^ 64) :
    s.now.1.toNat ≤ s'.now.1.toNat := by
  refine s.toNat_now_le.trans ?_
  rw [h.toNat_now hfit, Nat.add_assoc]
  refine Nat.add_le_add_left ?_ _
  split
  · exact (div_le_wrapUs s.ccount_lt).trans (Nat.le_add_right _ _)
  · next hge => exact (Nat.div_le_div_right (Nat.le_of_not_lt hge)).trans (Nat.le_add_left _ _)

/-- The raw value `e` cycles later, less than a counter period: it is below the previous one exactly where the counter
wrapped. -/
theorem SampledNext.ccount_add {e : Nat} (he : e < 2 ^ s.params.cycW) (ht : s'.timeCyc = s.timeCyc + e) :
    s'.ccount + (if s'.ccount < s.ccount then 2 ^ s.params.cycW else 0) = s.ccount + e := by
  have hlt := s.ccount_lt
  have hmod : s'.ccount = (s.ccount + e) % 2 ^ s.params.cycW := by
    unfold State.ccount trunc
    rw [h.params, ht, Nat.mod_add_mod]
  rcases Nat.lt_or_ge (s.ccount + e) (2 ^ s.params.cycW) with hsum | hsum
  · rw [Nat.mod_eq_of_lt hsum] at hmod
    rw [if_neg (by omega), hmod, Nat.add_zero]
  · rw [Nat.mod_eq_sub_mod hsum, Nat.mod_eq_of_lt (by omega)] at hmod
    rw [if_pos (by omega), hmod, Nat.sub_add_cancel hsum]

/-- The two values in cycles, `e` cycles apart: they differ from `e` by the rests of the raw values' microseconds and,
across a wrap, by what `WRAP_US` leaves out of the period. -/
theorem SampledNext.cycles {e : Nat} (he : e < 2 ^ s.params.cycW) (ht : s'.timeCyc = s.timeCyc + e)
    (hfit : s.now.2.tAcc.toNat + wrapUs s.params + wrapUs s.params < 2 ^ 64) :
    s'.now.1.toNat * s.params.cyclesPerUs + s'.ccount % s.params.cyclesPerUs +
        (if s'.ccount < s.ccount then 2 ^ s.params.cycW - wrapUs s.params * s.params.cyclesPerUs else 0) =
      s.now.1.toNat * s.params.cyclesPerUs + s.ccount % s.params.cyclesPerUs + e := by
  have hnow := State.now_cycles ((Nat.le_add_right _ _).trans_lt hfit)
  have hdiv : s'.ccount / s.params.cyclesPerUs ≤ wrapUs s.params := div_le_wrapUs (h.params ▸ s'.ccount_lt)
  have hnow' := h.toNat_now ((Nat.add_le_add_left hdiv _).trans_lt hfit)
  have hsplit' := Nat.div_add_mod' s'.ccount s.params.cyclesPerUs
  have hraw := s.ccount_lt
  have hraw' := h.ccount_add he ht
  have hwrap := wrapUs_mul_lt s.params
  by_cases hw : s'.ccount < s.ccount
  · rw [if_pos hw] at hraw' hnow' ⊢
    rw [hnow', Nat.add_mul, Nat.add_mul]
    omega
  · rw [if_neg hw] at hraw' hnow' ⊢
    rw [hnow', Nat.add_mul, Nat.add_mul]
    omega

end SampledNext

/-- Settles O11. -/
theorem timerMonotone : Obligations.TimerMonotone := by
  intro s s' _ hp hlast hacc hfit
  exact SampledNext.now_le ⟨hp, hlast, hacc⟩ (hacc ▸ hfit)

/-- Settles O12: the rests are below a microsecond, and `WRAP_US` leaves out between one cycle and a microsecond. -/
theorem timerStepAccuracy : Obligations.TimerStepAccuracy := by
  intro s e hP he hfit v v' C
  have hcycles := (SampledNext.advance s e).cycles he rfl hfit
  obtain ⟨⟨-, hC, -⟩, -⟩ := hP
  have hrest : s.ccount % C < C := Nat.mod_lt _ hC
  have hrest' : (s.now.2.advance e).ccount % C < C := Nat.mod_lt _ hC
  have hlow := wrapUs_mul_lt s.params
  have hhigh := two_pow_le_wrapUs_mul_add hC
  change v' * C + _ % C + _ = v * C + _ % C + e at hcycles
  refine ⟨fun hw => ?_, fun hw => ?_⟩
  · rw [if_pos hw] at hcycles
    omega
  · rw [if_neg hw] at hcycles
    omega

/-! ### The clock against the ghost time (40_timer.md R134 (a)) -/

theorem microsOf_succ_mul (n w : Nat) : microsOf ((n + 1) * w) = microsOf (n * w) + microsOf w := by
  rw [Nat.succ_mul, microsOf, BitVec.ofNat_add]
  rfl

/-- `ClockBehind` speaks of the timer state and the ghost time only, and time may pass. -/
theorem ClockBehind.of_timer {s t : State} (h : ClockBehind s) (hp : t.params = s.params) (hacc : t.tAcc = s.tAcc)
    (hlast : t.tLast = s.tLast) (htime : s.timeCyc ≤ t.timeCyc) : ClockBehind t := by
  obtain ⟨n, hn, hle⟩ := h
  refine ⟨n, ?_, ?_⟩
  · rw [hacc, hp, hn]
  · rw [hp, hlast]
    exact hle.trans htime

/-- A wraparound that the timer step counts is a real one: the ghost time is `TIME_CYC / 2^CYC_W` periods and the raw
value, so a raw value below the previous one lies in a later period. -/
theorem ClockBehind.now {s : State} (h : ClockBehind s) : ClockBehind s.now.2 := by
  obtain ⟨n, hn, hle⟩ := h
  have hsplit : s.timeCyc / 2 ^ s.params.cycW * 2 ^ s.params.cycW + s.ccount = s.timeCyc := Nat.div_add_mod' _ _
  have passed : ∀ m ≤ s.timeCyc / 2 ^ s.params.cycW, m * 2 ^ s.params.cycW + s.ccount ≤ s.timeCyc := fun m hm =>
    (Nat.add_le_add_right (Nat.mul_le_mul_right _ hm) _).trans_eq hsplit
  unfold ClockBehind
  rw [State.now_tAcc, State.now_tLast, State.now_params, State.now_timeCyc]
  split
  · have hlater : n * 2 ^ s.params.cycW < s.timeCyc / 2 ^ s.params.cycW * 2 ^ s.params.cycW := by omega
    exact ⟨n + 1, by rw [microsOf_succ_mul, hn], passed _ (Nat.lt_of_mul_lt_mul_right hlater)⟩
  · exact ⟨n, hn, passed n ((Nat.le_div_iff_mul_le (Nat.two_pow_pos _)).2 (by omega))⟩

theorem ClockBehind.of_frame {s t : State} (h : ClockBehind s) (hf : Frame s t) : ClockBehind t := by
  obtain ⟨hacc, hlast⟩ | ⟨hacc, hlast⟩ := hf.clock
  · exact h.of_timer hf.params hacc hlast hf.time.ge
  · exact h.now.of_timer hf.params hacc hlast hf.time.ge

/-- At reset no wraparound is counted and the previous raw value is 0. -/
theorem ClockBehind.resetWith (P : Params) (draw : ResetDraw) : ClockBehind (State.resetWith P draw) :=
  ⟨0, by rw [Nat.zero_mul]; rfl, by rw [Nat.zero_mul]; exact Nat.zero_le _⟩

/-- Settles O13: only a timer step, which a micro-step can take, changes the timer state, and only the counter's move
changes the ghost time. -/
theorem clockNeverAheadKept : Obligations.ClockNeverAheadKept := by
  refine ⟨fun s t _ h hstep => ?_, ClockBehind.resetWith⟩
  have left : ∀ ms, ClockBehind { s with moves := ms } := fun _ => h.of_timer rfl rfl rfl le_rfl
  obtain ⟨-, hres⟩ := step_result hstep
  cases hres with
  | stay => exact h
  | micro ms i t _ _ he => exact (left ms).of_frame (exec_frame he)
  | illegal ms w => exact (left ms).of_frame (Frame.raise _ _)
  | present ms w i => exact (left ms).of_frame (Frame.setOp _ _)
  | uart ms q tx rx set line => exact (left ms).of_frame (Frame.uartStep _ q tx rx set line)
  | advance ms k => exact h.of_timer rfl rfl rfl (Nat.le_add_right _ _)
  | enter ms k => exact h.of_timer rfl rfl rfl le_rfl
  | tooDeep ms k => exact (left ms).of_frame (Frame.refuse _ _)
  | exit ms n rest => exact h.of_timer rfl rfl rfl le_rfl

end Sys2Proof.Machine
end

section
/-! `NOW_MICROS` and `DELAY_MICROS` (40_timer.md R131, R135, R136): the micro-steps from a ready context and from each
phase of the delay. -/

namespace Sys2Proof.Machine

/-! ### The timer step and the operation state -/

/-- The timer step reads no operation state, and changes none. -/
theorem State.now_setOp (s : State) (o : OpState) : (s.setOp o).now = (s.now.1, s.now.2.setOp o) := rfl

theorem State.now_op (s : State) : s.now.2.op = s.op := rfl

theorem State.ready.known {s : State} (h : s.ready) : s.ctxs.known s.running := s.runningKnown_iff.1 h.1

/-- Presenting an operation and returning a value: the context is idle and has the value in its result latch. -/
theorem State.finish_setResult_setOp {s : State} (h : s.ctxs.known s.running) (o : OpState) (v : Micros) :
    ((s.setOp o).setResult v).finish = { s with ctxs := s.ctxs.set s.running ⟨.idle, some v⟩ } := by
  have hctxs : ((s.setOp o).setResult v).finish.ctxs = s.ctxs.set s.running ⟨.idle, some v⟩ := by
    simp [Ctxs.get_set_self h]
  rw [← hctxs]
  rfl

/-! ### `NOW_MICROS` (40_timer.md R131) -/

theorem exec_nowMicros_ready {s : State} (h : s.ready) :
    exec .nowMicros s = .next { s.now.2 with ctxs := s.ctxs.set s.running ⟨.idle, some s.now.1⟩ } := by
  have hmicro : exec .nowMicros s =
      .next ((s.now.2.setOp (.run .nowMicros .n0)).setResult s.now.1).finish := operate_idle h.2
  rw [hmicro, State.finish_setResult_setOp (s := s.now.2) h.known]
  rfl

/-- Settles O9: the word is the encoding of `NOW_MICROS`. -/
theorem nowMicrosDeliversTimer : Obligations.NowMicrosDeliversTimer :=
  ⟨decodeOfEncode .nowMicros rfl, fun _ h => exec_nowMicros_ready h⟩

/-! ### The micro-steps of `DELAY_MICROS` (40_timer.md R135) -/

section Delay

variable {s : State} {d : BitVec 32}

theorem exec_delayMicros_run {x : DPhase} (h : s.op = .run (.delayMicros d) (.d x)) :
    exec (.delayMicros d) s =
      delayStep (zextDuration d) x (fun x s => s.goto (.delayMicros d) (.d x)) State.finish s :=
  operate_run h

theorem exec_delayMicros_ready (h : s.ready) :
    exec (.delayMicros d) s =
      .next (s.now.2.goto (.delayMicros d) (.d (delayEntry s.now.1 (s.now.1 + zextDuration d)))) := by
  have hstep : exec (.delayMicros d) s =
      .next ((s.now.2.setOp (.run (.delayMicros d) (.d .d0))).goto (.delayMicros d)
        (.d (delayEntry s.now.1 (s.now.1 + zextDuration d)))) := operate_idle h.2
  rw [hstep]
  exact congrArg _ (State.setOp_setOp s.now.2 _ _ h.known)

variable {start target : Micros}

theorem exec_delayMicros_d1 (h : s.op = .run (.delayMicros d) (.d (.d1 start target))) :
    exec (.delayMicros d) s = .next (s.now.2.goto (.delayMicros d)
      (.d (if s.now.1 > target then .d1 start target else .d2 start target))) :=
  exec_delayMicros_run h

theorem exec_delayMicros_d2_reached (h : s.op = .run (.delayMicros d) (.d (.d2 start target)))
    (hv : target ≤ s.now.1) : exec (.delayMicros d) s = .next s.now.2.finish := by
  rw [exec_delayMicros_run h]
  exact congrArg _ (if_pos hv)

/-- Below the target the phase is written again with the same locals. -/
theorem exec_delayMicros_d2_below (h : s.op = .run (.delayMicros d) (.d (.d2 start target)))
    (hv : s.now.1 < target) : exec (.delayMicros d) s = .next s.now.2 := by
  rw [exec_delayMicros_run h]
  refine congrArg _ ((if_neg (BitVec.not_le.2 hv)).trans ?_)
  exact State.setOp_self (s.now_op.trans h)

end Delay

/-- Settles O14, each clause by the micro-step's law. -/
theorem delayMicroSteps : Obligations.DelayMicroSteps := by
  intro s d start target v i
  exact ⟨exec_delayMicros_ready, exec_delayMicros_d1, exec_delayMicros_d2_reached, exec_delayMicros_d2_below⟩

/-! ### A delay of no microseconds (40_timer.md R135 (a)) -/

/-- A second timer step at the same cycle sees no wraparound: it only records the same sample again. -/
theorem State.now_now (s : State) :
    s.now.2.now = (s.now.1, s.now.2.record (.now s.running s.ccount s.now.1)) := by
  have hacc : s.now.2.now.2.tAcc = s.now.2.tAcc := if_neg (Nat.lt_irrefl s.ccount)
  have hval : s.now.2.now.1 = s.now.1 := congrArg (· + microsOf (s.ccount / s.params.cyclesPerUs)) hacc
  refine Prod.ext hval ?_
  rw [State.now_state, ← State.now_value, hval, ← State.now_tAcc, hacc]
  rfl

theorem State.now_goto_now (s : State) (i : Instr) (ph : Phase) :
    (s.now.2.goto i ph).now = (s.now.1, (s.now.2.record (.now s.running s.ccount s.now.1)).goto i ph) := by
  rw [State.goto, State.now_setOp, State.now_now]
  rfl

theorem delayEntry_of_le {start target : Micros} (h : start ≤ target) :
    delayEntry start target = .d2 start target := if_neg (BitVec.not_lt.2 h)

/-- Presenting an operation and returning leaves the ready context as it was. -/
theorem State.finish_goto {s : State} (h : s.ready) (i : Instr) (ph : Phase) : (s.goto i ph).finish = s :=
  (State.setOp_setOp s _ _ h.known).trans (State.setOp_self h.2)

/-- Settles O15: the target is the start, which the second timer step at the same cycle reads again. -/
theorem delayZeroTwoSteps : Obligations.DelayZeroTwoSteps := by
  intro s h
  have htarget : s.now.1 + zextDuration 0 = s.now.1 := BitVec.add_zero _
  have hfirst : exec (.delayMicros 0) s = .next (s.now.2.goto (.delayMicros 0) (.d (.d2 s.now.1 s.now.1))) := by
    rw [exec_delayMicros_ready h, htarget, delayEntry_of_le (BitVec.le_refl _)]
  refine ⟨_, execTimes_next hfirst, ?_⟩
  have hreached : s.now.1 ≤ (s.now.2.goto (.delayMicros 0) (.d (.d2 s.now.1 s.now.1))).now.1 := by
    rw [State.now_goto_now]
    exact BitVec.le_refl _
  rw [exec_delayMicros_d2_reached (State.op_goto (s := s.now.2) h.1 _ _) hreached, State.now_goto_now,
    State.finish_goto (s := s.now.2.record _) h, State.record, State.now_trace, List.append_assoc]
  rfl

/-! ### The minimum duration (40_timer.md R136) -/

/-- A delay at `d2` that returns has reached its target. -/
theorem target_le_of_returns {s t : State} {d : BitVec 32} {start target : Micros}
    (ho : s.op = .run (.delayMicros d) (.d (.d2 start target))) (he : exec (.delayMicros d) s = .next t)
    (ht : t.op = .idle) : target ≤ s.now.1 := by
  refine BitVec.not_lt.1 fun hv => ?_
  rw [exec_delayMicros_d2_below ho hv] at he
  cases he
  rw [State.now_op, ho] at ht
  cases ht

/-- The invariant's table of phases holds the locals of a running delay: its target is its start plus `d`. -/
theorem Inv.delay_target {s : State} {d : BitVec 32} {start target : Micros} (h : Inv s)
    (ho : s.op = .run (.delayMicros d) (.d (.d2 start target))) : target = start + zextDuration d := by
  have hfits := h.phases_fit s.running
  rw [show s.opOf s.running = _ from ho] at hfits
  exact of_decide_eq_true hfits

theorem toNat_zextDuration (d : BitVec 32) : (zextDuration d).toNat = d.toNat :=
  BitVec.toNat_setWidth_of_le (by decide)

/-- Settles O16: the delay returns at its target, which is its start plus `d`. -/
theorem delayMinimumDuration : Obligations.DelayMinimumDuration := by
  intro s t d start target h ho he ht
  have hle := target_le_of_returns ho he ht
  rw [h.delay_target ho] at hle
  refine ⟨hle, fun hfit => ?_⟩
  have hsum : (start + zextDuration d).toNat = start.toNat + d.toNat := by
    rw [BitVec.toNat_add, toNat_zextDuration, Nat.mod_eq_of_lt hfit]
  have := BitVec.le_def.1 hle
  omega

end Sys2Proof.Machine
end

section
/-! The four waits (41_spinwait.md R150 to R159): the micro-steps of a wait by its form, the completion of a wait whose
condition holds, and the turn of one whose condition does not. -/

namespace Sys2Proof.Machine

open Sys2Proof.Statements

/-! ### The rows of the table and the forms of the model -/

/-- The form of the model is the wait that a row of the spec's table speaks of. -/
structure WaitForm.Meets (form : WaitForm) (P : Params) (row : WaitRow) : Prop where
  latch : form.latch = row.latch
  condition (r : Regs) : form.sat (r.read P form.field) = row.sat r

/-- Each row of the table is a wait of the model, on the same port (R153 to R156). -/
theorem exists_waitOf_of_mem_waitTable {P : Params} {p : PortIndex} {row : WaitRow} (h : row ∈ waitTable P p) :
    ∃ form, waitOf P row.instr = some (p, form) ∧ form.Meets P row := by
  simp only [waitTable, List.mem_cons, List.not_mem_nil, or_false] at h
  obtain rfl | rfl | rfl | rfl := h <;> exact ⟨_, rfl, rfl, fun _ => rfl⟩

/-- A wait with a latch ends on that latch (R155, R156). -/
theorem sat_eq_testBit_of_latch {P : Params} {p : PortIndex} {row : WaitRow} {b : Nat} (h : row ∈ waitTable P p)
    (hb : row.latch = some b) (r : Regs) : row.sat r = r.intRaw.testBit b := by
  simp only [waitTable, List.mem_cons, List.not_mem_nil, or_false] at h
  obtain rfl | rfl | rfl | rfl := h <;> cases hb <;> rfl

theorem firstPhase_wait {i : Instr} {P : Params} {p : PortIndex} {form : WaitForm}
    (h : waitOf P i = some (p, form)) : firstPhase i = .w .w0 := by
  cases i with
  | waitTxfifoEmpty | waitRxfifoEmpty | waitTxDone | waitTxBrkDone => rfl
  | _ => cases h

/-- An index from `NPORTS` up has a null handle (10_state.md R35). -/
theorem State.handle_of_nports_le {p : PortIndex} (h : nports ≤ p.toNat) (s : State) : s.handle p = .null := by
  have hp : portId? p = none := dif_neg (Nat.not_lt.2 h)
  simp only [State.handle, hp]

theorem State.isOpen.livePort? {s : State} {p : PortIndex} {q : PortId} (h : s.isOpen p q) :
    s.livePort? p = some q := State.livePort?_eq_some.2 h

/-- Of two changes of phase the second stays. -/
theorem State.goto_goto {s : State} (h : s.ctxs.known s.running) (i j : Instr) (ph ph' : Phase) :
    (s.goto i ph).goto j ph' = s.goto j ph' := State.setOp_setOp s _ _ h

/-! ### The micro-steps of a wait (R150) -/

section MicroSteps

variable {s : State} {i : Instr} {p : PortIndex} {q : PortId} {form : WaitForm}

theorem exec_wait_run {x : WPhase} (hi : waitOf s.params i = some (p, form)) (ho : s.op = .run i (.w x)) :
    exec i s = waitStep i p form x s := (exec_wait hi).trans (operate_run ho)

theorem exec_wait_ready (hi : waitOf s.params i = some (p, form)) (h : s.ready) :
    exec i s = waitStep i p form .w0 (s.goto i (.w .w0)) := by
  rw [exec_wait hi, operate_idle h.2, firstPhase_wait hi]
  rfl

/-- The null-port guard (R151). -/
theorem exec_wait_w0_null (hi : waitOf s.params i = some (p, form)) (h : s.ready) (hn : s.handle p = .null) :
    exec i s = .next s := by
  have hdead : (s.goto i (.w .w0)).livePort? p = none := State.livePort?_eq_none.2 hn
  rw [exec_wait_ready hi h]
  simp only [waitStep, hdead]
  rw [State.finish_goto h]

theorem exec_wait_w0_open (hi : waitOf s.params i = some (p, form)) (h : s.ready) (hq : s.isOpen p q) :
    exec i s = .next (s.goto i (.w .w1)) := by
  have hlive : (s.goto i (.w .w0)).livePort? p = some q := hq.livePort?
  rw [exec_wait_ready hi h]
  simp only [waitStep, hlive]
  rw [State.goto_goto h.known]

theorem exec_wait_w1_null (hi : waitOf s.params i = some (p, form)) (ho : s.op = .run i (.w .w1))
    (hn : s.handle p = .null) : exec i s = .next (s.raise (.stalePort p)) := by
  rw [exec_wait_run hi ho]
  simp only [waitStep, State.livePort?_eq_none.2 hn]

theorem exec_wait_w1_satisfied (hi : waitOf s.params i = some (p, form)) (ho : s.op = .run i (.w .w1))
    (hq : s.isOpen p q) (hsat : form.sat (s.regRead q form.field) = true) :
    exec i s = .next (s.setOp (if form.latch.isSome then .run i (.w .w4) else .idle)) := by
  rw [exec_wait_run hi ho]
  simp only [waitStep, hq.livePort?, hsat, if_true]
  cases form.latch <;> rfl

theorem exec_wait_w1_unsatisfied (hi : waitOf s.params i = some (p, form)) (ho : s.op = .run i (.w .w1))
    (hq : s.isOpen p q) (hsat : form.sat (s.regRead q form.field) = false) :
    exec i s = .next (s.goto i (.w .w2)) := by
  rw [exec_wait_run hi ho]
  simp only [waitStep, hq.livePort?, hsat, Bool.false_eq_true, if_false]

theorem exec_wait_w2 (hi : waitOf s.params i = some (p, form)) (ho : s.op = .run i (.w .w2)) :
    exec i s = .next (s.wdtFeed.goto i (.w .w3)) := exec_wait_run hi ho

theorem exec_wait_w3 (hi : waitOf s.params i = some (p, form)) (ho : s.op = .run i (.w .w3)) :
    exec i s = .next (s.yield.goto i (.w .w1)) := exec_wait_run hi ho

theorem exec_wait_w4 {b : Nat} (hi : waitOf s.params i = some (p, form)) (ho : s.op = .run i (.w .w4))
    (hb : form.latch = some b) (hp : portId? p = some q) :
    exec i s = .next (s.regWrite q .intClr (bitMask b)).finish := by
  rw [exec_wait_run hi ho]
  simp only [waitStep, hb, withPort_some hp]

end MicroSteps

/-- Settles O18, each clause by the micro-step's law. -/
theorem waitMicroSteps : Obligations.WaitMicroSteps := by
  intro s p q row hrow i
  obtain ⟨form, hi, hform⟩ := exists_waitOf_of_mem_waitTable hrow
  have hsat : form.sat (s.regRead q form.field) = row.sat (s.port q).regs := hform.condition _
  rw [← hsat, ← hform.latch]
  exact ⟨exec_wait_w0_open hi, exec_wait_w1_null hi, exec_wait_w1_satisfied hi, exec_wait_w1_unsatisfied hi,
    exec_wait_w2 hi, exec_wait_w3 hi, fun _ hb ho hp => exec_wait_w4 hi ho hb hp⟩

/-- Settles O17: at a null handle the first micro-step returns from the context it has just entered. -/
theorem waitNullPortReturns : Obligations.WaitNullPortReturns := by
  intro s p h hp row hrow
  obtain ⟨form, hi, _⟩ := exists_waitOf_of_mem_waitTable hrow
  have hn : s.handle p = .null := hp.elim id fun hle => State.handle_of_nports_le hle s
  exact exec_wait_w0_null hi h hn

/-! ### A satisfied wait completes (R153 to R156) -/

section Completes

variable {s : State} {i : Instr} {p : PortIndex} {q : PortId} {form : WaitForm}

/-- A wait presented on an open port with its condition true ends at the first poll, or goes on to acknowledge its
latch. -/
theorem exec_wait_first_poll (hi : waitOf s.params i = some (p, form)) (h : s.ready) (hq : s.isOpen p q)
    (hsat : form.sat (s.regRead q form.field) = true) :
    exec i (s.goto i (.w .w1)) = .next (s.setOp (if form.latch.isSome then .run i (.w .w4) else .idle)) := by
  have hpoll := exec_wait_w1_satisfied (s := s.goto i (.w .w1)) hi (State.op_goto h.1 _ _) hq hsat
  rw [hpoll]
  exact congrArg _ (State.setOp_setOp s _ _ h.known)

/-- Without a latch a satisfied wait returns at its second micro-step and changes nothing. -/
theorem wait_completes_unlatched (hi : waitOf s.params i = some (p, form)) (h : s.ready) (hq : s.isOpen p q)
    (hsat : form.sat (s.regRead q form.field) = true) (hl : form.latch = none) :
    ∃ u, execTimes 1 i s = .next u ∧ exec i u = .next s := by
  refine ⟨_, execTimes_next (exec_wait_w0_open hi h hq), ?_⟩
  rw [exec_wait_first_poll hi h hq hsat, hl]
  exact congrArg _ (State.setOp_self h.2)

/-- With a latch it returns at its third micro-step, and the write of `INT_CLR` is its whole effect. -/
theorem wait_completes_latched {b : Nat} (hi : waitOf s.params i = some (p, form)) (h : s.ready)
    (hq : s.isOpen p q) (hsat : form.sat (s.regRead q form.field) = true) (hl : form.latch = some b) :
    ∃ u, execTimes 2 i s = .next u ∧ exec i u = .next (s.regWrite q .intClr (bitMask b)) := by
  have hpoll : exec i (s.goto i (.w .w1)) = .next (s.goto i (.w .w4)) := by
    rw [exec_wait_first_poll hi h hq hsat, hl]
    rfl
  refine ⟨_, (execTimes_next (exec_wait_w0_open hi h hq)).trans (execTimes_next hpoll), ?_⟩
  rw [exec_wait_w4 (s := s.goto i (.w .w4)) hi (State.op_goto h.1 _ _) hl hq.1]
  exact congrArg _ (State.finish_goto (s := s.regWrite q .intClr (bitMask b)) h _ _)

end Completes

/-- Settles O19: a FIFO wait has no latch. -/
theorem waitFifoEmptyCompletes : Obligations.WaitFifoEmptyCompletes := by
  intro s p q h hq
  exact ⟨fun hcnt => wait_completes_unlatched rfl h hq (beq_iff_eq.2 hcnt) rfl,
    fun hcnt => wait_completes_unlatched rfl h hq (beq_iff_eq.2 hcnt) rfl⟩

/-! ### The acknowledgement of a latch (R155, R156; 10_state.md R42) -/

/-- Taking away a power of two whose bit is set clears that bit and no other. -/
theorem testBit_sub_two_pow {a b : Nat} (h : a.testBit b = true) (k : Nat) :
    (a - 2 ^ b).testBit k = (a.testBit k && !decide (b = k)) := by
  induction b generalizing a k with
  | zero =>
    have hodd : a % 2 = 1 := by simpa using h
    cases k with
    | zero => simp; omega
    | succ k =>
      have hhalf : (a - 1) / 2 = a / 2 := by omega
      simp [Nat.testBit_succ, hhalf]
  | succ b ih =>
    have hge := Nat.ge_two_pow_of_testBit h
    rw [Nat.testBit_succ] at h
    cases k with
    | zero => simp; omega
    | succ k =>
      have hhalf : (a - 2 ^ (b + 1)) / 2 = a / 2 - 2 ^ b := by omega
      rw [Nat.testBit_succ, hhalf, ih h, Nat.testBit_succ]
      simp

/-- Writing one set flag to `INT_CLR` takes its bit away from `INT_RAW`. -/
theorem clearFlags_bitMask {n raw b : Nat} (hraw : raw < 2 ^ n) (hb : raw.testBit b = true) :
    clearFlags n raw (bitMask b) = raw - 2 ^ b := by
  refine Nat.eq_of_testBit_eq fun k => ?_
  rw [testBit_clearFlags hraw, testBit_bitMask, testBit_sub_two_pow hb]

/-- A flag that is set is one of the mask's bits, so the one-bit operand is stored whole. -/
theorem storedValue_intClr_bitMask {P : Params} {raw b : Nat} (hraw : raw < 2 ^ P.intW)
    (hb : raw.testBit b = true) : storedValue P .intClr (bitMask b) = 2 ^ b := by
  have hlt : b < P.intW := by
    refine Nat.lt_of_not_le fun hle => ?_
    rw [testBit_of_lt hraw hle] at hb
    cases hb
  exact (trunc_of_lt (bitMask_lt hlt)).trans (Nat.one_shiftLeft b)

/-- The state after a set latch is acknowledged. -/
theorem Inv.regWrite_intClr_bitMask {s : State} {q : PortId} {b : Nat} (h : Inv s)
    (hb : (s.port q).regs.intRaw.testBit b = true) :
    s.regWrite q .intClr (bitMask b) = { s with
      ports := s.ports.set q { s.port q with
        regs := { (s.port q).regs with intRaw := (s.port q).regs.intRaw - 2 ^ b } }
      trace := s.trace ++ [.regW q .intClr (2 ^ b)] } := by
  have hraw : (s.port q).regs.intRaw < 2 ^ s.params.intW := (Regs.fit_eq_self.1 (h.regs_fit q)).intRaw
  have hstored := storedValue_intClr_bitMask hraw hb
  have hclear : clearFlags s.params.intW (s.port q).regs.intRaw (2 ^ b) = (s.port q).regs.intRaw - 2 ^ b := by
    rw [← clearFlags_bitMask hraw hb, bitMask, Nat.one_shiftLeft]
  rw [← hclear, ← hstored]
  rfl

/-- Settles O20: the wait's whole effect is the write of its one set latch to `INT_CLR`. -/
theorem waitLatchClears : Obligations.WaitLatchClears := by
  intro s p q hinv h hq row hrow b hb hset
  obtain ⟨form, hi, hform⟩ := exists_waitOf_of_mem_waitTable hrow
  have hl : form.latch = some b := hform.latch.trans hb
  have hsat : form.sat (s.regRead q form.field) = true :=
    (hform.condition _).trans ((sat_eq_testBit_of_latch hrow hb _).trans hset)
  rw [← hinv.regWrite_intClr_bitMask hset]
  exact wait_completes_latched hi h hq hsat hl

/-! ### An unsatisfied turn (R150, R159) -/

/-- Settles O21: the poll, the feed and the yield change the phase, and the yield brings back the poll's. -/
theorem waitUnsatisfiedTurn : Obligations.WaitUnsatisfiedTurn := by
  intro s p q hq row hrow hsat ho
  obtain ⟨form, hi, hform⟩ := exists_waitOf_of_mem_waitTable hrow
  have hk := State.known_of_op ho
  have hpoll := exec_wait_w1_unsatisfied hi ho hq ((hform.condition _).trans hsat)
  have hfeed : exec row.instr (s.goto row.instr (.w .w2)) = .next (s.wdtFeed.goto row.instr (.w .w3)) := by
    rw [exec_wait_w2 (s := s.goto row.instr (.w .w2)) hi (State.op_setOp hk _)]
    exact congrArg _ (State.goto_goto (s := s.wdtFeed) hk _ _ _ _)
  have hyield : exec row.instr (s.wdtFeed.goto row.instr (.w .w3)) = .next s.wdtFeed.yield := by
    rw [exec_wait_w3 (s := s.wdtFeed.goto row.instr (.w .w3)) hi (State.op_setOp (s := s.wdtFeed) hk _)]
    refine congrArg _ ((State.goto_goto (s := s.wdtFeed.yield) hk _ _ _ _).trans ?_)
    exact State.setOp_self (s := s.wdtFeed.yield) ho
  calc execTimes 3 row.instr s
      = .next s.wdtFeed.yield := by rw [execTimes_next hpoll, execTimes_next hfeed, execTimes_next hyield]; rfl
    _ = _ := by rw [State.yield, State.record, State.wdtFeed_trace, List.append_assoc]; rfl

end Sys2Proof.Machine
end

section
/-! The eight guarded operations (42_guarded_regops.md R170 to R182): the micro-steps of a guarded operation by its
body, the completion of one that finds the lock free, and what each body leaves in the register block. -/

namespace Sys2Proof.Machine

open Sys2Proof.Statements

/-! ### The rows of the table and the bodies of the model -/

/-- Each row of the table is a guarded operation of the model, on the same port with the same writes (R174 to
R181). -/
theorem guardedOf_of_mem_guardedTable {P : Params} {p : PortIndex} {en : Bool} {blen ilen : BitVec 16}
    {v : BitVec 32} {row : Instr × Body} (h : row ∈ guardedTable P p en blen ilen v) :
    guardedOf P row.1 = some (p, row.2) := by
  simp only [guardedTable, List.mem_cons, List.not_mem_nil, or_false] at h
  obtain rfl | rfl | rfl | rfl | rfl | rfl | rfl | rfl := h <;> rfl

/-- A body has one to three writes (R174 to R181), as many as there are body phases (R170). -/
theorem length_body_of_guardedOf {i : Instr} {P : Params} {p : PortIndex} {body : Body}
    (h : guardedOf P i = some (p, body)) : 0 < body.length ∧ body.length ≤ 3 := by
  cases i with
  | setRs485Mode | cfgBreakGen | forceTwoStopBits | enableBrkDet | disableBrkDet | disableAllInts | setIntMask
  | clearAllInts => cases h; exact ⟨Nat.succ_pos _, Nat.le_of_ble_eq_true rfl⟩
  | _ => cases h

theorem firstPhase_guarded {i : Instr} {P : Params} {p : PortIndex} {body : Body}
    (h : guardedOf P i = some (p, body)) : firstPhase i = .g .g0 := by
  cases i with
  | setRs485Mode | cfgBreakGen | forceTwoStopBits | enableBrkDet | disableBrkDet | disableAllInts | setIntMask
  | clearAllInts => rfl
  | _ => cases h

/-- The statements' phase of a write is the model's, for the three writes a body can have. -/
theorem bodyPhase_eq_body {k : Nat} (h : k < 3) : bodyPhase k = GPhase.body k := by
  obtain rfl | rfl | rfl : k = 0 ∨ k = 1 ∨ k = 2 := by omega
  · rfl
  · rfl
  · rfl

theorem afterBody_eq_bodyPhase {body : Body} (h : body.length ≤ 3) (k : Nat) :
    GPhase.afterBody body k = if k + 1 < body.length then bodyPhase (k + 1) else .gR := by
  unfold GPhase.afterBody
  split
  · next hk => rw [bodyPhase_eq_body (by omega)]
  · rfl

/-- At each of the three body phases the micro-step is the write of that number. -/
theorem guardedStep_body {k : Nat} (h : k < 3) (p : PortIndex) (body : Body) (goto : GPhase → State → State)
    (done : State → State) (s : State) :
    guardedStep p body (GPhase.body k) goto done s = bodyStep p body k goto s := by
  obtain rfl | rfl | rfl : k = 0 ∨ k = 1 ∨ k = 2 := by omega
  · rfl
  · rfl
  · rfl

/-! ### The micro-steps of a guarded operation (R170) -/

section MicroSteps

variable {s : State} {i : Instr} {p : PortIndex} {q : PortId} {body : Body}

theorem exec_guarded_run {x : GPhase} (hi : guardedOf s.params i = some (p, body)) (ho : s.op = .run i (.g x)) :
    exec i s = guardedStep p body x (fun x s => s.goto i (.g x)) State.finish s :=
  (exec_guarded hi).trans (operate_run ho)

theorem exec_guarded_ready (hi : guardedOf s.params i = some (p, body)) (h : s.ready) :
    exec i s = guardedStep p body .g0 (fun x s => s.goto i (.g x)) State.finish (s.goto i (.g .g0)) := by
  rw [exec_guarded hi, operate_idle h.2, firstPhase_guarded hi]
  rfl

theorem exec_guarded_g0_null (hi : guardedOf s.params i = some (p, body)) (h : s.ready) (hn : s.handle p = .null) :
    exec i s = .next ((s.raise (.nullPort p)).goto i (.g .g0)) := by
  have hdead : (s.goto i (.g .g0)).livePort? p = none := State.livePort?_eq_none.2 hn
  rw [exec_guarded_ready hi h]
  simp only [guardedStep, hdead]
  rfl

theorem exec_guarded_g0_open (hi : guardedOf s.params i = some (p, body)) (h : s.ready) (hq : s.isOpen p q) :
    exec i s = .next (s.goto i (.g .g1)) := by
  have hlive : (s.goto i (.g .g0)).livePort? p = some q := hq.livePort?
  rw [exec_guarded_ready hi h]
  simp only [guardedStep, hlive]
  rw [State.goto_goto h.known]

theorem exec_guarded_g1_null (hi : guardedOf s.params i = some (p, body)) (ho : s.op = .run i (.g .g1))
    (hn : s.handle p = .null) : exec i s = .next (s.raise (.stalePort p)) := by
  rw [exec_guarded_run hi ho]
  simp only [guardedStep, State.livePort?_eq_none.2 hn]

theorem exec_guarded_g1_free (hi : guardedOf s.params i = some (p, body)) (ho : s.op = .run i (.g .g1))
    (hq : s.isOpen p q) (hl : (s.port q).lock = .free) :
    exec i s = .next ((s.acquired q).goto i (.g .b1)) := by
  rw [exec_guarded_run hi ho]
  simp only [guardedStep, hq.livePort?, State.lockTry_free hl]
  rfl

theorem exec_guarded_g1_held {c : Ctx} (hi : guardedOf s.params i = some (p, body)) (ho : s.op = .run i (.g .g1))
    (hq : s.isOpen p q) (hl : (s.port q).lock = .held c) : exec i s = .next s := by
  rw [exec_guarded_run hi ho, guardedStep_spin hq.1 hq.2 hl]

theorem exec_guarded_body {k v : Nat} {f : WField} (hi : guardedOf s.params i = some (p, body))
    (hb : body[k]? = some (f, v)) (ho : s.op = .run i (.g (GPhase.body k))) (hp : portId? p = some q) :
    exec i s = .next ((s.regWrite q f v).goto i (.g (GPhase.afterBody body k))) := by
  obtain ⟨hk, _⟩ := List.getElem?_eq_some_iff.1 hb
  have hk3 : k < 3 := Nat.lt_of_lt_of_le hk (length_body_of_guardedOf hi).2
  rw [exec_guarded_run hi ho, guardedStep_body hk3]
  simp only [bodyStep, hb, withPort_some hp]

theorem exec_guarded_gR (hi : guardedOf s.params i = some (p, body)) (ho : s.op = .run i (.g .gR))
    (hp : portId? p = some q) : exec i s = .next (s.unlock q).finish :=
  (exec_guarded_run hi ho).trans (withPort_some hp _)

end MicroSteps

/-- Settles O22, each clause by the micro-step's law. -/
theorem guardedMicroSteps : Obligations.GuardedMicroSteps := by
  intro s p q en blen ilen v row hrow i
  have hi : guardedOf s.params i = some (p, row.2) := guardedOf_of_mem_guardedTable hrow
  have hlen : row.2.length ≤ 3 := (length_body_of_guardedOf hi).2
  refine ⟨exec_guarded_g0_null hi, exec_guarded_g0_open hi, exec_guarded_g1_null hi, exec_guarded_g1_free hi,
    fun _ => exec_guarded_g1_held hi, fun k f x hb ho hp => ?_, exec_guarded_gR hi⟩
  obtain ⟨hk, _⟩ := List.getElem?_eq_some_iff.1 hb
  rw [bodyPhase_eq_body (Nat.lt_of_lt_of_le hk hlen)] at ho
  rw [← afterBody_eq_bodyPhase hlen]
  exact exec_guarded_body hi hb ho hp

/-! ### The writes of a body -/

/-- The register block after the writes of a body. -/
def Regs.writeBody (P : Params) (r : Regs) (body : Body) : Regs :=
  body.foldl (fun r fv => r.write P fv.1 fv.2) r

/-- The state after the writes of a body on a port. -/
def State.writeBody (s : State) (q : PortId) (body : Body) : State :=
  body.foldl (fun s fv => s.regWrite q fv.1 fv.2) s

/-- The events of a body's writes, with the values stored (R173). -/
def bodyEvents (P : Params) (q : PortId) (body : Body) : List Event :=
  body.map fun fv => .regW q fv.1 (storedValue P fv.1 fv.2)

@[simp] theorem Regs.writeBody_nil (P : Params) (r : Regs) : r.writeBody P [] = r := rfl

@[simp] theorem Regs.writeBody_cons (P : Params) (r : Regs) (f : WField) (v : Nat) (body : Body) :
    r.writeBody P ((f, v) :: body) = (r.write P f v).writeBody P body := rfl

@[simp] theorem bodyEvents_nil (P : Params) (q : PortId) : bodyEvents P q [] = [] := rfl

@[simp] theorem bodyEvents_cons (P : Params) (q : PortId) (f : WField) (v : Nat) (body : Body) :
    bodyEvents P q ((f, v) :: body) = .regW q f (storedValue P f v) :: bodyEvents P q body := rfl

@[simp] theorem State.writeBody_params (s : State) (q : PortId) (body : Body) :
    (s.writeBody q body).params = s.params := by
  induction body generalizing s with
  | nil => rfl
  | cons fv body ih => exact ih (s.regWrite q fv.1 fv.2)

/-- Register writes leave a ready context ready. -/
theorem State.ready.writeBody {s : State} (h : s.ready) (q : PortId) (body : Body) :
    (s.writeBody q body).ready := by
  induction body generalizing s with
  | nil => exact h
  | cons fv body ih => exact ih (s := s.regWrite q fv.1 fv.2) h

theorem State.ports_set_port (s : State) (q : PortId) : s.ports.set q (s.port q) = s.ports :=
  Vector.set_getElem_self _

/-- A body writes the register block of its port and records its events; nothing else changes (R182). -/
theorem State.writeBody_eq (s : State) (q : PortId) (body : Body) :
    s.writeBody q body = { s with
      ports := s.ports.set q { s.port q with regs := (s.port q).regs.writeBody s.params body }
      trace := s.trace ++ bodyEvents s.params q body } := by
  induction body generalizing s with
  | nil =>
    have hports : s.ports.set q { s.port q with regs := (s.port q).regs.writeBody s.params [] } = s.ports :=
      s.ports_set_port q
    have htrace : s.trace ++ bodyEvents s.params q [] = s.trace := List.append_nil _
    rw [hports, htrace]
    rfl
  | cons fv body ih =>
    refine (ih (s.regWrite q fv.1 fv.2)).trans ?_
    rw [State.regWrite_port, State.regWrite_ports, Vector.set_set, State.regWrite_trace, List.append_assoc]
    rfl

/-- The whole effect of a guarded operation on a free lock: the body's writes, with the acquisition and the release in
the trace (R170, R182). -/
theorem State.unlock_writeBody_acquired {s : State} {q : PortId} (hl : (s.port q).lock = .free) (body : Body) :
    ((s.acquired q).writeBody q body).unlock q = { s with
      ports := s.ports.set q { s.port q with regs := (s.port q).regs.writeBody s.params body }
      trace := s.trace ++ (.acq q s.running :: bodyEvents s.params q body ++ [.rel q s.running]) } := by
  have hport : ((s.acquired q).writeBody q body).port q =
      { s.port q with lock := .held s.running, regs := (s.port q).regs.writeBody s.params body } := by
    rw [State.writeBody_eq, State.acquired_port]
    exact State.port_setPort_self (s.acquired q) q _
  have hlock : { s.port q with lock := .free, regs := (s.port q).regs.writeBody s.params body } =
      { s.port q with regs := (s.port q).regs.writeBody s.params body } := by rw [← hl]
  have hports : (((s.acquired q).writeBody q body).unlock q).ports =
      s.ports.set q { s.port q with regs := (s.port q).regs.writeBody s.params body } := by
    rw [State.unlock_ports, hport, hlock, State.writeBody_eq, State.acquired_ports, Vector.set_set, Vector.set_set]
  have htrace : (((s.acquired q).writeBody q body).unlock q).trace =
      s.trace ++ (.acq q s.running :: bodyEvents s.params q body ++ [.rel q s.running]) := by
    rw [State.unlock_trace, State.writeBody_eq, State.acquired_trace, List.append_assoc, List.append_assoc]
    rfl
  rw [← hports, ← htrace, State.writeBody_eq]
  rfl

/-! ### Completion on a free lock -/

/-- The phase at which `k` writes of the body are done (R170). -/
def GPhase.written (body : Body) (k : Nat) : GPhase :=
  if k < body.length then GPhase.body k else .gR

section Completes

variable {s : State} {i : Instr} {p : PortIndex} {q : PortId} {body : Body}

/-- The writes that remain, one for each micro-step, bring a context from its place in the body to the release. -/
theorem execTimes_writes (hi : guardedOf s.params i = some (p, body)) (h : s.ready) (hp : portId? p = some q)
    {done rest : Body} (hbody : body = done ++ rest) :
    execTimes rest.length i (s.goto i (.g (GPhase.written body done.length))) =
      .next ((s.writeBody q rest).goto i (.g .gR)) := by
  induction rest generalizing s done with
  | nil =>
    have hend : GPhase.written body done.length = .gR := if_neg (by simp [hbody])
    rw [hend]
    rfl
  | cons fv rest ih =>
    have hlt : done.length < body.length := by simp [hbody]
    have hwrite : body[done.length]? = some fv := by simp [hbody]
    have hphase : GPhase.written body done.length = GPhase.body done.length := if_pos hlt
    have hstep : exec i (s.goto i (.g (GPhase.written body done.length))) =
        .next ((s.regWrite q fv.1 fv.2).goto i (.g (GPhase.written body (done ++ [fv]).length))) := by
      rw [exec_guarded_body (s := s.goto i _) hi hwrite (by rw [hphase]; exact State.op_goto h.1 _ _) hp,
        List.length_append]
      exact congrArg _ (State.goto_goto (s := s.regWrite q fv.1 fv.2) h.known _ _ _ _)
    rw [List.length_cons, execTimes_next hstep]
    exact ih (s := s.regWrite q fv.1 fv.2) hi h (by rw [hbody, List.append_assoc]; rfl)

/-- A guarded operation presented on an open port whose lock is free returns after the handle check, the acquisition,
its writes and the release. -/
theorem guarded_completes (hi : guardedOf s.params i = some (p, body)) (h : s.ready) (hq : s.isOpen p q)
    (hl : (s.port q).lock = .free) :
    ∃ u, execTimes (body.length + 2) i s = .next u ∧
      exec i u = .next (((s.acquired q).writeBody q body).unlock q) := by
  have hacq : exec i (s.goto i (.g .g1)) =
      .next ((s.acquired q).goto i (.g (GPhase.written body 0))) := by
    rw [exec_guarded_g1_free (s := s.goto i (.g .g1)) hi (State.op_goto h.1 _ _) hq hl, GPhase.written,
      if_pos (length_body_of_guardedOf hi).1]
    exact congrArg _ (State.goto_goto (s := s.acquired q) h.known _ _ _ _)
  have hready : ((s.acquired q).writeBody q body).ready := State.ready.writeBody (s := s.acquired q) h q body
  refine ⟨_, (execTimes_next (exec_guarded_g0_open hi h hq)).trans ((execTimes_next hacq).trans
    (execTimes_writes (s := s.acquired q) (done := []) hi h hq.1 rfl)), ?_⟩
  have hi' : guardedOf ((s.acquired q).writeBody q body).params i = some (p, body) := by
    rw [State.writeBody_params]
    exact hi
  rw [exec_guarded_gR (s := ((s.acquired q).writeBody q body).goto i (.g .gR)) hi' (State.op_goto hready.1 _ _) hq.1]
  exact congrArg _ (State.finish_goto (s := ((s.acquired q).writeBody q body).unlock q) hready _ _)

/-- Its whole effect, from what the writes leave in the register block and from the events in their order. -/
theorem guarded_completes_with {r : Regs} {es : List Event} (hi : guardedOf s.params i = some (p, body))
    (h : s.ready) (hq : s.isOpen p q) (hl : (s.port q).lock = .free)
    (hr : (s.port q).regs.writeBody s.params body = r)
    (hes : .acq q s.running :: bodyEvents s.params q body ++ [.rel q s.running] = es) :
    ∃ u, execTimes (body.length + 2) i s = .next u ∧ exec i u = .next { s with
      ports := s.ports.set q { s.port q with regs := r }
      trace := s.trace ++ es } := by
  rw [← hr, ← hes, ← State.unlock_writeBody_acquired hl]
  exact guarded_completes hi h hq hl

end Completes

/-! ### The eight bodies (R174 to R181) -/

/-- Settles O23: `RS485_EN` is the one field the body writes. -/
theorem setRs485ModeCompletes : Obligations.SetRs485ModeCompletes := by
  intro s p q h hq hl
  exact guarded_completes_with (body := setRs485ModeBody) rfl h hq hl rfl rfl

/-- A one-bit operand is within the enable's one-bit field (R173, R175). -/
theorem storedValue_txdBrkEn_bitNat (P : Params) (b : Bool) : storedValue P .txdBrkEn (bitNat b) = bitNat b := by
  cases b with
  | false => rfl
  | true => rfl

/-- Settles O24: each of the three writes stores its operand truncated; the enable is one bit already. -/
theorem cfgBreakGenCompletes : Obligations.CfgBreakGenCompletes := by
  intro s p q en blen ilen h hq hl e b l
  have hen : storedValue s.params .txdBrkEn (bitNat en) = e := storedValue_txdBrkEn_bitNat s.params en
  refine guarded_completes_with (i := .cfgBreakGen p en blen ilen) (body := cfgBreakGenBody en blen ilen)
    rfl h hq hl ?_ ?_
  · simp only [cfgBreakGenBody, Regs.writeBody_cons, Regs.write, hen]
    rfl
  · simp only [cfgBreakGenBody, bodyEvents_cons, hen]
    rfl

/-- Settles O25: a valid `TWO_STOP_CODE` fits the stop-bit field. -/
theorem forceTwoStopBitsCompletes : Obligations.ForceTwoStopBitsCompletes := by
  intro s p q hP h hq hl
  obtain ⟨-, -, -, -, -, ⟨-, hcode, -⟩, -⟩ := hP
  have hstored : storedValue s.params .stopBits s.params.twoStopCode = s.params.twoStopCode := trunc_of_lt hcode
  refine guarded_completes_with (i := .forceTwoStopBits p) (body := forceTwoStopBitsBody s.params) rfl h hq hl ?_ ?_
  · simp only [forceTwoStopBitsBody, Regs.writeBody_cons, Regs.writeBody_nil, Regs.write, hstored]
  · simp only [forceTwoStopBitsBody, bodyEvents_cons, bodyEvents_nil, hstored]
    rfl

/-! The two writes of the break-detect enable, for each value of `BRKDET_ALIAS` (10_state.md R46). -/

theorem Regs.setBrkdet_true (P : Params) (r : Regs) :
    r.setBrkdet P true = match P.brkdetAlias with
      | .inMask => { r with intEna := r.intEna ||| 2 ^ P.brkDetBit }
      | .separate => { r with brkDetEn := 1 } := by
  unfold Regs.setBrkdet
  cases P.brkdetAlias with
  | inMask => rw [replaceBit, if_pos rfl, bitMask, Nat.one_shiftLeft]
  | separate => rfl

/-- Only the mask and the enable's own field can change. -/
theorem Regs.setBrkdet_frame (P : Params) (r : Regs) (b : Bool) :
    r.setBrkdet P b =
      { r with intEna := (r.setBrkdet P b).intEna, brkDetEn := (r.setBrkdet P b).brkDetEn } := by
  unfold Regs.setBrkdet
  cases P.brkdetAlias with
  | inMask => rfl
  | separate => rfl

theorem Regs.intEna_setBrkdet_of_separate {P : Params} (h : P.brkdetAlias = .separate) (r : Regs) (b : Bool) :
    (r.setBrkdet P b).intEna = r.intEna := by
  simp only [Regs.setBrkdet, h]

/-- Settles O26: a valid `AUTOBAUD_RST` and the threshold 1 fit their fields, and the enable is set as in
R46. -/
theorem enableBrkDetCompletes : Obligations.EnableBrkDetCompletes := by
  intro s p q hP h hq hl r r' r''
  obtain ⟨-, -, -, -, -, ⟨-, -, hthrW⟩, ⟨-, hrst, -⟩, -⟩ := hP
  have hautobaud : storedValue s.params .autobaud s.params.autobaudRst = s.params.autobaudRst := trunc_of_lt hrst
  have hthrhd : storedValue s.params .rxfifoThrhd 1 = 1 :=
    trunc_of_lt (Nat.one_lt_two_pow (Nat.one_le_iff_ne_zero.1 hthrW))
  refine guarded_completes_with (i := .enableBrkDet p) (body := enableBrkDetBody s.params) rfl h hq hl ?_ ?_
  · have hena : r.write s.params .brkDetEn 1 = r.setBrkdet s.params true := rfl
    simp only [enableBrkDetBody, Regs.writeBody_cons, Regs.writeBody_nil]
    rw [hena, Regs.setBrkdet_true]
    simp only [Regs.write, hautobaud, hthrhd, r'', r', r]
    cases s.params.brkdetAlias with
    | inMask => rfl
    | separate => rfl
  · simp only [enableBrkDetBody, bodyEvents_cons, bodyEvents_nil, hautobaud, hthrhd]
    rfl

/-- What a port reads after its register block is replaced. -/
theorem State.regs_port_of_ports {s t : State} {q : PortId} {r : Regs}
    (h : t.ports = s.ports.set q { s.port q with regs := r }) : (t.port q).regs = r := by
  unfold State.port
  rw [h]
  exact congrArg Port.regs (Vector.getElem_set_self _)

/-- Settles O27: the body is one write of the break-detect enable. -/
theorem disableBrkDetCompletes : Obligations.DisableBrkDetCompletes := by
  intro s p q hinv h hq hl
  have hr : (s.port q).regs.InWidth s.params := Regs.fit_eq_self.1 (hinv.regs_fit q)
  obtain ⟨u, hu, ht⟩ := guarded_completes_with (i := .disableBrkDet p) (body := disableBrkDetBody)
    (r := (s.port q).regs.setBrkdet s.params false) rfl h hq hl rfl rfl
  refine ⟨u, _, hu, ht, ?_⟩
  rw [State.regs_port_of_ports rfl, ← Regs.setBrkdet_frame]
  exact ⟨Regs.brkdet_setBrkdet hr.intEna false, fun k hk => Regs.testBit_intEna_setBrkdet hr hk false, rfl,
    fun ha => Regs.intEna_setBrkdet_of_separate ha _ _⟩

/-- Settles O28: the mask takes 0, and the write of every one to `INT_CLR` leaves no flag. -/
theorem disableAllIntsCompletes : Obligations.DisableAllIntsCompletes := by
  intro s p q h hq hl
  have hena : storedValue s.params .intEna 0 = 0 := Nat.zero_mod _
  have hclr : storedValue s.params .intClr (allOnes s.params.intW) = allOnes s.params.intW :=
    trunc_of_lt (allOnes_lt _)
  refine guarded_completes_with (i := .disableAllInts p) (body := disableAllIntsBody s.params) rfl h hq hl ?_ ?_
  · simp only [disableAllIntsBody, Regs.writeBody_cons, Regs.writeBody_nil, Regs.write, hena, hclr,
      clearFlags_allOnes]
  · simp only [disableAllIntsBody, bodyEvents_cons, bodyEvents_nil, hena, hclr]
    rfl

/-- Settles O29: the mask is the one field the body writes, with the operand truncated. -/
theorem setIntMaskCompletes : Obligations.SetIntMaskCompletes := by
  intro s p q v h hq hl x
  exact guarded_completes_with (body := setIntMaskBody v.toNat) rfl h hq hl rfl rfl

/-- Settles O30: the body writes `CLR_ALL_MASK`, which fits the mask's width, to `INT_CLR`. -/
theorem clearAllIntsCompletes : Obligations.ClearAllIntsCompletes := by
  intro s p q hinv h hq hl
  obtain ⟨-, -, -, -, -, -, ⟨-, -, hmask⟩, -⟩ := hinv.params_valid
  have hclr : storedValue s.params .intClr s.params.clrAllMask = s.params.clrAllMask := trunc_of_lt hmask
  have hraw : (s.port q).regs.intRaw < 2 ^ s.params.intW := (Regs.fit_eq_self.1 (hinv.regs_fit q)).intRaw
  obtain ⟨u, hu, ht⟩ := guarded_completes_with (i := .clearAllInts p) (body := clearAllIntsBody s.params)
    (r := { (s.port q).regs with
      intRaw := clearFlags s.params.intW (s.port q).regs.intRaw s.params.clrAllMask })
    (es := [.acq q s.running, .regW q .intClr s.params.clrAllMask, .rel q s.running]) rfl h hq hl
    (by simp only [clearAllIntsBody, Regs.writeBody_cons, Regs.writeBody_nil, Regs.write, hclr])
    (by simp only [clearAllIntsBody, bodyEvents_cons, bodyEvents_nil, hclr]; rfl)
  refine ⟨u, _, hu, ht, ?_⟩
  rw [State.regs_port_of_ports rfl]
  exact ⟨testBit_clearFlags hraw _, rfl⟩

end Sys2Proof.Machine
end

section
/-! The waveform of the hold (43_break.md R205): what a phase of `SEND_BREAK` asks of the transmit pin, what a
micro-step does to the pins, and the transmit line in the hold (10_state.md R51). -/

namespace Sys2Proof.Machine

/-! ### What a phase asks of the pin -/

/-- What `SEND_BREAK` of port `p`, at the phase it is at, has made of the port's transmit pin (43_break.md R201 `s3` to
`s7`). -/
def OpState.Asks (o : OpState) (p : PortIndex) (x : Pin) : Prop :=
  (o.pinDetached p = true → x.mux = .detached) ∧ (o.pinDriven p = true → x.dir = .output) ∧
    (o.inHold p = true → x.level = false)

/-- The waveform is what `MAIN`'s operation asks of every port's pin. -/
theorem lowInHold_iff {s : State} :
    LowInHold s ↔ ∀ p q, portId? p = some q → (s.opOf .main).Asks p (s.pin (txPin s.params q)) := Iff.rfl

theorem OpState.pinDriven_of_inHold {o : OpState} {p : PortIndex} (h : o.inHold p = true) : o.pinDriven p = true := by
  unfold OpState.inHold at h
  split at h
  · exact h
  · exact h
  · cases h

theorem OpState.pinDetached_of_pinDriven {o : OpState} {p : PortIndex} (h : o.pinDriven p = true) :
    o.pinDetached p = true := by
  unfold OpState.pinDriven at h
  split at h
  · exact h
  · exact h
  · exact h
  · exact h
  · cases h

/-- Only the `SEND_BREAK` of a port asks anything of the port's pin. -/
theorem OpState.eq_sendBreak_of_pinDetached {o : OpState} {p : PortIndex} (h : o.pinDetached p = true) :
    ∃ d ph, o = .run (.sendBreak p d) ph := by
  unfold OpState.pinDetached at h
  split at h
  · exact ⟨_, _, by rw [← eq_of_beq h]⟩
  · exact ⟨_, _, by rw [← eq_of_beq h]⟩
  · exact ⟨_, _, by rw [← eq_of_beq h]⟩
  · exact ⟨_, _, by rw [← eq_of_beq h]⟩
  · exact ⟨_, _, by rw [← eq_of_beq h]⟩
  · cases h

theorem OpState.asks_of_not_detached {o : OpState} {p : PortIndex} (h : o.pinDetached p = false) (x : Pin) :
    o.Asks p x := by
  have never : ¬ o.pinDetached p = true := Bool.eq_false_iff.1 h
  exact ⟨fun hd => absurd hd never, fun hd => absurd (pinDetached_of_pinDriven hd) never,
    fun hd => absurd (pinDetached_of_pinDriven (pinDriven_of_inHold hd)) never⟩

theorem OpState.not_detached_of_ne_break {i : Instr} (h : ∀ p d, i ≠ .sendBreak p d) (ph : Phase) (p : PortIndex) :
    (OpState.run i ph).pinDetached p = false := by
  refine Bool.eq_false_iff.2 fun hd => ?_
  obtain ⟨d, _, ho⟩ := OpState.eq_sendBreak_of_pinDetached hd
  cases ho
  exact h p d rfl

theorem OpState.not_detached_firstPhase (i : Instr) (p : PortIndex) :
    (OpState.run i (firstPhase i)).pinDetached p = false := by
  cases i <;> rfl

/-! ### The ports' transmit pins (10_state.md R50) -/

theorem val_of_portId? {p : PortIndex} {q : PortId} (h : portId? p = some q) : (q : Nat) = p.toNat := by
  unfold portId? at h
  split at h
  · cases h; rfl
  · cases h

theorem portId?_inj {p p' : PortIndex} {q : PortId} (h : portId? p = some q) (h' : portId? p' = some q) : p = p' :=
  BitVec.eq_of_toNat_eq ((val_of_portId? h).symm.trans (val_of_portId? h'))

/-- The three physical ports have three transmit pins (00_scope.md R7). -/
theorem txPin_inj {P : Params} (hP : P.Valid) {q q' : PortId} (h : txPin P q = txPin P q') : q = q' := by
  obtain ⟨-, -, -, -, -, -, -, ⟨h01, h02, h12⟩, -⟩ := hP
  match q, q', h with
  | 0, 0, _ | 1, 1, _ | 2, 2, _ => rfl
  | 0, 1, e => exact absurd e h01
  | 1, 0, e => exact absurd e.symm h01
  | 0, 2, e => exact absurd e h02
  | 2, 0, e => exact absurd e.symm h02
  | 1, 2, e => exact absurd e h12
  | 2, 1, e => exact absurd e.symm h12

/-! ### Steps that leave the pins alone -/

section Kept

variable {s t : State}

theorem LowInHold.of_pins_eq (h : LowInHold s) (hP : t.params = s.params) (hpins : t.pins = s.pins)
    (ho : ∀ p x, (s.opOf .main).Asks p x → (t.opOf .main).Asks p x) : LowInHold t := by
  refine lowInHold_iff.2 fun p q hp => ?_
  rw [hP, State.pin, hpins]
  exact ho p _ (lowInHold_iff.1 h p q hp)

/-- `MAIN` is at no phase that asks anything of a pin. -/
theorem LowInHold.of_not_detached (h : ∀ p, (t.opOf .main).pinDetached p = false) : LowInHold t :=
  lowInHold_iff.2 fun p _ _ => OpState.asks_of_not_detached (h p) _

/-- The running context's operation changes to one that asks nothing, and no pin changes. -/
theorem LowInHold.of_setOp (h : LowInHold s) {o : OpState} (hk : s.ctxs.known s.running)
    (ho : ∀ p, o.pinDetached p = false) : LowInHold (s.setOp o) := by
  refine h.of_pins_eq rfl rfl fun p x hx => ?_
  rw [State.opOf_setOp hk]
  split
  · exact OpState.asks_of_not_detached (ho p) x
  · exact hx

/-- A presentation asks nothing of a pin, whichever context it is to. -/
theorem LowInHold.present (h : LowInHold s) (hk : s.ctxs.known s.running) (i : Instr) :
    LowInHold (s.goto i (firstPhase i)) :=
  h.of_setOp hk (OpState.not_detached_firstPhase i)

/-- A refusal ends the running context's operation. -/
theorem LowInHold.refuse (h : LowInHold s) (hk : s.ctxs.known s.running) (reason : RefusalReason) :
    LowInHold (s.refuse reason) :=
  LowInHold.of_setOp (s := s.markRefused reason) h hk fun _ => rfl

end Kept

/-! ### The operation and the pins after a micro-step -/

section After

variable {s t : State}

/-- A guarded operation's micro-step leaves the context at one of the operation's phases, or where it returns to. -/
theorem GuardedResult.op_after {p : PortIndex} {body : Body} {G : GPhase → OpState} {D : OpState} {x : GPhase}
    (hk : s.ctxs.known s.running) (hop : s.op = G x)
    (h : GuardedResult p body (fun x s => s.setOp (G x)) (fun s => s.setOp D) s x t) :
    (∃ y, t.opOf s.running = G y) ∨ t.opOf s.running = D := by
  cases h with
  | null => exact .inl ⟨_, hop⟩
  | enter => exact .inl ⟨_, State.opOf_setOp_own hk rfl rfl _⟩
  | stale => exact .inl ⟨_, hop⟩
  | spin => exact .inl ⟨_, hop⟩
  | acquire q => exact .inl ⟨_, State.opOf_setOp_own (X := s.acquired q) hk rfl rfl _⟩
  | write q k f v => exact .inl ⟨_, State.opOf_setOp_own (X := s.regWrite q f v) hk rfl rfl _⟩
  | release q => exact .inr (State.opOf_setOp_own (X := s.unlock q) hk rfl rfl _)

theorem GuardedResult.pins {p : PortIndex} {body : Body} {G : GPhase → OpState} {D : OpState} {x : GPhase}
    (h : GuardedResult p body (fun x s => s.setOp (G x)) (fun s => s.setOp D) s x t) : t.pins = s.pins := by
  cases h <;> rfl

/-- A delay's micro-step is one timer step, and goes on or returns. -/
theorem delayStep_eq {d : Micros} {x : DPhase} {goto : DPhase → State → State} {done : State → State}
    (h : delayStep d x goto done s = .next t) : (∃ y, t = goto y s.now.2) ∨ t = done s.now.2 := by
  cases x with
  | d0 => cases h; exact .inl ⟨_, rfl⟩
  | d1 start target => cases h; exact .inl ⟨_, rfl⟩
  | d2 start target =>
    simp only [delayStep] at h
    split at h <;> cases h
    · exact .inr rfl
    · exact .inl ⟨_, rfl⟩

/-- After a micro-step of an operation other than `SEND_BREAK` the running context is idle or still at that
operation. -/
theorem ExecResult.op_after {i : Instr} {ph : Phase} (hop : s.op = .run i ph) (hi : ∀ p d, i ≠ .sendBreak p d)
    (h : ExecResult s i ph t) : t.opOf s.running = .idle ∨ ∃ ph', t.opOf s.running = .run i ph' := by
  have hk := State.known_of_op hop
  have own : ∀ {X : State} {o : OpState}, X.ctxs = s.ctxs → X.running = s.running →
      (X.setOp o).opOf s.running = o := fun hc hr => State.opOf_setOp_own hk hc hr _
  cases h with
  | now => exact .inl (State.opOf_finish_own (X := s.now.2) hk rfl rfl _)
  | delay d x t h =>
    obtain ⟨y, rfl⟩ | rfl := delayStep_eq h
    · exact .inr ⟨_, own (X := s.now.2) rfl rfl⟩
    · exact .inl (own (X := s.now.2) rfl rfl)
  | wait i p form x t _ h =>
    cases h with
    | null | satisfied => exact .inl (own (X := s) rfl rfl)
    | enter | latched | again => exact .inr ⟨_, own (X := s) rfl rfl⟩
    | stale => exact .inr ⟨_, hop⟩
    | feed => exact .inr ⟨_, own (X := s.wdtFeed) rfl rfl⟩
    | yield => exact .inr ⟨_, own (X := s.yield) rfl rfl⟩
    | clear q b => exact .inl (own (X := s.regWrite q .intClr (bitMask b)) rfl rfl)
  | guarded i p body x t _ h =>
    obtain ⟨y, hy⟩ | hd := GuardedResult.op_after (G := fun x => .run i (.g x)) hk hop h
    · exact .inr ⟨_, hy⟩
    · exact .inl hd
  | sendBreak p d => exact absurd rfl (hi p d)
  | openPort p ph t h =>
    cases h with
    | missing | already => exact .inr ⟨_, hop⟩
    | opened q => exact .inl (own (X := s.openPort q) rfl rfl)
  | setBaud => exact .inl (own (X := s.markRefused _) rfl rfl)
  | endPort p ph t h =>
    cases h with
    | null => exact .inr ⟨_, hop⟩
    | enter => exact .inr ⟨_, own (X := s) rfl rfl⟩
    | disable x t h =>
      obtain ⟨y, hy⟩ | hd := GuardedResult.op_after (G := fun x => .run (.endPort p) (.e1 x)) hk hop h
      · exact .inr ⟨_, hy⟩
      · exact .inr ⟨_, hd⟩
    | undesignate => exact .inr ⟨_, own (X := s.clearDbgPort p) rfl rfl⟩
    | release q => exact .inr ⟨_, own (X := s.releasePort q) rfl rfl⟩
    | nullify q => exact .inl (own (X := s.nullHandle q) rfl rfl)
  | getDbgPort => exact .inl (State.opOf_finish_own (X := s) hk rfl rfl _)
  | setDbgPort p valid => exact .inl (own (X := { s with dbgPort := dbgOperand p valid }) rfl rfl)

/-- Of the operations other than `SEND_BREAK` only `OPEN` writes a pin, its own port's transmit pin (44_facade.md
R221). -/
theorem ExecResult.pins_of_ne_break {i : Instr} {ph : Phase} (hi : ∀ p d, i ≠ .sendBreak p d)
    (h : ExecResult s i ph t) : t.pins = s.pins ∨
      ∃ p q x, i = .openPort p ∧ portId? p = some q ∧ t.pins = Pins.set s.pins (txPin s.params q) x := by
  cases h with
  | now => exact .inl rfl
  | delay d x t h => obtain ⟨y, rfl⟩ | rfl := delayStep_eq h <;> exact .inl rfl
  | wait i p form x t _ h => cases h <;> exact .inl rfl
  | guarded i p body x t _ h => exact .inl (GuardedResult.pins (G := fun x => .run i (.g x)) h)
  | sendBreak p d => exact absurd rfl (hi p d)
  | openPort p ph t h =>
    cases h with
    | missing | already => exact .inl rfl
    | opened q hp => exact .inr ⟨p, q, _, rfl, hp, rfl⟩
  | setBaud => exact .inl rfl
  | endPort p ph t h =>
    cases h with
    | disable x t h => exact .inl (GuardedResult.pins (G := fun x => .run (.endPort p) (.e1 x)) h)
    | _ => exact .inl rfl
  | getDbgPort => exact .inl rfl
  | setDbgPort => exact .inl rfl

end After

/-! ### The micro-steps keep the waveform -/

section MicroSteps

variable {s t : State}

/-- `MAIN` is at a `SEND_BREAK` of port `p`: only that port's pin matters. -/
theorem LowInHold.of_break {p : PortIndex} {d : BitVec 32} {ph : Phase}
    (hop : t.opOf .main = .run (.sendBreak p d) ph)
    (h : ∀ q, portId? p = some q → (OpState.run (.sendBreak p d) ph).Asks p (t.pin (txPin t.params q))) :
    LowInHold t := by
  refine lowInHold_iff.2 fun p' q hq => ?_
  by_cases hd : (t.opOf .main).pinDetached p' = true
  · have hrun := hd
    rw [hop] at hrun
    obtain ⟨_, _, he⟩ := OpState.eq_sendBreak_of_pinDetached hrun
    cases he
    rw [hop]
    exact h q hq
  · exact OpState.asks_of_not_detached (Bool.eq_false_iff.2 hd) _

/-- A micro-step of another operation: `MAIN` is past no step `s3` if it is the one that runs, and otherwise the only
pin written is that of another port. -/
theorem ExecResult.lowInHold_of_ne_break {i : Instr} {ph : Phase} (hinv : Inv s) (hlow : LowInHold s)
    (hop : s.op = .run i ph) (hi : ∀ p d, i ≠ .sendBreak p d)
    (hopen : ∀ p, i = .openPort p → (s.opOf .main).pinDetached p = false) (h : ExecResult s i ph t) :
    LowInHold t := by
  by_cases hr : s.running = .main
  · refine .of_not_detached fun p => ?_
    rw [← hr]
    obtain ho | ⟨ph', ho⟩ := h.op_after hop hi
    · rw [ho]
      rfl
    · rw [ho]
      exact OpState.not_detached_of_ne_break hi ph' p
  · have hmain : t.opOf .main = s.opOf .main := h.frame.opOf_other (Ne.symm hr)
    obtain hpins | ⟨p, q, x, hip, hq, hpins⟩ := h.pins_of_ne_break hi
    · exact hlow.of_pins_eq h.frame.params hpins fun _ _ => hmain ▸ id
    · refine lowInHold_iff.2 fun p' q' hq' => ?_
      rw [hmain]
      by_cases hqq : q = q'
      · subst hqq
        obtain rfl : p = p' := portId?_inj hq hq'
        exact OpState.asks_of_not_detached (hopen p hip) _
      · have hpin : t.pin (txPin t.params q') = s.pin (txPin s.params q') := by
          rw [h.frame.params, State.pin, hpins, Pins.get_set hinv.pins_wf,
            if_neg fun e => hqq (txPin_inj hinv.params_valid e)]
          rfl
        exact hpin ▸ hlow p' q' hq'

/-- The running context is at a phase of its operation's table. -/
theorem Inv.phaseFits {i : Instr} {ph : Phase} (h : Inv s) (hop : s.op = .run i ph) :
    phaseFits s.params s.running i ph = true := by
  have hfits := h.phases_fit s.running
  rwa [show s.opOf s.running = _ from hop] at hfits

/-- Past its entry check `SEND_BREAK` runs in `MAIN` (43_break.md R203). -/
theorem main_of_phaseFits_break {P : Params} {c : Ctx} {p : PortIndex} {d : BitVec 32} {ph : Phase}
    (hph : ph ≠ .s0) (h : phaseFits P c (.sendBreak p d) ph = true) : c = .main := by
  cases c with
  | main => rfl
  | isr n =>
    cases ph with
    | s0 => exact absurd rfl hph
    | g x => exact absurd h (not_phaseFits_g_of_bodyless rfl x)
    | _ => cases h

/-- The locals of a running `SEND_BREAK` hold the port's transmit pin (43_break.md R201). -/
theorem BreakLocals.pin_eq {P : Params} {p : PortIndex} {q : PortId} {l : BreakLocals} (hl : l.fits P p = true)
    (hq : portId? p = some q) : l.pin = txPin P q := by
  rw [val_of_portId? hq]
  exact (of_decide_eq_true hl).1

/-- A micro-step of `SEND_BREAK` in `MAIN` that writes the operation's pin: it asks at its next phase what it has
made of the pin. -/
theorem LowInHold.of_pin_written {X : State} {p : PortIndex} {d : BitVec 32} {ph ph' : Phase} {l : BreakLocals}
    {x : Pin} (hinv : Inv s) (hlow : LowInHold s) (hop : s.op = .run (.sendBreak p d) ph) (hr : s.running = .main)
    (hl : l.fits s.params p = true) (hc : X.ctxs = s.ctxs) (hrun : X.running = s.running)
    (hP : X.params = s.params) (hpins : X.pins = Pins.set s.pins l.pin x)
    (hx : (OpState.run (.sendBreak p d) ph).Asks p (s.pin l.pin) →
      (OpState.run (.sendBreak p d) ph').Asks p x) : LowInHold (X.goto (.sendBreak p d) ph') := by
  refine .of_break (hr ▸ State.opOf_setOp_own (State.known_of_op hop) hc hrun _) fun q hq => ?_
  have hmain : s.opOf .main = .run (.sendBreak p d) ph := hr ▸ hop
  have hpin : (X.goto (.sendBreak p d) ph').pin (txPin X.params q) = x := by
    rw [hP, ← BreakLocals.pin_eq hl hq, State.goto_pin, State.pin, hpins, Pins.get_set hinv.pins_wf, if_pos rfl]
  have hbefore := hlow p q hq
  rw [hmain, ← BreakLocals.pin_eq hl hq] at hbefore
  exact hpin.symm ▸ hx hbefore

/-- A `SEND_BREAK` in `MAIN` has at each phase made of the pin what the phase asks: `s3` to `s5` write it, and nothing
else does before `s7` makes it high and `s8` attaches it. -/
theorem BreakResult.lowInHold {p : PortIndex} {d : BitVec 32} {ph : Phase} (hinv : Inv s) (hlow : LowInHold s)
    (hop : s.op = .run (.sendBreak p d) ph) (hr : s.running = .main)
    (h : BreakResult (.sendBreak p d) p (zextDuration d) s ph t) : LowInHold t := by
  have hk := State.known_of_op hop
  have hmain : s.opOf .main = .run (.sendBreak p d) ph := hr ▸ hop
  have hfits : phaseFits s.params s.running (.sendBreak p d) ph = true := hinv.phaseFits hop
  have own : ∀ {X : State} {o : OpState}, X.ctxs = s.ctxs → X.running = s.running →
      (X.setOp o).opOf .main = o := fun hc he => hr ▸ State.opOf_setOp_own hk hc he _
  -- a phase that asks nothing, whatever the pins
  have free : ∀ {o : OpState}, t.opOf .main = o → (∀ p', o.pinDetached p' = false) → LowInHold t :=
    fun ho hn => .of_not_detached fun p' => ho ▸ hn p'
  cases h with
  | refused => exact free (own (X := s.markRefused _) rfl rfl) fun _ => rfl
  | null => exact free hmain fun _ => rfl
  | enter | snapshot => exact free (own (X := s) rfl rfl) fun _ => rfl
  | disable l x t h =>
    obtain ⟨y, hy⟩ | hd := GuardedResult.op_after (G := fun x => .run (.sendBreak p d) (.s2 l x)) hk hop h
    · exact free (hr ▸ hy) fun _ => rfl
    · exact free (hr ▸ hd) fun _ => rfl
  | detach l =>
    obtain ⟨-, hl⟩ := Bool.and_eq_true_iff.1 hfits
    exact .of_pin_written (X := s.pinDetach l.pin) hinv hlow hop hr hl rfl rfl rfl rfl
      fun _ => ⟨fun _ => rfl, nofun, nofun⟩
  | output l =>
    obtain ⟨-, hl⟩ := Bool.and_eq_true_iff.1 hfits
    exact .of_pin_written (X := s.pinOutput l.pin) hinv hlow hop hr hl rfl rfl rfl rfl
      fun ⟨hmux, _⟩ => ⟨hmux, fun _ => rfl, nofun⟩
  | low l =>
    obtain ⟨-, hl⟩ := Bool.and_eq_true_iff.1 hfits
    exact .of_pin_written (X := s.pinWrite l.pin false) hinv hlow hop hr hl rfl rfl rfl rfl
      fun ⟨hmux, hdir, _⟩ => ⟨hmux, hdir, fun _ => rfl⟩
  | hold l x t h =>
    have hbefore := fun q hq => hmain ▸ hlow p q hq
    obtain ⟨y, rfl⟩ | rfl := delayStep_eq h
    · exact .of_break (own (X := s.now.2) rfl rfl) hbefore
    · exact .of_break (own (X := s.now.2) rfl rfl) hbefore
  | high l =>
    obtain ⟨-, hl⟩ := Bool.and_eq_true_iff.1 hfits
    exact .of_pin_written (X := s.pinWrite l.pin true) hinv hlow hop hr hl rfl rfl rfl rfl
      fun ⟨hmux, hdir, _⟩ => ⟨hmux, hdir, nofun⟩
  | attach l => exact free (own (X := s.pinAttach l.pin _) rfl rfl) fun _ => rfl
  | restore l x t h =>
    obtain ⟨y, hy⟩ | hd :=
      GuardedResult.op_after (G := fun x => .run (.sendBreak p d) (.s9 l x)) (D := .idle) hk hop h
    · exact free (hr ▸ hy) fun _ => rfl
    · exact free (hr ▸ hd) fun _ => rfl

/-- A `SEND_BREAK` that an interrupt context presents is refused, and `MAIN` is where it was (43_break.md R203). -/
theorem BreakResult.lowInHold_outside {p : PortIndex} {d : BitVec 32} {ph : Phase} (hinv : Inv s)
    (hlow : LowInHold s) (hop : s.op = .run (.sendBreak p d) ph) (hr : s.running ≠ .main)
    (h : BreakResult (.sendBreak p d) p (zextDuration d) s ph t) : LowInHold t := by
  obtain rfl : ph = .s0 := by_contra fun hph => hr (main_of_phaseFits_break hph (hinv.phaseFits hop))
  cases h with
  | refused => exact hlow.refuse (State.known_of_op hop) _
  | null hm | enter _ hm => exact absurd hm hr

/-- Every micro-step of the operation that the running context is at keeps the waveform. -/
theorem ExecResult.lowInHold {i : Instr} {ph : Phase} (hinv : Inv s) (hlow : LowInHold s) (hop : s.op = .run i ph)
    (hopen : ∀ p, i = .openPort p → (s.opOf .main).pinDetached p = false) (h : ExecResult s i ph t) :
    LowInHold t := by
  by_cases hi : ∃ p d, i = .sendBreak p d
  · obtain ⟨p, d, rfl⟩ := hi
    cases h with
    | wait _ _ _ _ _ hw => cases hw
    | guarded _ _ _ _ _ hg => cases hg
    | sendBreak _ _ _ _ h =>
      by_cases hr : s.running = .main
      · exact h.lowInHold hinv hlow hop hr
      · exact h.lowInHold_outside hinv hlow hop hr
  · exact h.lowInHold_of_ne_break hinv hlow hop (fun p d e => hi ⟨p, d, e⟩) hopen

/-- Every micro-step of an operation keeps the waveform, where it is presented with it too. -/
theorem LowInHold.of_exec {i : Instr} (hinv : Inv s) (hlow : LowInHold s)
    (hopen : ∀ p, i = .openPort p → (s.opOf .main).pinDetached p = false) (h : exec i s = .next t) :
    LowInHold t := by
  obtain ⟨s₀, ph, rfl | ⟨hidle, rfl⟩, ho, hr⟩ := exec_from (s.runningKnown_iff.2 hinv.known_running) h
  · exact hr.lowInHold hinv hlow ho hopen
  · refine hr.lowInHold (hinv.present hidle i) (hlow.present hinv.known_running i) ho fun p hp => ?_
    rw [State.goto, State.opOf_setOp hinv.known_running]
    split
    · exact OpState.not_detached_firstPhase i p
    · exact hopen p hp

end MicroSteps

/-! ### The transmit line in the hold (10_state.md R51) -/

/-- A detached output pin that is low makes the line low. -/
theorem LowInHold.txLine {s : State} {p : PortIndex} {q : PortId} (h : LowInHold s) (hq : portId? p = some q)
    (hp : (s.opOf .main).inHold p = true) : s.txLine q = some false := by
  obtain ⟨hmux, hdir, hlevel⟩ := h p q hq
  have hdriven := OpState.pinDriven_of_inHold hp
  simp only [State.txLine, hmux (OpState.pinDetached_of_pinDriven hdriven), hdir hdriven, hlevel hp, if_true]

/-- Settles O42: by the one inversion of `step`. Only a micro-step writes a pin; the other moves leave `MAIN` at its
phase or end its operation. -/
theorem lineLowInHold : Obligations.LineLowInHold := by
  refine ⟨fun s t hinv h hopen hstep => ?_, fun s p q h hq hp => h.txLine hq hp⟩
  obtain ⟨-, hres⟩ := step_result hstep
  cases hres with
  | stay => exact h
  | micro ms i t hn _ he =>
    exact LowInHold.of_exec (hinv.setMoves ms) h (fun p hp => hopen p (hp ▸ hn)) he
  | illegal => exact h
  | present ms w i => exact LowInHold.present (s := { s with moves := ms }) h hinv.known_running i
  | uart => exact h
  | advance => exact h
  | enter => exact h
  | tooDeep ms => exact LowInHold.refuse (s := { s with moves := ms }) h hinv.known_running _
  | exit => exact h

end Sys2Proof.Machine
end

section
/-! The micro-steps of `SEND_BREAK` (43_break.md R201 to R203), and of the guarded operations that `SEND_BREAK` and
`END` run in place (44_facade.md R223, 10_state.md R24). -/

namespace Sys2Proof.Machine

open Sys2Proof.Statements

/-! ### A guarded operation in place: the table of 42_guarded_regops.md R170 -/

section Guarded

variable {s : State} {p : PortIndex} {q : PortId} {body : Body} {goto : GPhase → State → State}
  {done : State → State}

theorem guardedStep_g0_null (hn : s.handle p = .null) :
    guardedStep p body .g0 goto done s = .next (s.raise (.nullPort p)) := by
  simp only [guardedStep, State.livePort?_eq_none.2 hn]

theorem guardedStep_g0_open (hq : s.isOpen p q) : guardedStep p body .g0 goto done s = .next (goto .g1 s) := by
  simp only [guardedStep, hq.livePort?]

theorem guardedStep_g1_null (hn : s.handle p = .null) :
    guardedStep p body .g1 goto done s = .next (s.raise (.stalePort p)) := by
  simp only [guardedStep, State.livePort?_eq_none.2 hn]

theorem guardedStep_g1_free (hq : s.isOpen p q) (hl : (s.port q).lock = .free) :
    guardedStep p body .g1 goto done s = .next (goto .b1 (s.acquired q)) := by
  simp only [guardedStep, hq.livePort?, State.lockTry_free hl]
  rfl

theorem guardedStep_write {k v : Nat} {f : WField} (hlen : body.length ≤ 3) (hb : body[k]? = some (f, v))
    (hp : portId? p = some q) :
    guardedStep p body (GPhase.body k) goto done s =
      .next (goto (GPhase.afterBody body k) (s.regWrite q f v)) := by
  obtain ⟨hk, _⟩ := List.getElem?_eq_some_iff.1 hb
  rw [guardedStep_body (Nat.lt_of_lt_of_le hk hlen)]
  simp only [bodyStep, hb, withPort_some hp]

theorem guardedStep_gR (hp : portId? p = some q) :
    guardedStep p body .gR goto done s = .next (done (s.unlock q)) := withPort_some hp _

end Guarded

section SubOperation

variable {s : State} {p : PortIndex} {q : PortId} {d : BitVec 32} {l : BreakLocals} {row : SubRow}

/-- A body in place has one to two writes (42_guarded_regops.md R179, R180). -/
theorem length_body_of_mem_subTable {P : Params} (h : row ∈ subTable P p d l) :
    0 < row.body.length ∧ row.body.length ≤ 3 := by
  simp only [subTable, List.mem_cons, List.not_mem_nil, or_false] at h
  obtain rfl | rfl | rfl := h <;> exact ⟨Nat.succ_pos _, Nat.le_of_ble_eq_true rfl⟩

/-- At each phase of a sub-operation the enclosing operation takes the guarded operation's micro-step. -/
theorem exec_sub {x : GPhase} (hrow : row ∈ subTable s.params p d l) (ho : s.op = .run row.instr (row.phase x)) :
    exec row.instr s = guardedStep p row.body x (fun x s => s.goto row.instr (row.phase x))
      (fun s => s.setOp row.after) s := by
  simp only [subTable, List.mem_cons, List.not_mem_nil, or_false] at hrow
  obtain rfl | rfl | rfl := hrow <;> exact operate_run ho

/-- Settles O36: each clause is the guarded table's micro-step in the enclosing operation's phases. -/
theorem subOperationMicroSteps : Obligations.SubOperationMicroSteps := by
  intro s p q d l row hrow i phaseIs
  have hlen : row.body.length ≤ 3 := (length_body_of_mem_subTable hrow).2
  refine ⟨fun ho hn => ?_, fun ho hq => ?_, fun ho hn => ?_, fun ho hq hl => ?_, fun c ho hq hl => ?_,
    fun k f v hb ho hp => ?_, fun ho hp => ?_⟩
  · exact (exec_sub hrow ho).trans (guardedStep_g0_null hn)
  · exact (exec_sub hrow ho).trans (guardedStep_g0_open hq)
  · exact (exec_sub hrow ho).trans (guardedStep_g1_null hn)
  · exact (exec_sub hrow ho).trans (guardedStep_g1_free hq hl)
  · exact (exec_sub hrow ho).trans (guardedStep_spin hq.1 hq.2 hl _ _ _)
  · obtain ⟨hk, _⟩ := List.getElem?_eq_some_iff.1 hb
    have hphase := bodyPhase_eq_body (Nat.lt_of_lt_of_le hk hlen)
    rw [← afterBody_eq_bodyPhase hlen]
    exact (exec_sub hrow (hphase ▸ ho)).trans (guardedStep_write hlen hb hp)
  · exact (exec_sub hrow ho).trans (guardedStep_gR hp)

/-! ### A guarded operation in place on a free lock -/

/-- After micro-steps that answer a next state come the others. -/
theorem execTimes_trans {m n : Nat} {i : Instr} {s t : State} (h : execTimes m i s = .next t) :
    execTimes (m + n) i s = execTimes n i t := by
  rw [execTimes_add, h, andThen_next]

theorem State.runningKnown.writeBody {s : State} (h : s.runningKnown) (q : PortId) (body : Body) :
    (s.writeBody q body).runningKnown := by
  rw [State.writeBody_eq]
  exact h

/-- The writes that remain, one for each micro-step, bring the enclosing operation from its place in the body to the
release. -/
theorem execTimes_sub_writes (hrow : row ∈ subTable s.params p d l) (hk : s.runningKnown) (hp : portId? p = some q)
    {done rest : Body} (hbody : row.body = done ++ rest) :
    execTimes rest.length row.instr (s.goto row.instr (row.phase (GPhase.written row.body done.length))) =
      .next ((s.writeBody q rest).goto row.instr (row.phase .gR)) := by
  induction rest generalizing s done with
  | nil =>
    have hend : GPhase.written row.body done.length = .gR := if_neg (by simp [hbody])
    rw [hend]
    rfl
  | cons fv rest ih =>
    have hlt : done.length < row.body.length := by simp [hbody]
    have hwrite : row.body[done.length]? = some fv := by simp [hbody]
    have hphase : GPhase.written row.body done.length = GPhase.body done.length := if_pos hlt
    have hstep : exec row.instr (s.goto row.instr (row.phase (GPhase.written row.body done.length))) =
        .next ((s.regWrite q fv.1 fv.2).goto row.instr
          (row.phase (GPhase.written row.body (done ++ [fv]).length))) := by
      rw [hphase, exec_sub (s := s.goto _ _) hrow (State.op_goto hk _ _),
        guardedStep_write (length_body_of_mem_subTable hrow).2 hwrite hp, List.length_append]
      exact congrArg _ (State.goto_goto (s := s.regWrite q fv.1 fv.2) (s.runningKnown_iff.1 hk) _ _ _ _)
    rw [List.length_cons, execTimes_next hstep]
    exact ih (s := s.regWrite q fv.1 fv.2) hrow hk (by rw [hbody, List.append_assoc]; rfl)

/-- A guarded operation in place, on an open port whose lock is free: the handle check, the acquisition, the writes and
the release, and the enclosing operation goes on. -/
theorem execTimes_sub (hrow : row ∈ subTable s.params p d l) (hk : s.runningKnown) (hq : s.isOpen p q)
    (hl : (s.port q).lock = .free) :
    execTimes (row.body.length + 3) row.instr (s.goto row.instr (row.phase .g0)) =
      .next ((((s.acquired q).writeBody q row.body).unlock q).setOp row.after) := by
  have hknown := s.runningKnown_iff.1 hk
  have hcheck : exec row.instr (s.goto row.instr (row.phase .g0)) = .next (s.goto row.instr (row.phase .g1)) := by
    rw [exec_sub (s := s.goto _ _) hrow (State.op_goto hk _ _), guardedStep_g0_open (s := s.goto _ _) hq]
    exact congrArg _ (State.goto_goto hknown _ _ _ _)
  have hacq : exec row.instr (s.goto row.instr (row.phase .g1)) =
      .next ((s.acquired q).goto row.instr (row.phase (GPhase.written row.body 0))) := by
    rw [exec_sub (s := s.goto _ _) hrow (State.op_goto hk _ _),
      guardedStep_g1_free (s := s.goto _ _) hq hl, GPhase.written, if_pos (length_body_of_mem_subTable hrow).1]
    exact congrArg _ (State.goto_goto (s := s.acquired q) hknown _ _ _ _)
  have hwrites := execTimes_sub_writes (s := s.acquired q) (done := []) hrow hk hq.1 rfl
  have hY := State.runningKnown.writeBody (s := s.acquired q) hk q row.body
  have hrel : exec row.instr (((s.acquired q).writeBody q row.body).goto row.instr (row.phase .gR)) =
      .next ((((s.acquired q).writeBody q row.body).unlock q).setOp row.after) := by
    rw [exec_sub (s := ((s.acquired q).writeBody q row.body).goto _ _)
      (by rw [State.goto_params, State.writeBody_params]; exact hrow) (State.op_goto hY _ _), guardedStep_gR hq.1]
    exact congrArg _ (State.setOp_setOp (((s.acquired q).writeBody q row.body).unlock q) _ _
      ((State.runningKnown_iff _).1 hY))
  rw [execTimes_next hcheck, execTimes_next hacq]
  exact (execTimes_trans hwrites).trans (execTimes_next hrel)

end SubOperation

/-! ### The micro-steps of `SEND_BREAK` (43_break.md R201) -/

section MicroSteps

variable {s : State} {p : PortIndex} {q : PortId} {d : BitVec 32} {l : BreakLocals}

theorem breakEntry_null {i : Instr} (hr : s.running = .main) (hn : s.handle p = .null) :
    breakEntry i p s = .next (s.raise (.nullPort p)) := by
  simp only [breakEntry, if_pos hr, State.livePort?_eq_none.2 hn]

theorem breakEntry_open {i : Instr} (hr : s.running = .main) (hq : s.isOpen p q) :
    breakEntry i p s = .next (s.goto i (.s1 (txPin s.params q))) := by
  simp only [breakEntry, if_pos hr, hq.livePort?, val_of_portId? hq.1]

theorem breakEntry_outside {i : Instr} (hr : s.running ≠ .main) :
    breakEntry i p s = .next (s.refuse .breakOutsideMain) := if_neg hr

theorem exec_break_run {ph : Phase} (ho : s.op = .run (.sendBreak p d) ph) :
    exec (.sendBreak p d) s = breakStep (.sendBreak p d) p (zextDuration d) ph s := operate_run ho

theorem exec_break_ready (h : s.ready) :
    exec (.sendBreak p d) s = breakEntry (.sendBreak p d) p (s.goto (.sendBreak p d) .s0) := operate_idle h.2

theorem exec_break_s0_null (h : s.ready) (hr : s.running = .main) (hn : s.handle p = .null) :
    exec (.sendBreak p d) s = .next ((s.raise (.nullPort p)).goto (.sendBreak p d) .s0) :=
  (exec_break_ready h).trans (breakEntry_null (s := s.goto _ _) hr hn)

theorem exec_break_s0_open (h : s.ready) (hr : s.running = .main) (hq : s.isOpen p q) :
    exec (.sendBreak p d) s = .next (s.goto (.sendBreak p d) (.s1 (txPin s.params q))) := by
  rw [exec_break_ready h, breakEntry_open (s := s.goto _ _) hr hq]
  exact congrArg _ (State.goto_goto h.known _ _ _ _)

/-- Outside `MAIN` the whole effect is the mark (R203): the context is idle as before. -/
theorem exec_break_s0_outside (h : s.ready) (hr : s.running ≠ .main) :
    exec (.sendBreak p d) s = .next (s.markRefused .breakOutsideMain) := by
  rw [exec_break_ready h, breakEntry_outside (s := s.goto _ _) hr]
  exact congrArg _ (State.finish_goto (s := s.markRefused .breakOutsideMain) h _ _)

theorem exec_break_s1 {pin : Nat} (ho : s.op = .run (.sendBreak p d) (.s1 pin)) (hp : portId? p = some q) :
    exec (.sendBreak p d) s = .next (s.goto (.sendBreak p d) (.s2 ⟨pin, (s.port q).regs.intEna⟩ .g0)) :=
  (exec_break_run ho).trans (withPort_some hp _)

variable {start target : Micros}

theorem exec_break_d2_reached (ho : s.op = .run (.sendBreak p d) (.s6 l (.d2 start target)))
    (hv : target ≤ s.now.1) : exec (.sendBreak p d) s = .next (s.now.2.goto (.sendBreak p d) (.s7 l)) := by
  rw [exec_break_run ho]
  exact congrArg _ (if_pos hv)

/-- Below the target the phase is written again with the same locals. -/
theorem exec_break_d2_below (ho : s.op = .run (.sendBreak p d) (.s6 l (.d2 start target)))
    (hv : s.now.1 < target) : exec (.sendBreak p d) s = .next s.now.2 := by
  rw [exec_break_run ho]
  refine congrArg _ ((if_neg (BitVec.not_le.2 hv)).trans ?_)
  exact State.setOp_self (s.now_op.trans ho)

end MicroSteps

/-- Settles O37: the entry and the snapshot by their laws, the pin's steps and the hold as the table of R201 writes
them. -/
theorem sendBreakMicroSteps : Obligations.SendBreakMicroSteps := by
  intro s p q d pin l i
  refine ⟨fun h hr hn => ?_, exec_break_s0_open, exec_break_s1, exec_break_run, exec_break_run, exec_break_run,
    exec_break_run, fun _ _ => exec_break_run, fun start target ho => ?_, exec_break_run, exec_break_run⟩
  · rw [exec_break_s0_null h hr hn, ← hr]
    rfl
  · exact ⟨exec_break_d2_reached ho, exec_break_d2_below ho⟩

/-- Settles O38: the refusal is the operation's whole effect, and a timer step marks nothing. -/
theorem sendBreakOutsideMainRefused : Obligations.SendBreakOutsideMainRefused := by
  intro s p d h hr
  exact ⟨exec_break_s0_outside h hr, ⟨_, exec_nowMicros_ready h, rfl⟩, ⟨_, exec_delayMicros_ready h, rfl⟩⟩

end Sys2Proof.Machine
end

section
/-! Whole runs of `SEND_BREAK` with no other agent stepping (43_break.md R201, R202, R204): from its presentation to the
hold, and from the end of the hold to its return. -/

namespace Sys2Proof.Machine

open Sys2Proof.Statements

theorem andThen_eq_next {r : Result} {k : State → Result} {t : State} (h : andThen r k = .next t) :
    ∃ u, r = .next u ∧ k u = .next t := by
  cases r with
  | next u => exact ⟨u, rfl, h⟩
  | fault f => cases h
  | refused f => cases h

/-- Micro-steps that answer a next state have a last one. -/
theorem execTimes_last {n : Nat} {i : Instr} {s t : State} (h : execTimes (n + 1) i s = .next t) :
    ∃ u, execTimes n i s = .next u ∧ exec i u = .next t := by
  rw [execTimes_add] at h
  obtain ⟨u, hu, h⟩ := andThen_eq_next h
  obtain ⟨v, hv, h⟩ := andThen_eq_next h
  exact ⟨u, hu, hv.trans h⟩

/-! ### What a run of `SEND_BREAK` changes -/

/-- The state with other pins and ports and with more events: all that `SEND_BREAK` changes outside the timer and the
operation state (43_break.md R201). -/
def State.changed (s : State) (pins : List (Nat × Pin)) (ports : Vector Port nports) (es : List Event) : State :=
  { s with pins := pins, ports := ports, trace := s.trace ++ es }

theorem State.port_changed_set (s : State) (q : PortId) (x : Port) (pins : List (Nat × Pin)) (es : List Event) :
    (s.changed pins (s.ports.set q x) es).port q = x := State.port_setPort_self s q x

theorem State.changed_changed (s : State) (pins pins' : List (Nat × Pin)) (ports ports' : Vector Port nports)
    (es es' : List Event) :
    (s.changed pins ports es).changed pins' ports' es' = s.changed pins' ports' (es ++ es') := by
  simp only [State.changed, List.append_assoc]

/-- The state with the pin detached, an output and low (43_break.md R201 `s3` to `s5`). -/
def State.pinLowered (s : State) (n : Nat) : State := ((s.pinDetach n).pinOutput n).pinWrite n false

/-- The state with the pin high and attached (43_break.md R201 `s7`, `s8`). -/
def State.pinRestored (s : State) (n : Nat) (sig : Sig) : State := (s.pinWrite n true).pinAttach n sig

section Pins

variable (s : State)

theorem State.pinLowered_eq (n : Nat) :
    s.pinLowered n = s.changed (s.pinLowered n).pins s.ports [.mux n .detached, .line n false] := by
  have htrace : (s.pinLowered n).trace = s.trace ++ ([.mux n .detached, .line n false] : List Event) :=
    List.append_assoc ..
  rw [State.changed, ← htrace]
  rfl

theorem State.pinRestored_eq (n : Nat) (sig : Sig) :
    s.pinRestored n sig = s.changed (s.pinRestored n sig).pins s.ports [.line n true, .mux n (.attached sig)] := by
  have htrace : (s.pinRestored n sig).trace = s.trace ++ ([.line n true, .mux n (.attached sig)] : List Event) :=
    List.append_assoc ..
  rw [State.changed, ← htrace]
  rfl

variable {s}

theorem State.pin_of_pins_set {t : State} (hwf : Pins.wf s.pins = true) {n : Nat} {x : Pin}
    (h : t.pins = Pins.set s.pins n x) (k : Nat) : t.pin k = if n = k then x else s.pin k := by
  rw [State.pin, h]
  exact Pins.get_set hwf n k x

theorem State.pinLowered_wf (hwf : Pins.wf s.pins = true) (n : Nat) : Pins.wf (s.pinLowered n).pins = true :=
  Pins.wf_set (Pins.wf_set (Pins.wf_set hwf _ _) _ _) _ _

theorem State.pinLowered_pin (hwf : Pins.wf s.pins = true) (n k : Nat) :
    (s.pinLowered n).pin k =
      if n = k then { s.pin n with mux := .detached, dir := .output, level := false } else s.pin k := by
  have hdetach := State.pin_of_pins_set hwf (s.pinDetach_pins n)
  have houtput := State.pin_of_pins_set (t := (s.pinDetach n).pinOutput n) (Pins.wf_set hwf _ _) rfl
  have hwrite := State.pin_of_pins_set (t := s.pinLowered n) (Pins.wf_set (Pins.wf_set hwf _ _) _ _) rfl
  rw [hwrite, houtput, houtput, hdetach, hdetach]
  split
  · simp
  · rfl

theorem State.pinRestored_pin (hwf : Pins.wf s.pins = true) (n : Nat) (sig : Sig) (k : Nat) :
    (s.pinRestored n sig).pin k =
      if n = k then { s.pin n with mux := .attached sig, level := true } else s.pin k := by
  have hwrite := State.pin_of_pins_set hwf (s.pinWrite_pins n true)
  have hattach := State.pin_of_pins_set (t := s.pinRestored n sig) (Pins.wf_set hwf _ _) rfl
  rw [hattach, hwrite, hwrite]
  split
  · simp
  · rfl

end Pins

/-! ### The two sub-operations on a free lock -/

/-- The effect of `DISABLE_ALL_INTS` on a free lock (42_guarded_regops.md R179). -/
def State.intsDisabled (s : State) (q : PortId) : State :=
  s.changed s.pins (s.ports.set q { s.port q with regs := { (s.port q).regs with intEna := 0, intRaw := 0 } })
    [.acq q s.running, .regW q .intEna 0, .regW q .intClr (2 ^ s.params.intW - 1), .rel q s.running]

/-- The effect of `SET_INT_MASK` on a free lock, of a value within the mask's width (42_guarded_regops.md R180). -/
def State.maskSet (s : State) (q : PortId) (v : Nat) : State :=
  s.changed s.pins (s.ports.set q { s.port q with regs := { (s.port q).regs with intEna := v } })
    [.acq q s.running, .regW q .intEna v, .rel q s.running]

section Runs

variable {s : State} {p : PortIndex} {q : PortId} {d : BitVec 32} {l : BreakLocals}

theorem State.unlock_disableAllInts (hl : (s.port q).lock = .free) :
    ((s.acquired q).writeBody q (disableAllIntsBody s.params)).unlock q = s.intsDisabled q := by
  have hclr : storedValue s.params .intClr (allOnes s.params.intW) = allOnes s.params.intW :=
    trunc_of_lt (allOnes_lt _)
  rw [State.unlock_writeBody_acquired hl]
  simp only [disableAllIntsBody, Regs.writeBody_cons, Regs.writeBody_nil, Regs.write, bodyEvents_cons,
    bodyEvents_nil, hclr, clearFlags_allOnes]
  rfl

theorem State.unlock_setIntMask (hl : (s.port q).lock = .free) {v : Nat} (hv : v < 2 ^ s.params.intW) :
    ((s.acquired q).writeBody q (setIntMaskBody v)).unlock q = s.maskSet q v := by
  have hena : storedValue s.params .intEna v = v := trunc_of_lt hv
  rw [State.unlock_writeBody_acquired hl]
  simp only [setIntMaskBody, Regs.writeBody_cons, Regs.writeBody_nil, Regs.write, bodyEvents_cons, bodyEvents_nil,
    hena]
  rfl

theorem execTimes_break_s2 (hk : s.runningKnown) (hq : s.isOpen p q) (hl : (s.port q).lock = .free) :
    execTimes 5 (.sendBreak p d) (s.goto (.sendBreak p d) (.s2 l .g0)) =
      .next ((s.intsDisabled q).goto (.sendBreak p d) (.s3 l)) := by
  rw [← State.unlock_disableAllInts hl]
  exact execTimes_sub (d := d) (l := l) List.mem_cons_self hk hq hl

theorem execTimes_break_s9 (hk : s.runningKnown) (hq : s.isOpen p q) (hl : (s.port q).lock = .free)
    (hsnap : l.snap < 2 ^ s.params.intW) :
    execTimes 4 (.sendBreak p d) (s.goto (.sendBreak p d) (.s9 l .g0)) = .next (s.maskSet q l.snap).finish := by
  rw [← State.unlock_setIntMask hl hsnap]
  exact execTimes_sub (d := d) (l := l) (List.mem_cons_of_mem _ List.mem_cons_self) hk hq hl

/-! ### The runs -/

/-- A micro-step from one phase of `SEND_BREAK` that changes the state to `t` and goes on at another. -/
theorem exec_break_goto {t : State} {ph ph' : Phase} (hk : s.runningKnown) (ht : t.ctxs = s.ctxs)
    (hr : t.running = s.running)
    (h : breakStep (.sendBreak p d) p (zextDuration d) ph (s.goto (.sendBreak p d) ph) =
      .next ((t.goto (.sendBreak p d) ph).goto (.sendBreak p d) ph')) :
    exec (.sendBreak p d) (s.goto (.sendBreak p d) ph) = .next (t.goto (.sendBreak p d) ph') := by
  rw [exec_break_run (State.op_goto hk _ _), h,
    State.goto_goto (by rw [ht, hr]; exact s.runningKnown_iff.1 hk)]

/-- The three writes of the pin before the hold (R201 `s3` to `s5`). -/
theorem execTimes_break_lowers (hk : s.runningKnown) :
    execTimes 3 (.sendBreak p d) (s.goto (.sendBreak p d) (.s3 l)) =
      .next ((s.pinLowered l.pin).goto (.sendBreak p d) (.s6 l .d0)) := by
  have hdetach : exec (.sendBreak p d) (s.goto (.sendBreak p d) (.s3 l)) =
      .next ((s.pinDetach l.pin).goto (.sendBreak p d) (.s4 l)) := exec_break_goto hk rfl rfl rfl
  have houtput : exec (.sendBreak p d) ((s.pinDetach l.pin).goto (.sendBreak p d) (.s4 l)) =
      .next (((s.pinDetach l.pin).pinOutput l.pin).goto (.sendBreak p d) (.s5 l)) :=
    exec_break_goto (s := s.pinDetach l.pin) hk rfl rfl rfl
  have hlow : exec (.sendBreak p d) (((s.pinDetach l.pin).pinOutput l.pin).goto (.sendBreak p d) (.s5 l)) =
      .next ((s.pinLowered l.pin).goto (.sendBreak p d) (.s6 l .d0)) :=
    exec_break_goto (s := (s.pinDetach l.pin).pinOutput l.pin) hk rfl rfl rfl
  rw [execTimes_next hdetach, execTimes_next houtput, execTimes_next hlow]
  rfl

/-- From its presentation to the hold (R201 `s0` to `s5`). -/
theorem execTimes_break_reaches_hold (h : s.ready) (hr : s.running = .main) (hq : s.isOpen p q)
    (hl : (s.port q).lock = .free) :
    execTimes 10 (.sendBreak p d) s =
      .next (((s.intsDisabled q).pinLowered (txPin s.params q)).goto (.sendBreak p d)
        (.s6 ⟨txPin s.params q, (s.port q).regs.intEna⟩ .d0)) := by
  have hsnap : exec (.sendBreak p d) (s.goto (.sendBreak p d) (.s1 (txPin s.params q))) =
      .next (s.goto (.sendBreak p d) (.s2 ⟨txPin s.params q, (s.port q).regs.intEna⟩ .g0)) :=
    exec_break_goto h.1 rfl rfl (withPort_some hq.1 _)
  rw [execTimes_next (exec_break_s0_open h hr hq), execTimes_next hsnap]
  exact (execTimes_trans (execTimes_break_s2 h.1 hq hl)).trans (execTimes_break_lowers (s := s.intsDisabled q) h.1)

/-- From the end of the hold to the return (R201 `s7` to `s9`). -/
theorem execTimes_break_restores (hk : s.runningKnown) (hq : s.isOpen p q) (hl : (s.port q).lock = .free)
    (hsnap : l.snap < 2 ^ s.params.intW) :
    execTimes 6 (.sendBreak p d) (s.goto (.sendBreak p d) (.s7 l)) =
      .next ((s.pinRestored l.pin (.uartTx q)).maskSet q l.snap).finish := by
  have hsig : sigTx p.toNat = .uartTx q := congrArg _ (val_of_portId? hq.1).symm
  have hhigh : exec (.sendBreak p d) (s.goto (.sendBreak p d) (.s7 l)) =
      .next ((s.pinWrite l.pin true).goto (.sendBreak p d) (.s8 l)) := exec_break_goto hk rfl rfl rfl
  have hattach : exec (.sendBreak p d) ((s.pinWrite l.pin true).goto (.sendBreak p d) (.s8 l)) =
      .next ((s.pinRestored l.pin (.uartTx q)).goto (.sendBreak p d) (.s9 l .g0)) := by
    rw [← hsig]
    exact exec_break_goto (s := s.pinWrite l.pin true) hk rfl rfl rfl
  rw [execTimes_next hhigh, execTimes_next hattach]
  exact execTimes_break_s9 (s := s.pinRestored l.pin (.uartTx q)) hk hq hl hsnap

end Runs

/-- What `s0` to `s5` change, apart from the operation state. -/
theorem State.pinLowered_intsDisabled {s : State} (hr : s.running = .main) (q : PortId) (n : Nat) :
    (s.intsDisabled q).pinLowered n = s.changed ((s.intsDisabled q).pinLowered n).pins
      (s.ports.set q { s.port q with regs := { (s.port q).regs with intEna := 0, intRaw := 0 } })
      [.acq q .main, .regW q .intEna 0, .regW q .intClr (2 ^ s.params.intW - 1), .rel q .main,
        .mux n .detached, .line n false] := by
  conv_lhs => rw [State.pinLowered_eq, State.intsDisabled, State.changed_changed, hr]
  rfl

/-- Settles O39, by the ten micro-steps from the presentation to the hold and what the pin's three writes leave of it. -/
theorem sendBreakReachesHold : Obligations.SendBreakReachesHold := by
  intro s p q d hwf h hr hq hl n
  have hrun := execTimes_break_reaches_hold (d := d) h hr hq hl
  have hpin : ∀ k, ((s.intsDisabled q).pinLowered n).pin k = _ := State.pinLowered_pin hwf n
  rw [State.pinLowered_intsDisabled hr] at hrun hpin
  refine ⟨_, hrun, State.op_goto h.1 _ _, (hpin n).trans (if_pos rfl), fun k hk => (hpin k).trans (if_neg hk.symm),
    fun c hc => State.opOf_setOp_ne (fun e => hc (e.symm.trans hr)) _, State.resultOf_setOp _ _, rfl⟩

/-- What `s7` to `s9` change, apart from the operation state. -/
theorem State.maskSet_pinRestored (s : State) (q : PortId) (n v : Nat) :
    (s.pinRestored n (.uartTx q)).maskSet q v = s.changed (s.pinRestored n (.uartTx q)).pins
      (s.ports.set q { s.port q with regs := { (s.port q).regs with intEna := v } })
      [.line n true, .mux n (.attached (.uartTx q)), .acq q s.running, .regW q .intEna v, .rel q s.running] := by
  conv_lhs => rw [State.pinRestored_eq, State.maskSet, State.changed_changed]
  rfl

/-- Settles O40, by the six micro-steps from `s7` to the return and what the pin's two writes leave of it. -/
theorem sendBreakRestores : Obligations.SendBreakRestores := by
  intro s p q d l hwf ho hsnap hq hl
  have hk := State.known_of_op ho
  have hrun := execTimes_break_restores (d := d) (s.runningKnown_iff.2 hk) hq hl hsnap
  have hpin : ∀ k, ((s.pinRestored l.pin (.uartTx q)).maskSet q l.snap).pin k = _ :=
    State.pinRestored_pin hwf l.pin (.uartTx q)
  rw [State.goto, State.setOp_self ho] at hrun
  rw [State.maskSet_pinRestored] at hrun hpin
  obtain ⟨u, hu, ht⟩ := execTimes_last hrun
  exact ⟨u, _, hu, ht, State.op_setOp hk _, (hpin l.pin).trans (if_pos rfl),
    fun k hk => (hpin k).trans (if_neg hk.symm), fun c hc => State.opOf_setOp_ne hc.symm _, State.resultOf_setOp _ _, rfl⟩

/-! ### A hold of no microseconds (R201 (a)) -/

/-- The state with the timer as a sample leaves it, and the sample not on record. -/
def State.sampled (s : State) : State := { s with tAcc := s.now.2.tAcc, tLast := s.ccount, tCrit := .free }

theorem State.sampled_changed (s : State) (pins : List (Nat × Pin)) (ports : Vector Port nports) (es : List Event) :
    (s.changed pins ports es).sampled = s.sampled.changed pins ports es := rfl

/-- The end of an operation in a context that was idle before it. -/
theorem State.finish_sampled {s : State} (h : s.op = .idle) (pins : List (Nat × Pin)) (ports : Vector Port nports)
    (es : List Event) : (s.sampled.changed pins ports es).finish = s.sampled.changed pins ports es :=
  State.setOp_self (s := s.sampled.changed pins ports es) h

/-- A sample that is recorded twice. -/
theorem State.record_now (s : State) :
    s.now.2.record (.now s.running s.ccount s.now.1) = s.sampled.changed s.pins s.ports
      [.now s.running s.ccount s.now.1, .now s.running s.ccount s.now.1] := by
  rw [State.record, State.now_trace, List.append_assoc]
  rfl

/-- The target is the start, which the second timer step at the same cycle reads again. -/
theorem execTimes_break_holds_zero {s : State} {p : PortIndex} {l : BreakLocals} (hk : s.runningKnown) :
    execTimes 2 (.sendBreak p 0) (s.goto (.sendBreak p 0) (.s6 l .d0)) =
      .next ((s.sampled.changed s.pins s.ports
        [.now s.running s.ccount s.now.1, .now s.running s.ccount s.now.1]).goto (.sendBreak p 0) (.s7 l)) := by
  have htarget : s.now.1 + zextDuration 0 = s.now.1 := BitVec.add_zero _
  have hentry : exec (.sendBreak p 0) (s.goto (.sendBreak p 0) (.s6 l .d0)) =
      .next (s.now.2.goto (.sendBreak p 0) (.s6 l (delayEntry s.now.1 (s.now.1 + zextDuration 0)))) :=
    exec_break_goto hk rfl rfl rfl
  rw [htarget, delayEntry_of_le (BitVec.le_refl _)] at hentry
  have hreached : s.now.1 ≤ (s.now.2.goto (.sendBreak p 0) (.s6 l (.d2 s.now.1 s.now.1))).now.1 := by
    rw [State.now_goto_now]
    exact BitVec.le_refl _
  rw [execTimes_next hentry, execTimes_next (exec_break_d2_reached (State.op_goto (s := s.now.2) hk _ _) hreached),
    State.now_goto_now, State.record_now]
  exact congrArg Host.Outcome.next (State.goto_goto (s := s.sampled.changed _ _ _) (s.runningKnown_iff.1 hk) _ _ _ _)

/-! ### A whole `SEND_BREAK` of no microseconds -/

/-- The rest of the run from the beginning of the hold, the events `es` before it: the two samples, the pin and the
mask, and the context idle as before the run. -/
theorem execTimes_break_zero_from_hold {s : State} {p : PortIndex} {q : PortId} {l : BreakLocals}
    {pins : List (Nat × Pin)} {ports : Vector Port nports} {es : List Event} (h : s.ready)
    (hq : (s.changed pins ports es).isOpen p q) (hl : ((s.changed pins ports es).port q).lock = .free)
    (hsnap : l.snap < 2 ^ s.params.intW) :
    execTimes 8 (.sendBreak p 0) ((s.changed pins ports es).goto (.sendBreak p 0) (.s6 l .d0)) =
      .next (s.sampled.changed ((s.changed pins ports es).pinRestored l.pin (.uartTx q)).pins
        (ports.set q { (s.changed pins ports es).port q with
          regs := { ((s.changed pins ports es).port q).regs with intEna := l.snap } })
        (es ++ ([.now s.running s.ccount s.now.1, .now s.running s.ccount s.now.1, .line l.pin true,
          .mux l.pin (.attached (.uartTx q)), .acq q s.running, .regW q .intEna l.snap,
          .rel q s.running] : List Event))) := by
  have hhold := execTimes_break_holds_zero (p := p) (l := l) (s := s.changed pins ports es) h.1
  rw [State.sampled_changed, State.changed_changed] at hhold
  have hrest := execTimes_break_restores (p := p) (q := q) (d := 0) (l := l)
    (s := s.sampled.changed pins ports
      (es ++ ([.now s.running s.ccount s.now.1, .now s.running s.ccount s.now.1] : List Event))) h.1 hq hl hsnap
  rw [State.maskSet_pinRestored, State.changed_changed, State.finish_sampled h.2, List.append_assoc] at hrest
  exact (execTimes_trans hhold).trans hrest

/-- The run as a whole: its timer state, its port and its events. -/
theorem execTimes_break_zero {s : State} {p : PortIndex} {q : PortId} (h : s.ready) (hr : s.running = .main)
    (hq : s.isOpen p q) (hl : (s.port q).lock = .free) (hmask : (s.port q).regs.intEna < 2 ^ s.params.intW) :
    execTimes 18 (.sendBreak p 0) s = .next (s.sampled.changed
      (((s.intsDisabled q).pinLowered (txPin s.params q)).pinRestored (txPin s.params q) (.uartTx q)).pins
      (s.ports.set q { s.port q with regs := { (s.port q).regs with intRaw := 0 } })
      [.acq q .main, .regW q .intEna 0, .regW q .intClr (2 ^ s.params.intW - 1), .rel q .main,
        .mux (txPin s.params q) .detached, .line (txPin s.params q) false, .now .main s.ccount s.now.1,
        .now .main s.ccount s.now.1, .line (txPin s.params q) true,
        .mux (txPin s.params q) (.attached (.uartTx q)), .acq q .main,
        .regW q .intEna (s.port q).regs.intEna, .rel q .main]) := by
  have hreach := execTimes_break_reaches_hold (d := 0) h hr hq hl
  rw [State.pinLowered_intsDisabled hr] at hreach ⊢
  generalize ((s.intsDisabled q).pinLowered (txPin s.params q)).pins = pins at hreach ⊢
  have hport := State.port_changed_set s q { s.port q with regs := { (s.port q).regs with intEna := 0, intRaw := 0 } }
    pins
  refine (execTimes_trans (n := 8) hreach).trans ?_
  rw [execTimes_break_zero_from_hold h ⟨hq.1, (congrArg Port.handle (hport _)).trans hq.2⟩
    ((congrArg Port.lock (hport _)).trans hl) hmask, hport, Vector.set_set, hr]
  rfl

/-- The port's pin after the run, whatever it was before, and every other pin. -/
theorem State.get_pins_break {s : State} (hwf : Pins.wf s.pins = true) (q : PortId) (n k : Nat) :
    Pins.get (((s.intsDisabled q).pinLowered n).pinRestored n (.uartTx q)).pins k =
      if n = k then { s.pin n with mux := .attached (.uartTx q), dir := .output, level := true } else s.pin k := by
  have hlowered := State.pinLowered_pin (s := s.intsDisabled q) hwf n
  have hrestored := State.pinRestored_pin (State.pinLowered_wf (s := s.intsDisabled q) hwf n) n (.uartTx q) k
  rw [hlowered, hlowered, if_pos rfl] at hrestored
  refine hrestored.trans ?_
  split
  · rfl
  · rfl

/-- Settles O41: the invariant holds the mask within its width, so that the snapshot is restored whole, and `T_CRIT`
free, as a sample leaves it. -/
theorem sendBreakZeroCompletes : Obligations.SendBreakZeroCompletes := by
  intro s p q hinv h hr hq hl n
  have hmask : (s.port q).regs.intEna < 2 ^ s.params.intW := (Regs.fit_eq_self.1 (hinv.regs_fit q)).intEna
  have hsampled : s.sampled = { s with tAcc := s.now.2.tAcc, tLast := s.ccount } := by
    rw [State.sampled, ← hinv.crit_free]
  have hpin := State.get_pins_break hinv.pins_wf q (txPin s.params q)
  have hrun := execTimes_break_zero h hr hq hl hmask
  rw [hsampled] at hrun
  generalize (((s.intsDisabled q).pinLowered (txPin s.params q)).pinRestored (txPin s.params q) (.uartTx q)).pins = pins
    at hpin hrun
  obtain ⟨u, hu, ht⟩ := execTimes_last hrun
  exact ⟨u, _, hu, ht, (hpin n).trans (if_pos rfl), fun k hk => (hpin k).trans (if_neg hk.symm), rfl⟩

end Sys2Proof.Machine
end

section
/-! The facade (44_facade.md): `OPEN` (R221), `SET_BAUD` (R222), `END` (R223), `GET_DBG_PORT` (R224), `SET_DBG_PORT`
(R225), and the steps that change a handle (R226). -/

namespace Sys2Proof.Machine

open Sys2Proof.Statements

/-! ### `OPEN` (R221) -/

theorem portId?_eq_none {p : PortIndex} (h : nports ≤ p.toNat) : portId? p = none := dif_neg (Nat.not_lt.2 h)

theorem State.openPort_port_self (s : State) (q : PortId) : (s.openPort q).port q = s.openedPort :=
  State.port_setPort_self s q _

/-- `OPEN` writes the port's own transmit pin and no other. -/
theorem State.openPort_pin {s : State} (h : Pins.wf s.pins = true) (q : PortId) (n : Nat) :
    (s.openPort q).pin n = if txPin s.params q = n then Config.openPin s.draws else s.pin n :=
  State.pin_of_pins_set h (s.openPort_pins q) n

/-- The next token is one that no port holds. -/
theorem Inv.token_fresh {s : State} (h : Inv s) (q : PortId) : (s.port q).evq ≠ some s.nextQueue :=
  fun he => Nat.lt_irrefl _ (h.tokens_given q _ he)

section Open

variable {s : State} {p : PortIndex} {q : PortId}

theorem exec_openPort_ready (h : s.ready) :
    exec (.openPort p) s = openStep p .o0 (s.goto (.openPort p) .o0) := operate_idle h.2

theorem exec_openPort_missing (h : s.ready) (hp : nports ≤ p.toNat) :
    exec (.openPort p) s = .next ((s.raise (.badPort p)).goto (.openPort p) .o0) := by
  rw [exec_openPort_ready h]
  simp only [openStep, portId?_eq_none hp]
  rfl

theorem exec_openPort_already (h : s.ready) (hq : s.isOpen p q) :
    exec (.openPort p) s = .next ((s.raise (.portAlreadyOpen p)).goto (.openPort p) .o0) := by
  rw [exec_openPort_ready h]
  simp only [openStep, hq.1]
  exact if_pos hq.2

theorem exec_openPort_closed (h : s.ready) (hp : portId? p = some q) (hn : (s.port q).handle = .null) :
    exec (.openPort p) s = .next (s.openPort q) := by
  have hclosed : ¬ (s.port q).handle = .valid := by
    rw [hn]
    exact Handle.noConfusion
  rw [exec_openPort_ready h]
  simp only [openStep, hp]
  exact (if_neg hclosed).trans (congrArg _ (State.finish_goto (s := s.openPort q) h _ _))

end Open

/-- Settles O43, the closed port by the micro-step's law and what `State.openPort` leaves in the port and its pin. -/
theorem openPortEffect : Obligations.OpenPortEffect := by
  intro s p h
  refine ⟨exec_openPort_missing h, fun q => exec_openPort_already h,
    fun q hp hn => ⟨s.openPort q, exec_openPort_closed h hp hn, ?_⟩⟩
  rw [State.openPort_port_self]
  refine ⟨rfl, rfl, rfl, Nat.lt_succ_self _, Inv.token_fresh, rfl, rfl, fun hwf => ⟨?_, fun k hk => ?_⟩, rfl⟩
  · rw [State.openPort_pin hwf, if_pos rfl]
  · rw [State.openPort_pin hwf, if_neg hk.symm]

/-! ### `SET_BAUD` (R222) -/

/-- The refusal is the operation's whole effect: the context is idle as before. -/
theorem exec_setBaud_ready {s : State} (h : s.ready) (p : PortIndex) (v : BitVec 32) :
    exec (.setBaud p v) s = .next (s.markRefused .baudNotInBlock) := by
  have hmicro : exec (.setBaud p v) s = .next ((s.goto (.setBaud p v) .u0).refuse .baudNotInBlock) :=
    operate_idle h.2
  rw [hmicro]
  exact congrArg _ (State.finish_goto (s := s.markRefused .baudNotInBlock) h _ _)

/-- Settles O44: the word is an encoding, and the micro-step marks the run. -/
theorem setBaudRefused : Obligations.SetBaudRefused :=
  ⟨decodeOfEncode (.setBaud 2 250000) rfl,
    fun _ p v h => ⟨decodeOfEncode (.setBaud p v) rfl, exec_setBaud_ready h p v⟩⟩

/-! ### The micro-steps of `END` (R223) -/

section End

variable {s : State} {p : PortIndex} {q : PortId}

theorem exec_end_run {ph : Phase} (ho : s.op = .run (.endPort p) ph) :
    exec (.endPort p) s = endStep (.endPort p) p ph s := operate_run ho

theorem exec_end_ready (h : s.ready) :
    exec (.endPort p) s = endStep (.endPort p) p .e0 (s.goto (.endPort p) .e0) := operate_idle h.2

theorem exec_end_e0_null (h : s.ready) (hn : s.handle p = .null) :
    exec (.endPort p) s = .next ((s.raise (.nullPort p)).goto (.endPort p) .e0) := by
  have hdead : (s.goto (.endPort p) .e0).livePort? p = none := State.livePort?_eq_none.2 hn
  rw [exec_end_ready h]
  simp only [endStep, hdead]
  rfl

theorem exec_end_e0_open (h : s.ready) (hq : s.isOpen p q) :
    exec (.endPort p) s = .next (s.goto (.endPort p) (.e1 .g0)) := by
  have hlive : (s.goto (.endPort p) .e0).livePort? p = some q := hq.livePort?
  rw [exec_end_ready h]
  simp only [endStep, hlive]
  rw [State.goto_goto h.known]

theorem exec_end_e2 (ho : s.op = .run (.endPort p) .e2) :
    exec (.endPort p) s = .next ((s.clearDbgPort p).goto (.endPort p) .e3) := exec_end_run ho

theorem exec_end_e3 (ho : s.op = .run (.endPort p) .e3) (hp : portId? p = some q) :
    exec (.endPort p) s = .next ((s.releasePort q).goto (.endPort p) .e4) :=
  (exec_end_run ho).trans (withPort_some hp _)

theorem exec_end_e4 (ho : s.op = .run (.endPort p) .e4) (hp : portId? p = some q) :
    exec (.endPort p) s = .next (s.nullHandle q).finish :=
  (exec_end_run ho).trans (withPort_some hp _)

end End

/-- Settles O45, each clause by the micro-step's law. -/
theorem endMicroSteps : Obligations.EndMicroSteps :=
  fun _ _ _ => ⟨exec_end_e0_null, exec_end_e0_open, exec_end_e2, exec_end_e3, exec_end_e4⟩

/-! ### A whole `END` on a free lock (R223) -/

/-- The state after `e2` to `e4`: the designation cleared, the event queue and the lock released, the handle null. -/
def State.endedPort (s : State) (p : PortIndex) (q : PortId) : State :=
  ((s.clearDbgPort p).releasePort q).nullHandle q

/-- What `e2` to `e4` change. -/
theorem State.endedPort_eq (s : State) (p : PortIndex) (q : PortId) :
    s.endedPort p q = { s with
      ports := s.ports.set q { s.port q with handle := .null, evq := none, lock := .free }
      dbgPort := if s.dbgPort = some p then none else s.dbgPort } := by
  have hports : (s.endedPort p q).ports =
      s.ports.set q { s.port q with handle := .null, evq := none, lock := .free } := by
    have hreleased : ((s.clearDbgPort p).releasePort q).port q = { s.port q with evq := none, lock := .free } :=
      State.port_setPort_self (s.clearDbgPort p) q _
    rw [State.endedPort, State.nullHandle_ports, hreleased, State.releasePort_ports, Vector.set_set]
    rfl
  rw [← hports]
  rfl

section EndRun

variable {s : State} {p : PortIndex} {q : PortId}

/-- The sub-operation on a free lock (42_guarded_regops.md R179). -/
theorem execTimes_end_e1 (hk : s.runningKnown) (hq : s.isOpen p q) (hl : (s.port q).lock = .free) :
    execTimes 5 (.endPort p) (s.goto (.endPort p) (.e1 .g0)) = .next ((s.intsDisabled q).goto (.endPort p) .e2) := by
  have hrow : (⟨.endPort p, .e1, .run (.endPort p) .e2, disableAllIntsBody s.params⟩ : SubRow) ∈
      subTable s.params p 0 ⟨0, 0⟩ := List.mem_cons_of_mem _ (List.mem_cons_of_mem _ List.mem_cons_self)
  rw [← State.unlock_disableAllInts hl]
  exact execTimes_sub hrow hk hq hl

/-- The three micro-steps after the sub-operation. -/
theorem execTimes_end_e2 (hk : s.runningKnown) (hp : portId? p = some q) :
    execTimes 3 (.endPort p) (s.goto (.endPort p) .e2) = .next (s.endedPort p q).finish := by
  have hknown := s.runningKnown_iff.1 hk
  have hclear : exec (.endPort p) (s.goto (.endPort p) .e2) = .next ((s.clearDbgPort p).goto (.endPort p) .e3) :=
    (exec_end_e2 (State.op_goto hk _ _)).trans
      (congrArg _ (State.goto_goto (s := s.clearDbgPort p) hknown _ _ _ _))
  have hrelease : exec (.endPort p) ((s.clearDbgPort p).goto (.endPort p) .e3) =
      .next (((s.clearDbgPort p).releasePort q).goto (.endPort p) .e4) :=
    (exec_end_e3 (State.op_goto (s := s.clearDbgPort p) hk _ _) hp).trans
      (congrArg _ (State.goto_goto (s := (s.clearDbgPort p).releasePort q) hknown _ _ _ _))
  have hnull : exec (.endPort p) (((s.clearDbgPort p).releasePort q).goto (.endPort p) .e4) =
      .next (s.endedPort p q).finish :=
    (exec_end_e4 (State.op_goto (s := (s.clearDbgPort p).releasePort q) hk _ _) hp).trans
      (congrArg _ (State.setOp_setOp (s.endedPort p q) _ _ hknown))
  rw [execTimes_next hclear, execTimes_next hrelease, execTimes_next hnull]
  rfl

/-- From its presentation to its return: `e0`, the five micro-steps of the sub-operation, and `e2` to `e4`. -/
theorem execTimes_end (h : s.ready) (hq : s.isOpen p q) (hl : (s.port q).lock = .free) :
    execTimes 9 (.endPort p) s = .next ((s.intsDisabled q).endedPort p q) := by
  have hafter := execTimes_end_e2 (s := s.intsDisabled q) h.1 hq.1
  have hidle : ((s.intsDisabled q).endedPort p q).finish = (s.intsDisabled q).endedPort p q := State.setOp_self h.2
  rw [hidle] at hafter
  rw [execTimes_next (exec_end_e0_open h hq)]
  exact (execTimes_trans (execTimes_end_e1 h.1 hq hl)).trans hafter

/-- The whole effect on a free lock. -/
theorem State.endedPort_intsDisabled (hl : (s.port q).lock = .free) (p : PortIndex) :
    (s.intsDisabled q).endedPort p q = { s with
      ports := s.ports.set q { s.port q with
        handle := .null
        evq := none
        regs := { (s.port q).regs with intEna := 0, intRaw := 0 } }
      dbgPort := if s.dbgPort = some p then none else s.dbgPort
      trace := s.trace ++ [.acq q s.running, .regW q .intEna 0, .regW q .intClr (2 ^ s.params.intW - 1),
        .rel q s.running] } := by
  have hport : (s.intsDisabled q).port q =
      { s.port q with regs := { (s.port q).regs with intEna := 0, intRaw := 0 } } := State.port_changed_set s q _ _ _
  have hports : (s.intsDisabled q).ports =
      s.ports.set q { s.port q with regs := { (s.port q).regs with intEna := 0, intRaw := 0 } } := rfl
  rw [State.endedPort_eq, hport, hports, Vector.set_set, ← hl]
  rfl

end EndRun

/-- Settles O46, by the nine micro-steps and what the last of them leaves. -/
theorem endPortCompletes : Obligations.EndPortCompletes := by
  intro s p q h hq hl
  rw [← State.endedPort_intsDisabled hl]
  exact execTimes_last (execTimes_end h hq hl)

/-! ### The debug-port designation (R224, R225) -/

/-- The port index lies below the valid flag, so that the disjunction is a sum. -/
theorem dbgResult_some (p : PortIndex) : dbgResult (some p) = BitVec.ofNat 64 (0x100 + p.toNat) := by
  have hlt : p.toNat < 2 ^ 8 := p.isLt
  have hor : 0x100 ||| p.toNat = 0x100 + p.toNat := (Nat.two_pow_add_eq_or_of_lt hlt 1).symm
  rw [← hor]
  apply BitVec.eq_of_toNat_eq
  simp [dbgResult]

theorem exec_getDbgPort_ready {s : State} (h : s.ready) :
    exec .getDbgPort s = .next { s with ctxs := s.ctxs.set s.running ⟨.idle, some (dbgResult s.dbgPort)⟩ } := by
  have hmicro : exec .getDbgPort s = .next ((s.setOp (.run .getDbgPort .q0)).setResult (dbgResult s.dbgPort)).finish :=
    operate_idle h.2
  rw [hmicro, State.finish_setResult_setOp h.known]

/-- Settles O47, by the two values of the designation. -/
theorem getDbgPortDelivers : Obligations.GetDbgPortDelivers := by
  refine ⟨decodeOfEncode .getDbgPort rfl, fun s h => ?_⟩
  rw [exec_getDbgPort_ready h]
  cases s.dbgPort with
  | none => rfl
  | some p => rw [dbgResult_some]

/-- Only the designation is written: no handle is examined, and the context is idle as before. -/
theorem exec_setDbgPort_ready {s : State} (h : s.ready) (p : PortIndex) (valid : Bool) :
    exec (.setDbgPort p valid) s = .next { s with dbgPort := dbgOperand p valid } := by
  have hmicro : exec (.setDbgPort p valid) s =
      .next (State.finish { s.goto (.setDbgPort p valid) .t0 with dbgPort := dbgOperand p valid }) :=
    operate_idle h.2
  rw [hmicro]
  exact congrArg _ (State.finish_goto (s := { s with dbgPort := dbgOperand p valid }) h _ _)

/-- Settles O48: the first two words are encodings, and the third is not well-formed (30_encoding.md R105). -/
theorem setDbgPortWrites : Obligations.SetDbgPortWrites :=
  ⟨decodeOfEncode (.setDbgPort 1 true) rfl, decodeOfEncode (.setDbgPort 0 false) rfl, by decide,
    fun _ p valid h => exec_setDbgPort_ready h p valid⟩

/-! ### The steps that change a handle (R226) -/

/-- What a micro-step of operation `i` at phase `ph` can do to the handle of port `q`. -/
inductive HandleMove (i : Instr) (ph : Phase) (q : PortId) : Handle → Handle → Prop
  | kept (x : Handle) : HandleMove i ph q x x
  | opened (p : PortIndex) (x : Handle) (hp : portId? p = some q) (hi : i = .openPort p) : HandleMove i ph q x .valid
  | nulled (p : PortIndex) (x : Handle) (hp : portId? p = some q) (hi : i = .endPort p) (hph : ph = .e4) :
      HandleMove i ph q x .null

theorem HandleMove.of_eq {i : Instr} {ph : Phase} {q : PortId} {x y : Handle} (h : y = x) : HandleMove i ph q x y :=
  h ▸ .kept _

section Handles

variable {s t : State} {i : Instr}

/-- An update of a port that keeps its handle keeps every handle. -/
theorem handle_kept_of_ports_set {q : PortId} {x : Port} (q' : PortId) (ht : t.ports = s.ports.set q x)
    (hx : x.handle = (s.port q).handle := by rfl) : (t.port q').handle = (s.port q').handle := by
  have hport : t.port q' = (s.setPort q x).port q' := by rw [State.port, ht]; rfl
  rw [hport, State.port_setPort]
  split
  · next e => rw [hx, e]
  · rfl

theorem GuardedResult.handle_kept {p : PortIndex} {body : Body} {G : GPhase → OpState} {D : OpState} {x : GPhase}
    (h : GuardedResult p body (fun x s => s.setOp (G x)) (fun s => s.setOp D) s x t) (q : PortId) :
    (t.port q).handle = (s.port q).handle := by
  cases h with
  | null | enter | stale | spin => rfl
  | acquire q' | write q' | release q' => exact handle_kept_of_ports_set q rfl

theorem WaitResult.handle_kept {p : PortIndex} {form : WaitForm} {x : WPhase} (h : WaitResult i p form s x t)
    (q : PortId) : (t.port q).handle = (s.port q).handle := by
  cases h with
  | clear q' => exact handle_kept_of_ports_set q rfl
  | _ => rfl

theorem BreakResult.handle_kept {p : PortIndex} {d : Micros} {ph : Phase} (h : BreakResult i p d s ph t)
    (q : PortId) : (t.port q).handle = (s.port q).handle := by
  cases h with
  | disable l x t h => exact GuardedResult.handle_kept (G := fun x => .run i (.s2 l x)) h q
  | restore l x t h => exact GuardedResult.handle_kept (G := fun x => .run i (.s9 l x)) h q
  | hold l x t h => obtain ⟨y, rfl⟩ | rfl := delayStep_eq h <;> rfl
  | _ => rfl

/-- `e4` nulls the handle of its port; the other micro-steps of `END` keep every handle. -/
theorem EndResult.handleMove {p : PortIndex} {ph : Phase} (h : EndResult (.endPort p) p s ph t) (q : PortId) :
    HandleMove (.endPort p) ph q (s.port q).handle (t.port q).handle := by
  cases h with
  | null | enter | undesignate => exact .kept _
  | disable x t h => exact .of_eq (GuardedResult.handle_kept (G := fun x => .run (.endPort p) (.e1 x)) h q)
  | release q' => exact .of_eq (handle_kept_of_ports_set q rfl)
  | nullify q' hp =>
    rw [State.finish_port, State.nullHandle, State.port_setPort]
    split
    · next e => exact .nulled p _ (e ▸ hp) rfl rfl
    · exact .kept _

/-- `o0` on a closed port gives its port a valid handle; a fault keeps every handle. -/
theorem OpenResult.handleMove {p : PortIndex} {ph : Phase} (h : OpenResult p s ph t) (q : PortId) :
    HandleMove (.openPort p) ph q (s.port q).handle (t.port q).handle := by
  cases h with
  | missing | already => exact .kept _
  | opened q' hp =>
    have hport : (s.openPort q').finish.port q = if q' = q then s.openedPort else s.port q :=
      State.port_setPort s q' q _
    rw [hport]
    split
    · next e => exact .opened p _ (e ▸ hp) rfl
    · exact .kept _

theorem ExecResult.handleMove {ph : Phase} (h : ExecResult s i ph t) (q : PortId) :
    HandleMove i ph q (s.port q).handle (t.port q).handle := by
  cases h with
  | now | setBaud | getDbgPort | setDbgPort => exact .kept _
  | delay d x t h => obtain ⟨y, rfl⟩ | rfl := delayStep_eq h <;> exact .kept _
  | wait i p form x t _ h => exact .of_eq (h.handle_kept q)
  | guarded i p body x t _ h => exact .of_eq (GuardedResult.handle_kept (G := fun x => .run i (.g x)) h q)
  | sendBreak p d ph t h => exact .of_eq (h.handle_kept q)
  | openPort p ph t h => exact h.handleMove q
  | endPort p ph t h => exact h.handleMove q

/-- A micro-step of the running context, with the phase it starts from. -/
theorem handleMove_of_exec (h : exec i s = .next t) (q : PortId) :
    ∃ ph, (ph = firstPhase i ∨ s.op = .run i ph) ∧ HandleMove i ph q (s.port q).handle (t.port q).handle := by
  obtain ⟨ph, s₀, hs, hr⟩ := exec_result h
  cases hs with
  | idle => exact ⟨_, .inl rfl, hr.handleMove q⟩
  | run _ ho => exact ⟨ph, .inr ho, hr.handleMove q⟩

/-- No operation starts at `e4`, so a handle becomes null only from that phase. -/
theorem handle_after_exec (h : exec i s = .next t) (q : PortId) :
    (t.port q).handle = (s.port q).handle ∨
      (∃ p, portId? p = some q ∧ i = .openPort p ∧ (t.port q).handle = .valid) ∨
      (∃ p, portId? p = some q ∧ i = .endPort p ∧ s.op = .run (.endPort p) .e4 ∧ (t.port q).handle = .null) := by
  obtain ⟨ph, hph, hm⟩ := handleMove_of_exec h q
  generalize (t.port q).handle = y at hm ⊢
  cases hm with
  | kept => exact .inl rfl
  | opened p _ hp hi => exact .inr (.inl ⟨p, hp, hi, rfl⟩)
  | nulled p _ hp hi he =>
    subst hi he
    obtain hfirst | ho := hph
    · cases hfirst
    · exact .inr (.inr ⟨p, hp, rfl, ho, rfl⟩)

/-- Only a micro-step changes a handle. -/
theorem StepResult.handle_after (h : StepResult s t) (q : PortId) :
    (t.port q).handle = (s.port q).handle ∨
      (∃ p, portId? p = some q ∧ s.nextInstr = some (.openPort p) ∧ (t.port q).handle = .valid) ∨
      (∃ p, portId? p = some q ∧ s.nextInstr = some (.endPort p) ∧ s.op = .run (.endPort p) .e4 ∧
        (t.port q).handle = .null) := by
  cases h with
  | micro ms i t hn _ he =>
    obtain h | ⟨p, hp, rfl, h⟩ | ⟨p, hp, rfl, h⟩ := handle_after_exec he q
    · exact .inl h
    · exact .inr (.inl ⟨p, hp, hn, h⟩)
    · exact .inr (.inr ⟨p, hp, hn, h⟩)
  | uart ms q' tx rx set line =>
    exact .inl (handle_kept_of_ports_set q rfl)
  | stay | illegal | present | advance | enter | tooDeep | exit => exact .inl rfl

end Handles

/-- Settles O49: a step that changes the handle is an `OPEN`'s or the last micro-step of an `END`, told apart by the
handle it leaves. -/
theorem handleLifecycle : Obligations.HandleLifecycle := by
  intro s t q hstep
  obtain ⟨-, hres⟩ := step_result hstep
  obtain h | ⟨p, hp, hn, h⟩ | ⟨p, hp, hn, ho, h⟩ := hres.handle_after q
  · rw [h]
    exact ⟨fun h₀ h₁ => Handle.noConfusion (h₀.symm.trans h₁),
      fun h₀ h₁ => Handle.noConfusion (h₀.symm.trans h₁)⟩
  · exact ⟨fun _ _ => ⟨p, hp, hn⟩, fun _ h₁ => Handle.noConfusion (h.symm.trans h₁)⟩
  · exact ⟨fun _ h₁ => Handle.noConfusion (h.symm.trans h₁), fun _ _ => ⟨p, hp, hn, ho⟩⟩

end Sys2Proof.Machine
end

section
/-! Interrupt entry and exit (60_exceptions.md R252, R256, R257, R259), and what every step leaves of the fault and
refusal records (R242). -/

namespace Sys2Proof.Machine

/-! ### The cause and the depth bound (R252, R257) -/

/-- A port is a cause when a flag is latched and enabled (R252). -/
theorem State.causeAvailable_uart (s : State) (q : PortId) :
    s.causeAvailable (.uart q) = (((s.port q).regs.intRaw &&& (s.port q).regs.intEna) != 0) := rfl

theorem State.ctxStack_length (s : State) : s.ctxStack.length = s.stack.length + 1 := by
  simp [State.ctxStack]

/-- The bound counts the contexts of the stack, `MAIN` among them. -/
theorem State.tooDeep_of_bound {s : State} {b : Nat} (hb : s.params.depthBound = some b) :
    s.tooDeep = decide (b < s.ctxStack.length + 1) := by
  rw [State.tooDeep, hb, State.ctxStack_length]

theorem State.tooDeep_of_unbounded {s : State} (hb : s.params.depthBound = none) : s.tooDeep = false := by
  simp [State.tooDeep, hb]

/-! ### The entry's three outcomes (R257) -/

theorem State.enterInterrupt_of_available {s : State} {k : Cause} (hk : s.causeAvailable k = true)
    (hd : s.tooDeep = false) : s.enterInterrupt k = .next (s.pushIsr k) := by
  simp [State.enterInterrupt, hk, hd]

theorem State.enterInterrupt_of_tooDeep {s : State} {k : Cause} (hk : s.causeAvailable k = true)
    (hd : s.tooDeep = true) : s.enterInterrupt k = .next (s.refuse .nestingTooDeep) := by
  simp [State.enterInterrupt, hk, hd]

theorem State.enterInterrupt_of_unavailable {s : State} {k : Cause} (hk : s.causeAvailable k = false) :
    s.enterInterrupt k = .refused .moveUnavailable := by
  simp [State.enterInterrupt, hk]

/-! ### The context that an entry pushes (R256, R257) -/

/-- A context not entered yet has presented nothing. -/
theorem Ctxs.get_isr_of_length_le {x : Ctxs} {n : Nat} (hn : x.isrs.length ≤ n) : x.get (.isr n) = .fresh := by
  simp [Ctxs.get, List.getElem?_eq_none hn]

/-- The table of contexts says of every context what it said before: the entry it gains is that of a context that has
presented nothing. -/
theorem State.get_pushIsr (s : State) (k : Cause) (c : Ctx) : (s.pushIsr k).ctxs.get c = s.ctxs.get c := by
  cases c with
  | main => rfl
  | isr n =>
    show ((s.ctxs.isrs ++ [CtxState.fresh])[n]?).getD .fresh = (s.ctxs.isrs[n]?).getD .fresh
    rcases Nat.lt_or_ge n s.ctxs.isrs.length with hn | hn
    · rw [List.getElem?_append_left hn]
    · rw [List.getElem?_append_right hn, List.getElem?_eq_none hn]
      cases n - s.ctxs.isrs.length <;> rfl

theorem State.resultOf_pushIsr (s : State) (k : Cause) (c : Ctx) : (s.pushIsr k).resultOf c = s.resultOf c :=
  congrArg CtxState.result (s.get_pushIsr k c)

theorem State.resultOf_isr_of_length_le {s : State} {n : Nat} (hn : s.ctxs.isrs.length ≤ n) :
    s.resultOf (.isr n) = none :=
  congrArg CtxState.result (Ctxs.get_isr_of_length_le hn)

theorem State.ctxStack_pushIsr (s : State) (k : Cause) :
    (s.pushIsr k).ctxStack = s.ctxStack ++ [.isr s.ctxs.isrs.length] := by
  simp [State.ctxStack]

/-- The number of contexts entered so far is no context of the stack. -/
theorem Inv.fresh_not_on_stack {s : State} (h : Inv s) : .isr s.ctxs.isrs.length ∉ s.ctxStack := by
  have hnew : s.ctxs.isrs.length ∉ s.stack := fun hm => Nat.lt_irrefl _ (h.stack_entered _ hm)
  simpa [State.ctxStack] using hnew

/-- The number of contexts entered so far is no context of an entry on record. -/
theorem Inv.fresh_not_on_record {s : State} (h : Inv s) (k : Cause) :
    .intEnter (.isr s.ctxs.isrs.length) k ∉ s.trace :=
  fun hm => Nat.lt_irrefl _ (h.entries_known _ k hm)

/-- Settles O50: the step is the entry's push, refusal of the nesting, or refusal of the move, by the cause and the
bound. -/
theorem interruptEntry : Obligations.InterruptEntry := by
  intro s k ms hf n available bounded
  have hcause : available = State.causeAvailable { s with moves := ms } k := by
    cases k with
    | uart q => exact (State.causeAvailable_uart { s with moves := ms } q).symm
    | external => rfl
  have hdepth : bounded = State.tooDeep { s with moves := ms } := by
    cases hb : s.params.depthBound with
    | none => simp only [bounded, hb, State.tooDeep_of_unbounded (s := { s with moves := ms }) hb]
    | some b =>
      rw [State.tooDeep_of_bound (s := { s with moves := ms }) hb]
      simp only [bounded, hb]
      rfl
  rw [hcause, hdepth, step_moves_cons hf]
  refine ⟨fun hk hd => ?_, fun hk hd => ?_, fun hk => ?_⟩
  · refine ⟨_, State.enterInterrupt_of_available hk hd, fun h => ⟨h.fresh_not_on_stack, h.fresh_not_on_record⟩,
      List.length_append, State.ctxStack_pushIsr _ k, rfl, ?_, ?_, fun c _ => ⟨?_, ?_⟩, rfl⟩
    · exact (State.opOf_pushIsr _ k _).trans (State.opOf_isr_of_length_le le_rfl)
    · exact (State.resultOf_pushIsr _ k _).trans (State.resultOf_isr_of_length_le le_rfl)
    · exact State.opOf_pushIsr _ k c
    · exact State.resultOf_pushIsr _ k c
  · exact State.enterInterrupt_of_tooDeep hk hd
  · exact State.enterInterrupt_of_unavailable hk

/-! ### Interrupt exit (R259) -/

theorem State.exitInterrupt_of_idle {s : State} {n : Nat} {rest : List Nat} (hs : s.stack = n :: rest)
    (ho : s.op = .idle) :
    s.exitInterrupt = .next { s with stack := rest, trace := s.trace ++ [.intExit (.isr n)] } := by
  unfold State.exitInterrupt
  rw [hs]
  exact if_pos ho

theorem State.exitInterrupt_of_main {s : State} (hs : s.stack = []) :
    s.exitInterrupt = .refused .moveUnavailable := by
  simp [State.exitInterrupt, hs]

theorem State.exitInterrupt_of_busy {s : State} (ho : s.op ≠ .idle) :
    s.exitInterrupt = .refused .moveUnavailable := by
  cases hs : s.stack with
  | nil => exact State.exitInterrupt_of_main hs
  | cons n rest => simp [State.exitInterrupt, hs, ho]

/-- Settles O51, each clause by the exit's law in the state with the move taken. -/
theorem interruptExit : Obligations.InterruptExit := by
  intro s n rest ms hf
  rw [step_moves_cons hf]
  exact ⟨fun hs ho => State.exitInterrupt_of_idle (s := { s with moves := ms }) hs ho,
    fun hs => State.exitInterrupt_of_main (s := { s with moves := ms }) hs,
    fun ho => State.exitInterrupt_of_busy (s := { s with moves := ms }) ho⟩

/-! ### The fault and refusal records (R242) -/

/-- From `s` to `t` the fault and refusal records only grow, and the refusal mark stays. -/
structure RecordsKept (s t : State) : Prop where
  faults : ∃ fs, t.faults = s.faults ++ fs
  refused : s.refused = true → t.refused = true
  refusals : ∃ rs, t.refusals = s.refusals ++ rs

/-- An update that touches neither record nor the mark. -/
theorem RecordsKept.of_eq {s t : State} (hf : t.faults = s.faults) (hm : t.refused = s.refused)
    (hr : t.refusals = s.refusals) : RecordsKept s t :=
  ⟨⟨[], by rw [hf, List.append_nil]⟩, fun h => hm.trans h, ⟨[], by rw [hr, List.append_nil]⟩⟩

theorem Frame.recordsKept {s t : State} (h : Frame s t) : RecordsKept s t := ⟨h.faults, h.refused, h.refusals⟩

/-- The moves still to come do not matter to the records before a step. -/
theorem RecordsKept.of_setMoves {s t : State} {ms : List Move} (h : RecordsKept { s with moves := ms } t) :
    RecordsKept s t := ⟨h.faults, h.refused, h.refusals⟩

/-- A micro-step, a raise and a refusal keep the records by their frames; no other move touches them. -/
theorem StepResult.recordsKept {s t : State} (h : StepResult s t) : RecordsKept s t := by
  cases h with
  | micro ms i t _ _ he => exact (exec_frame he).recordsKept.of_setMoves
  | illegal ms w => exact (Frame.raise _ _).recordsKept.of_setMoves
  | tooDeep ms k => exact (Frame.refuse _ _).recordsKept.of_setMoves
  | stay | present | uart | advance | enter | exit => exact .of_eq rfl rfl rfl

/-- Settles O52: a recorded fault is the first branch of `step`, and the one inversion of `step` gives the records. -/
theorem faultedMachineIsQuiescent : Obligations.FaultedMachineIsQuiescent := by
  refine ⟨fun _ _ _ hf => step_faulted hf, fun s t hstep => ?_⟩
  obtain ⟨-, hres⟩ := step_result hstep
  obtain ⟨hfaults, hmark, hrefusals⟩ := hres.recordsKept
  exact ⟨hfaults, hmark, hrefusals⟩

end Sys2Proof.Machine
end

section
/-! A spin on a held lock lasts while no interrupt context is entered (70_reset_and_hazards.md R291): what the spin
rests on, and that no other step changes it. -/

namespace Sys2Proof.Machine

/-! ### What a spin on a lock rests on (R291) -/

/-- From `s` to `t` the running context, its operation and the lock and handle of port `q` are as before. -/
structure SameSpin (s t : State) (q : PortId) : Prop where
  params : t.params = s.params
  stack : t.stack = s.stack
  op : t.op = s.op
  port : (s.port q).SameHeld (t.port q)

/-- The moves still to come do not matter to a spin. -/
theorem SameSpin.setMoves (s : State) (q : PortId) (ms : List Move) : SameSpin s { s with moves := ms } q :=
  ⟨rfl, rfl, rfl, .refl _⟩

theorem SpinsOnLock.of_sameSpin {s t : State} {q : PortId} (h : SpinsOnLock s q) (k : SameSpin s t q) :
    SpinsOnLock t q := by
  obtain ⟨i, ph, c, hop, hguard, hname, hfit, hhandle, hlock⟩ := h
  have hrunning : t.running = s.running := by rw [State.running, k.stack, State.running]
  exact ⟨i, ph, c, k.op.trans hop, hguard, hname, by rw [k.params, hrunning]; exact hfit,
    k.port.handle.trans hhandle, k.port.lock.trans hlock⟩

theorem SpinsOnLock.not_idle {s : State} {q : PortId} (h : SpinsOnLock s q) : s.op ≠ .idle := by
  obtain ⟨i, ph, c, hop, -⟩ := h
  rw [hop]
  exact OpState.noConfusion

/-- The context's own micro-step is one more attempt on the held lock; the hardware and the counter write neither a lock
nor a context; the host's presentation and the exit need an idle context. -/
theorem SpinsOnLock.sameSpin_of_step {s t : State} {q : PortId} (h : SpinsOnLock s q)
    (hmove : ∀ k ms, s.moves ≠ .interrupt k :: ms) (hstep : step s = .next t) : SameSpin s t q := by
  obtain ⟨-, hres⟩ := step_result hstep
  cases hres with
  | micro ms i t _ ho he =>
    obtain ⟨ph, hop⟩ := ho.resolve_left h.not_idle
    have hspin := (h.of_sameSpin (.setMoves s q ms)).exec_eq (i := i) (ph := ph) hop
    obtain rfl := Host.Outcome.next.inj (hspin.symm.trans he)
    exact .setMoves s q ms
  | uart ms q' tx rx set line =>
    exact ⟨rfl, rfl, rfl, State.uartStep_sameHeld { s with moves := ms } q' q tx rx set line⟩
  | advance => exact ⟨rfl, rfl, rfl, .refl _⟩
  | enter ms k hm | tooDeep ms k hm => exact absurd hm (hmove k ms)
  | stay _ ho | illegal _ _ ho | present _ _ _ ho | exit _ _ _ _ ho => exact absurd ho h.not_idle

/-- Settles O32: the step leaves what the spin rests on, so the context spins on. -/
theorem lockSpinPersists : Obligations.LockSpinPersists := by
  intro s t q h hmove hstep
  have hsame := h.sameSpin_of_step hmove hstep
  exact ⟨h.of_sameSpin hsame, hsame.op, hsame.stack, hsame.port.lock⟩

end Sys2Proof.Machine
end

section
/-! The command words that the spec writes out (30_encoding.md R109). -/

namespace Sys2Proof

theorem decode_of_encode_eq {w : Command} {i : Instr} (hw : encode i = w) (hwf : i.wellFormed = true) :
    decode w = some i := by
  rw [← hw]
  exact decodeOfEncode i hwf

/-- Settles O4: each word is the encoding of its operation, which is well-formed. -/
theorem specWordsDecode : Obligations.SpecWordsDecode := by
  refine ⟨?sendBreak, ?setIntMask, ?cfgBreakGen, ?delayMicros, ?setDbgPort, ?clrDbgPort⟩
  all_goals exact decode_of_encode_eq (by decide) rfl

end Sys2Proof
end
